-- ==== Sys2Proof/Word.lean ====
section
/-! DEFINITION. The word types of the block (00_scope.md R7, R12): a byte, the 16-bit opcode field and CRC-16,
the 32-bit registers, the 64-bit debounce counts. Bit 0 is the least significant bit of each. -/

namespace Sys2Proof

/-- 8 bits: a frame byte, a byte of an on-block memory, a CRC-8. -/
abbrev Byte := BitVec 8

/-- 16 bits: the opcode field (R81), a CRC-16 (R125). -/
abbrev Half := BitVec 16

/-- 32 bits: `arg` (R81), a 32-bit register (R7), a binary32 pattern (R12). -/
abbrev Word := BitVec 32

/-- 64 bits: a debounce count (R23). -/
abbrev DWord := BitVec 64

end Sys2Proof
end

