-- ==== Sys2Proof/Config.lean ====
section
/-! DEFINITION. What an implementation fixes (the parameters of 00_scope.md R6), the host's inputs of a cycle
(R8, R10), and the free values: constants with no body, of which nothing can be proved. -/

namespace Sys2Proof

/-- The five step sizes (30_encoding.md R87), in the order of their selector values 0 to 4. -/
inductive StepSize where
  | full | half | quarter | eighth | sixteenth
  deriving DecidableEq, Repr

/-- One value for each step size: the shape of the parameters `STEP_DIST` and `MS_TABLE` (R6, R188). -/
structure BySize (α : Type) where
  full : α
  half : α
  quarter : α
  eighth : α
  sixteenth : α
  deriving DecidableEq, Repr

/-- The entry of a table for one step size. -/
def BySize.get {α : Type} (t : BySize α) : StepSize → α
  | .full => t.full
  | .half => t.half
  | .quarter => t.quarter
  | .eighth => t.eighth
  | .sixteenth => t.sixteenth

/-- The implementation parameters, each under the name R6 gives it. They are fixed before power-up and no
command changes them (70_reset_and_hazards.md R290). `Params.legal` (WellFormed.lean) is their legal range. -/
structure Params where
  /-- `F_CLK_HZ`: the frequency of `clk` in Hz. -/
  fClkHz : Nat
  /-- `RB_CAP`: the ring buffer's capacity in bytes. -/
  rbCap : Nat
  /-- `RB_OVERWRITE`: on a full buffer a new byte overwrites the oldest. -/
  rbOverwrite : Bool
  /-- `CRC8_POLY_R`: the reflected CRC-8 polynomial. -/
  crc8PolyR : Byte
  /-- `CRC16_POLY_R`: the reflected CRC-16 polynomial of the optional mode. -/
  crc16PolyR : Half
  /-- `STEP_DIST[s]`: position units for each micro-step of a size. -/
  stepDist : BySize Nat
  /-- `MS_TABLE[s]`: the value driven on `ms_sel` for a size. -/
  msTable : BySize (BitVec 3)
  /-- `SETTLE_CYCLES`: cycles between programming MS/DIR and the first STEP edge. -/
  settleCycles : Nat
  /-- `DEFAULT_TICK_DIV`: the reset value of `TICK_DIV`. -/
  defaultTickDiv : Nat
  /-- `DEFAULT_DEBOUNCE_MS`: the reset value of `DEBOUNCE_MS`. -/
  defaultDebounceMs : Nat
  /-- `LED_TICK_DIV`: clock cycles for each LED sample tick. -/
  ledTickDiv : Nat
  /-- `PID_WINDOW`: the length W of the error window. -/
  pidWindow : Nat
  /-- `ADC_BITS`: the width of `adc_sample`. -/
  adcBits : Nat
  /-- `ADC_LSB_VOLTS`: volts for each ADC code, a binary32 pattern. -/
  adcLsbVolts : Word
  /-- `PWM_PERIOD`: the PWM counter's period in cycles. -/
  pwmPeriod : Nat
  /-- `LIM1_ACTIVE_LOW`. -/
  lim1ActiveLow : Bool
  /-- `LIM2_ACTIVE_LOW`. -/
  lim2ActiveLow : Bool
  /-- `ESTOP_ACTIVE_LOW`. -/
  estopActiveLow : Bool
  deriving DecidableEq, Repr

/-- The parameters of R6: each default where R6 gives one, and its *vector value* where R6 leaves it OPEN.
`State.reset` is built with these; every statement about all states holds for every legal choice.
DESIGN CHOICE for the OPEN ones (log 2), unsafe for a statement about `State.reset` alone; the polynomials and
`MS_TABLE` are the spec's own general-knowledge defaults K1 to K3 (PRESUMED, log 11). -/
def Params.vector : Params where
  fClkHz := 1000000
  rbCap := 32
  rbOverwrite := false
  crc8PolyR := 0x8C#8
  crc16PolyR := 0xA001#16
  stepDist := { full := 16, half := 8, quarter := 4, eighth := 2, sixteenth := 1 }
  msTable := { full := 0b000#3, half := 0b001#3, quarter := 0b010#3, eighth := 0b011#3, sixteenth := 0b111#3 }
  settleCycles := 1
  defaultTickDiv := 4
  defaultDebounceMs := 1
  ledTickDiv := 10
  pidWindow := 4
  adcBits := 12
  adcLsbVolts := 0x39800000#32
  pwmPeriod := 100
  lim1ActiveLow := false
  lim2ActiveLow := false
  estopActiveLow := false

/-- The inputs `I` of one cycle (R8, R10). -/
structure Input where
  /-- `rst`: synchronous reset, active high. -/
  rst : Bool
  /-- `rx_valid`: a received byte is presented this cycle. -/
  rxValid : Bool
  /-- `rx_byte`. -/
  rxByte : Byte
  /-- `tx_ready`: the sink accepts the offered byte this cycle. -/
  txReady : Bool
  /-- `lim1_pin`, the sampled level. -/
  lim1Pin : Bool
  /-- `lim2_pin`, the sampled level. -/
  lim2Pin : Bool
  /-- `estop_pin`, the sampled level. -/
  estopPin : Bool
  /-- `adc_sample`: the block takes the low `ADC_BITS` bits (at most 24; log 13). -/
  adcSample : BitVec 24
  deriving DecidableEq, Repr, Inhabited

/-- A cycle in which the host does nothing: every port low. -/
def Input.quiet : Input where
  rst := false
  rxValid := false
  rxByte := 0
  txReady := false
  lim1Pin := false
  lim2Pin := false
  estopPin := false
  adcSample := 0

/-- The binary32 operations of R15. -/
inductive FloatOp where
  | add | sub | mul
  deriving DecidableEq, Repr

/-- Free value (log 1): the host's inputs in a cycle that `State.inputs` does not list. R10: each cycle's input
"is a draw under no law". -/
opaque Config.hostInput (cycle : Nat) : Input

/-- Free value (log 5): the sign bit of a NaN that a binary32 operation gives for two operands. -/
opaque Config.nanSign (op : FloatOp) (a b : Word) : Bool

/-- Free value (log 5): the fraction of a NaN that a binary32 operation gives for two operands; a zero fraction
would be no NaN and is read as the quiet bit alone (Machine/Float32.lean). -/
opaque Config.nanFraction (op : FloatOp) (a b : Word) : BitVec 23

end Sys2Proof
end

