-- ==== Sys2Proof/Syntax.lean ====
section
/-! DEFINITION. The commands of the block: one constructor of `Instr` for each row of spec/opcode_table.json
(30_encoding.md R92), with the operands that row's command reads (R85 to R89). An operand the command ignores
(R94) is not carried. -/

namespace Sys2Proof

/-- The fourteen opcodes 0 to 13 (R92), in the table's order. A step-size selector is the raw 4-bit field, because
the values 5 to 15 decode and are rejected by the handler (R87); likewise the 2-bit gain selector (R88). -/
inductive Instr where
  /-- IDLE, opcode 0 (42_frame_protocol.md R148). -/
  | idle
  /-- RELATIVE, opcode 1 (43_motor_sequencer.md R180): `count = u32(arg)`, SIZE, DIR and IGN of `flags` (R86). -/
  | relative (count : Word) (size : BitVec 4) (dir ign : Bool)
  /-- ABSOLUTE, opcode 2 (R181): `target = s32(arg)`, SIZE and IGN of `flags`; DIR is ignored. -/
  | absolute (target : Word) (size : BitVec 4) (ign : Bool)
  /-- SPEED, opcode 3 (R182): `hz = u32(arg)`. -/
  | speed (hz : Word)
  /-- STOP, opcode 4 (R183). -/
  | stop
  /-- SET_POSITION, opcode 5 (R184): `pos = s32(arg)`. -/
  | setPosition (pos : Word)
  /-- GET_POSITION, opcode 6 (R185). -/
  | getPosition
  /-- LED_PWM, opcode 7 (45_led_pid.md R240): `duty = f32(arg)`. -/
  | ledPwm (duty : Word)
  /-- LED_VOLTAGE, opcode 8 (R241): `volts = f32(arg)`. -/
  | ledVoltage (volts : Word)
  /-- LED_PID, opcode 9 (R242): `value = f32(arg)`, `SEL = flags[1:0]` (R88). -/
  | ledPid (value : Word) (sel : BitVec 2)
  /-- SWITCH_DEBOUNCE, opcode 10 (44_switch_monitor.md R220): `ms = u32(arg)`. -/
  | switchDebounce (ms : Word)
  /-- EMERGENCY_STOP, opcode 11 (R221). -/
  | emergencyStop
  /-- EMERGENCY_CLEAR, opcode 12 (R222). -/
  | emergencyClear
  /-- LIMIT_STEP_OFF, opcode 13 (R187): `count = u32(arg)`, `SIZE = flags[3:0]` (R89). -/
  | limitStepOff (count : Word) (size : BitVec 4)
  deriving DecidableEq, Repr

/-- What an accepted frame decodes to (R99): a row of the opcode table, or the unknown-opcode handler of R93 with
the opcode it echoes. -/
inductive Command where
  | known (i : Instr)
  | unknown (op : Half)
  deriving DecidableEq, Repr

end Sys2Proof
end

