-- ==== Sys2Proof/WellFormed.lean ====
section
/-! DEFINITION. Two checks. `Params.legal`: the legal range of every parameter (00_scope.md R6); a value outside it
is refused (93_implementation_defined.md §3). `Instr.wellFormed`: no selector of the command is one the spec calls
invalid (30_encoding.md R87, R88); the other values decode too, and the handler rejects them by a result code. -/

namespace Sys2Proof

/-- `MIN_TICK_DIV = max(1, SETTLE_CYCLES)` (R6). -/
def Params.minTickDiv (p : Params) : Nat := max 1 p.settleCycles

/-- `F_CLK_HZ`: a multiple of 1000, at least 1000, below 2^32. -/
def Params.clockLegal (p : Params) : Bool :=
  decide (p.fClkHz % 1000 = 0) && decide (1000 ≤ p.fClkHz) && decide (p.fClkHz < 2 ^ 32)

/-- `RB_CAP`: 12 to 2^16. -/
def Params.ringLegal (p : Params) : Bool := decide (12 ≤ p.rbCap) && decide (p.rbCap ≤ 2 ^ 16)

/-- The polynomials are not zero. -/
def Params.crcLegal (p : Params) : Bool := decide (p.crc8PolyR ≠ 0) && decide (p.crc16PolyR ≠ 0)

/-- One `STEP_DIST` entry: 1 to 2^16. -/
def Params.distLegal (d : Nat) : Bool := decide (1 ≤ d) && decide (d ≤ 2 ^ 16)

/-- `STEP_DIST`: every entry legal. -/
def Params.stepLegal (p : Params) : Bool :=
  Params.distLegal p.stepDist.full && Params.distLegal p.stepDist.half && Params.distLegal p.stepDist.quarter &&
  Params.distLegal p.stepDist.eighth && Params.distLegal p.stepDist.sixteenth

/-- `SETTLE_CYCLES`: 1 to 2^32-1. -/
def Params.settleLegal (p : Params) : Bool := decide (1 ≤ p.settleCycles) && decide (p.settleCycles < 2 ^ 32)

/-- `DEFAULT_TICK_DIV`: `MIN_TICK_DIV` to 2^32-1. -/
def Params.tickLegal (p : Params) : Bool :=
  decide (p.minTickDiv ≤ p.defaultTickDiv) && decide (p.defaultTickDiv < 2 ^ 32)

/-- `DEFAULT_DEBOUNCE_MS`: 0 to 2^32-1. -/
def Params.debounceLegal (p : Params) : Bool := decide (p.defaultDebounceMs < 2 ^ 32)

/-- `LED_TICK_DIV`: 1 to 2^32-1. -/
def Params.ledTickLegal (p : Params) : Bool := decide (1 ≤ p.ledTickDiv) && decide (p.ledTickDiv < 2 ^ 32)

/-- `PID_WINDOW`: 1 to 256. -/
def Params.windowLegal (p : Params) : Bool := decide (1 ≤ p.pidWindow) && decide (p.pidWindow ≤ 256)

/-- `ADC_BITS`: 1 to 24. -/
def Params.adcLegal (p : Params) : Bool := decide (1 ≤ p.adcBits) && decide (p.adcBits ≤ 24)

/-- `ADC_LSB_VOLTS`: finite and positive, that is a pattern above +0.0 and below +infinity. -/
def Params.lsbLegal (p : Params) : Bool :=
  decide (0 < p.adcLsbVolts.toNat) && decide (p.adcLsbVolts.toNat < 0x7F800000)

/-- `PWM_PERIOD`: 1 to 2^16. -/
def Params.pwmLegal (p : Params) : Bool := decide (1 ≤ p.pwmPeriod) && decide (p.pwmPeriod ≤ 2 ^ 16)

/-- Every parameter is in its legal range (R6). The Booleans and `MS_TABLE` are legal by their types. -/
def Params.legal (p : Params) : Bool :=
  p.windowLegal && p.pwmLegal && p.adcLegal && p.ringLegal && p.crcLegal && p.stepLegal && p.settleLegal &&
  p.tickLegal && p.debounceLegal && p.ledTickLegal && p.lsbLegal && p.clockLegal

/-- A step-size selector that names a size (R87): 0 to 4. -/
def selectorValid (size : BitVec 4) : Bool := decide (size.toNat ≤ 4)

/-- The command carries no invalid selector: SIZE is 0 to 4 where it is read (R87, R89), SEL is not 3 (R88). -/
def Instr.wellFormed : Instr → Bool
  | .idle => true
  | .relative _ size _ _ => selectorValid size
  | .absolute _ size _ => selectorValid size
  | .speed _ => true
  | .stop => true
  | .setPosition _ => true
  | .getPosition => true
  | .ledPwm _ => true
  | .ledVoltage _ => true
  | .ledPid _ sel => decide (sel ≠ 3)
  | .switchDebounce _ => true
  | .emergencyStop => true
  | .emergencyClear => true
  | .limitStepOff _ size => selectorValid size

end Sys2Proof
end

