-- ==== Sys2Proof/Machine/Operands.lean ====
section
/-! DEFINITION. Operand assembly (30_encoding.md §2): how bytes make a field, how each opcode reads `arg`, and the
sub-fields of `flags`. -/

namespace Sys2Proof.Machine

/-- A 16-bit field from two bytes, the lower offset less significant (20_memory.md R60). -/
def le16 (b0 b1 : Byte) : Half := b1 ++ b0

/-- A 32-bit field from four bytes, the lower offset less significant (R60). -/
def le32 (b0 b1 b2 b3 : Byte) : Word := b3 ++ b2 ++ b1 ++ b0

/-- Byte `k` of a 16-bit field on the wire (R60). -/
def byteOfHalf (h : Half) (k : Nat) : Byte := h.extractLsb' (8 * k) 8

/-- Byte `k` of a 32-bit field on the wire (R60). -/
def byteOfWord (w : Word) (k : Nat) : Byte := w.extractLsb' (8 * k) 8

/-- `u32(v)` (00_scope.md R12). -/
def u32 (v : Word) : Nat := v.toNat

/-- `s32(v)` (R12). -/
def s32 (v : Word) : Int := v.toInt

/-- `wrap32(v) = v mod 2^32` as a 32-bit pattern (R12). -/
def wrap32 (v : Int) : Word := BitVec.ofInt 32 v

/-- `SIZE = flags[3:0]` (R86, R89). -/
def sizeField (flags : Byte) : BitVec 4 := flags.extractLsb' 0 4

/-- `DIR = flags[5]` (R86). -/
def dirField (flags : Byte) : Bool := flags.getLsbD 5

/-- `IGN = flags[6]` (R86). -/
def ignField (flags : Byte) : Bool := flags.getLsbD 6

/-- `SEL = flags[1:0]` (R88). -/
def selField (flags : Byte) : BitVec 2 := flags.extractLsb' 0 2

/-- The `flags` byte of a motion command, reserved bits 4 and 7 zero (R86). -/
def motionFlags (size : BitVec 4) (dir ign : Bool) : Byte :=
  0#1 ++ BitVec.ofBool ign ++ BitVec.ofBool dir ++ 0#1 ++ size

/-- The `flags` byte that carries a step size alone (R89). -/
def sizeFlags (size : BitVec 4) : Byte := 0#4 ++ size

/-- The `flags` byte that carries a gain selector alone (R88). -/
def selFlags (sel : BitVec 2) : Byte := 0#6 ++ sel

/-- The step size a selector names (R87); the values 5 to 15 name none. -/
def stepSizeOf (size : BitVec 4) : Option StepSize :=
  match size.toNat with
  | 0 => some .full
  | 1 => some .half
  | 2 => some .quarter
  | 3 => some .eighth
  | 4 => some .sixteenth
  | _ => none

/-- `STEP_DIST[s]` (43_motor_sequencer.md R188). -/
def stepDist (p : Params) (s : StepSize) : Nat := p.stepDist.get s

/-- `MS_TABLE[s]` (R188). -/
def msTable (p : Params) (s : StepSize) : BitVec 3 := p.msTable.get s

/-- `CYCLES_PER_MS = F_CLK_HZ / 1000` (R6). -/
def cyclesPerMs (p : Params) : Nat := p.fClkHz / 1000

/-- The debounce period in cycles, `DEBOUNCE_MS * CYCLES_PER_MS`, computed exactly (10_state.md R33). -/
def debouncePeriod (p : Params) (ms : Word) : DWord := BitVec.ofNat 64 (u32 ms * cyclesPerMs p)

/-- The count and the direction of an ABSOLUTE move (43_motor_sequencer.md R181): the exact difference divided by
the step distance, truncated toward zero; direction 1 when the difference is negative. -/
def absoluteMove (target position : Word) (dist : Nat) : Word × Bool :=
  let delta := s32 target - s32 position
  (BitVec.ofNat 32 (delta.natAbs / dist), decide (delta < 0))

end Sys2Proof.Machine
end

