-- ==== Sys2Proof/Machine/Checksum.lean ====
section
/-! DEFINITION. The CRC checksum engine (41_checksum.md): pure functions of the bytes and of a reflected polynomial.
No state element holds a table (R127). -/

namespace Sys2Proof.Machine

/-- One iteration of `r_8` (R121): shift right, and XOR the reflected polynomial when a 1 falls out. -/
def crcShift {w : Nat} (poly c : BitVec w) : BitVec w :=
  if c.getLsbD 0 then (c >>> 1) ^^^ poly else c >>> 1

/-- `n` iterations of `crcShift`. -/
def crcShifts {w : Nat} (poly : BitVec w) : Nat → BitVec w → BitVec w
  | 0, c => c
  | n + 1, c => crcShifts poly n (crcShift poly c)

/-- `T8[i]` (R121). -/
def t8 (poly i : Byte) : Byte := crcShifts poly 8 i

/-- The running CRC-8 from `c` over the bytes (R120). -/
def crc8From (poly c : Byte) (bytes : List Byte) : Byte :=
  bytes.foldl (fun c b => t8 poly (c ^^^ b)) c

/-- `CRC8(bytes)` (R120): initial value zero, no final XOR. -/
def crc8 (poly : Byte) (bytes : List Byte) : Byte := crc8From poly 0 bytes

/-- `T16[i]` (R125). -/
def t16 (poly : Half) (i : Byte) : Half := crcShifts poly 8 (i.setWidth 16)

/-- `CRC16(bytes)` (R125): the optional mode; no frame uses it. -/
def crc16 (poly : Half) (bytes : List Byte) : Half :=
  bytes.foldl (fun c b => (c >>> 8) ^^^ t16 poly ((c ^^^ b.setWidth 16).setWidth 8)) 0

/-- `validate(F)` (R123): the checksum byte is the CRC-8 of the nine bytes before it. -/
def validate (poly : Byte) (F : List Byte) : Bool := decide (crc8 poly (F.take 9) = F.getD 9 0)

end Sys2Proof.Machine
end

