-- ==== Sys2Proof/Decode.lean ====
section
/-! DEFINITION. The decoder and the encoder of `FRAME12` (30_encoding.md). Decoding is total (R99): a byte string is
rejected by the name of the check it fails, or it is a row of the opcode table, or an unknown opcode. -/

namespace Sys2Proof

open Sys2Proof.Machine

/-- Why a byte string is no frame. R138 (length), R137 (start marker), R139 (stop marker), R140 (checksum). -/
inductive FrameFault where
  | length | start | stop | checksum
  deriving DecidableEq, Repr

/-- Byte `k` of a frame (00_scope.md R12). -/
def frameByte (F : List Byte) (k : Nat) : Byte := F.getD k 0

/-- The `opcode` field `{F[3], F[2]}` (R81, R84). -/
def frameOpcode (F : List Byte) : Half := le16 (frameByte F 2) (frameByte F 3)

/-- The `arg` field `{F[7], F[6], F[5], F[4]}` (R81). -/
def frameArg (F : List Byte) : Word :=
  le32 (frameByte F 4) (frameByte F 5) (frameByte F 6) (frameByte F 7)

/-- The `flags` field `F[8]` (R81). -/
def frameFlags (F : List Byte) : Byte := frameByte F 8

/-- The start marker `DE AD` stands at the head (R82). -/
def startOk (F : List Byte) : Bool := decide (frameByte F 0 = 0xDE#8) && decide (frameByte F 1 = 0xAD#8)

/-- The stop marker `BE EF` stands at bytes 10 and 11 (R82). -/
def stopOk (F : List Byte) : Bool := decide (frameByte F 10 = 0xBE#8) && decide (frameByte F 11 = 0xEF#8)

/-- The row of the opcode table that an opcode selects, with the operands its command reads (R85 to R89, R92).
Bits and fields a command does not use are ignored (R94). -/
def selectInstr (op : Half) (arg : Word) (flags : Byte) : Option Instr :=
  match op.toNat with
  | 0 => some .idle
  | 1 => some (.relative arg (sizeField flags) (dirField flags) (ignField flags))
  | 2 => some (.absolute arg (sizeField flags) (ignField flags))
  | 3 => some (.speed arg)
  | 4 => some .stop
  | 5 => some (.setPosition arg)
  | 6 => some .getPosition
  | 7 => some (.ledPwm arg)
  | 8 => some (.ledVoltage arg)
  | 9 => some (.ledPid arg (selField flags))
  | 10 => some (.switchDebounce arg)
  | 11 => some .emergencyStop
  | 12 => some .emergencyClear
  | 13 => some (.limitStepOff arg (sizeField flags))
  | _ => none

/-- `decode(F)` of an accepted frame (42_frame_protocol.md R142): a known command, or the unknown-opcode handler's
with the opcode it echoes (R93). -/
def decodeFields (F : List Byte) : Command :=
  match selectInstr (frameOpcode F) (frameArg F) (frameFlags F) with
  | some i => .known i
  | none => .unknown (frameOpcode F)

/-- The check a 12-byte string fails, if any, in the parser's order (R136). -/
def frameFault (poly : Byte) (F : List Byte) : Option FrameFault :=
  if F.length ≠ 12 then some .length
  else if !startOk F then some .start
  else if !stopOk F then some .stop
  else if !validate poly F then some .checksum
  else none

/-- The decoder (R99): total on any byte string. -/
def decode (poly : Byte) (F : List Byte) : Except FrameFault Command :=
  match frameFault poly F with
  | some e => .error e
  | none => .ok (decodeFields F)

/-! ## The encoder -/

/-- The frame of an opcode, an `arg` and a `flags` byte (R81 to R83). The reply has the same layout (R90). -/
def buildFrame (poly : Byte) (op : Half) (arg : Word) (flags : Byte) : List Byte :=
  let body := [0xDE#8, 0xAD#8, byteOfHalf op 0, byteOfHalf op 1,
    byteOfWord arg 0, byteOfWord arg 1, byteOfWord arg 2, byteOfWord arg 3, flags]
  body ++ [crc8 poly body, 0xBE#8, 0xEF#8]

/-- The opcode of a row (R92). -/
def opcodeOf : Instr → Half
  | .idle => 0
  | .relative .. => 1
  | .absolute .. => 2
  | .speed _ => 3
  | .stop => 4
  | .setPosition _ => 5
  | .getPosition => 6
  | .ledPwm _ => 7
  | .ledVoltage _ => 8
  | .ledPid .. => 9
  | .switchDebounce _ => 10
  | .emergencyStop => 11
  | .emergencyClear => 12
  | .limitStepOff .. => 13

/-- The `arg` field of a command; an ignored one is sent as 0 (R97). -/
def argOf : Instr → Word
  | .idle => 0
  | .relative count _ _ _ => count
  | .absolute target _ _ => target
  | .speed hz => hz
  | .stop => 0
  | .setPosition pos => pos
  | .getPosition => 0
  | .ledPwm duty => duty
  | .ledVoltage volts => volts
  | .ledPid value _ => value
  | .switchDebounce ms => ms
  | .emergencyStop => 0
  | .emergencyClear => 0
  | .limitStepOff count _ => count

/-- The `flags` byte of a command, unused bits 0 (R97). -/
def flagsOf : Instr → Byte
  | .idle => 0
  | .relative _ size dir ign => motionFlags size dir ign
  | .absolute _ size ign => motionFlags size false ign
  | .speed _ => 0
  | .stop => 0
  | .setPosition _ => 0
  | .getPosition => 0
  | .ledPwm _ => 0
  | .ledVoltage _ => 0
  | .ledPid _ sel => selFlags sel
  | .switchDebounce _ => 0
  | .emergencyStop => 0
  | .emergencyClear => 0
  | .limitStepOff _ size => sizeFlags size

/-- The encoder: the twelve bytes of a command, first on the wire first (R81). -/
def encode (poly : Byte) (i : Instr) : List Byte := buildFrame poly (opcodeOf i) (argOf i) (flagsOf i)

/-! ## The opcode table's numbering -/

/-- The bytes of a number whose bit 0 is the least significant bit of the first byte. -/
def bytesOfNat : Nat → Nat → List Byte
  | 0, _ => []
  | n + 1, w => BitVec.ofNat 8 w :: bytesOfNat n (w / 256)

/-- The twelve frame bytes of a table word of `nbits` bits; every bit above is 0. Bit 0 is the least significant bit of
`F[0]`. R96 prints a row as 24 hex digits with `F[0]` first; a word that has both markers only when read as that one
number is read so. No word has them both ways (log 9). -/
def tableFrame (nbits w : Nat) : List Byte :=
  let F := bytesOfNat 12 (w % 2 ^ nbits)
  if startOk F.reverse && stopOk F.reverse then F.reverse else F

/-- The row selection of R96, `(F & mask) == match`: the markers and the opcode. The checksum byte is not masked,
because the parser checks it before decoding (R136, R140; log 9). -/
def selectRow (F : List Byte) : Option Instr :=
  if F.length = 12 ∧ startOk F ∧ stopOk F then selectInstr (frameOpcode F) (frameArg F) (frameFlags F) else none

/-- What the decoder reads from a word numbered as spec/opcode_table.json numbers it (`tableFrame`). The checksum byte
takes no part (log 9). -/
def decodeTableWord (nbits w : Nat) : Option Instr :=
  if nbits ≤ 96 then selectRow (tableFrame nbits w) else none

/-- The frame of a table word with its checksum byte filled in (R83), as the parser asks for it (R140). -/
def sealFrame (poly : Byte) (F : List Byte) : List Byte := F.set 9 (crc8 poly (F.take 9))

end Sys2Proof
end

