-- ==== Sys2Proof/Machine/State.lean ====
section
/-! DEFINITION. The whole architectural state `S` of the block (10_state.md R23), plain data, one record for each
sub-block, with the model's own fields (the parameters, the host's inputs, the cycle counter); the reset state
(70_reset_and_hazards.md R285); the reasons a step can stop. -/

namespace Sys2Proof.Machine

/-- The motor state register's eight names in the order of their encoding 0 to 7 (10_state.md R24). -/
inductive MState where
  | idle | setup | stepRising | stepHighHold | stepFalling | stepLowHold | estop | exit
  deriving DecidableEq, Repr

/-- The completion codes 0 to 3 (60_exceptions.md R263). -/
inductive DoneCode where
  | ok | limit | stopped | estop
  deriving DecidableEq, Repr

/-- The two LED modes, 0 and 1 (10_state.md R35). -/
inductive LedMode where
  | direct | closed
  deriving DecidableEq, Repr

/-- An on-block memory (R14, R43): pairs of an index and a byte, indices strictly rising, no entry equal to what an
unlisted index reads as (`Memory.wf` in Ops.lean). -/
abbrev Memory := List Host.Cell

/-- What an index that a memory does not list reads as. R285 leaves RB_MEM and REPLY_BUF unspecified after reset.
DESIGN CHOICE 0, unsafe for a statement that rests on it (log 3). -/
def Memory.unlisted : Byte := 0

/-- The motor sequencer's registers (R23 #1 to #15). -/
structure Motor where
  /-- `M_STATE` (R24). -/
  mState : MState
  /-- `POSITION` (R25). -/
  position : Word
  /-- `TICK_DIV` (R26). -/
  tickDiv : Word
  /-- `TICK_CNT` (R26). -/
  tickCnt : Word
  /-- `REQ_SIZE` (R27). -/
  reqSize : StepSize
  /-- `REQ_COUNT` (R27). -/
  reqCount : Word
  /-- `REQ_DIR` (R27): true is 1, negative. -/
  reqDir : Bool
  /-- `REQ_IGN` (R27). -/
  reqIgn : Bool
  /-- `SO_SIZE` (R28). -/
  soSize : StepSize
  /-- `SO_COUNT` (R28). -/
  soCount : Word
  /-- `STEP_R` (R29). -/
  stepR : Bool
  /-- `DIR_R` (R29). -/
  dirR : Bool
  /-- `MS_R` (R29). -/
  msR : BitVec 3
  /-- `DONE_VALID` (R30). -/
  doneValid : Bool
  /-- `DONE_CODE` (R30). -/
  doneCode : DoneCode
  deriving DecidableEq, Repr

/-- The *active* levels of the three switch inputs: one synchroniser stage (R31). -/
structure Levels where
  /-- bit 0 -/
  lim1 : Bool
  /-- bit 1 -/
  lim2 : Bool
  /-- bit 2 -/
  est : Bool
  deriving DecidableEq, Repr

/-- The debounce timer of one limit input (R32): `LIM_PREV[p]`, `DEB_ARMED[p]`, `DEB_CNT[p]`. -/
structure Debounce where
  prev : Bool
  armed : Bool
  cnt : DWord
  deriving DecidableEq, Repr

/-- The switch sampler's registers (R23 #16 to #22). -/
structure Switches where
  /-- `SYNC1` (R31). -/
  sync1 : Levels
  /-- `SYNC2` (R31). -/
  sync2 : Levels
  /-- The timer of limit input 1 (R32). -/
  deb1 : Debounce
  /-- The timer of limit input 2 (R32). -/
  deb2 : Debounce
  /-- `DEBOUNCE_MS` (R33). -/
  debounceMs : Word
  /-- `ESTOP_LATCHED` (R34). -/
  estopLatched : Bool
  deriving DecidableEq, Repr

/-- The LED controller's registers (R23 #23 to #32). Binary32 registers hold their 32-bit patterns. -/
structure Led where
  /-- `LED_MODE` (R35). -/
  mode : LedMode
  /-- `LED_ON` (R35). -/
  on : Bool
  /-- `LED_DUTY` (R36). -/
  duty : Word
  /-- `LED_TARGET` (R36). -/
  target : Word
  /-- `LED_P` (R37). -/
  p : Word
  /-- `LED_I` (R37). -/
  i : Word
  /-- `LED_D` (R37). -/
  d : Word
  /-- `LED_WIN[0..W-1]` (R38). -/
  win : List Word
  /-- `LED_IDX` (R38). -/
  idx : Nat
  /-- `LED_PREV` (R38). -/
  prev : Word
  /-- `LED_TICK_CNT` (R39). -/
  tickCnt : Word
  /-- `PWM_CNT` (R39). -/
  pwmCnt : Nat
  deriving DecidableEq, Repr

/-- The receive ring buffer (R23 #33 to #35, R40): `RB_MEM`, `RB_HEAD`, `RB_TAIL`, `RB_FULL`. -/
structure RingBuf where
  mem : Memory
  head : Nat
  tail : Nat
  full : Bool
  deriving DecidableEq, Repr

/-- The reply path (R23 #36 to #39, R41): `REPLY_BUF`, `REPLY_VALID`, `TX_IDX`, `HEARTBEAT`. -/
structure Reply where
  buf : Memory
  valid : Bool
  txIdx : Nat
  heartbeat : Bool
  deriving DecidableEq, Repr

/-- The state: the five sub-blocks' registers, and the model's own fields `cfg` (the parameters of this block, fixed
for a run; log 2), `inputs` (the host's inputs of the coming cycles, the current one first; log 1) and `cycle` (the
cycles taken so far, which index the free inputs once `inputs` is used up; log 1). -/
structure State where
  cfg : Params
  motor : Motor
  sw : Switches
  led : Led
  rb : RingBuf
  reply : Reply
  inputs : List Input
  cycle : Nat
  deriving DecidableEq, Repr

/-- Why the machine stops with a fault. No instruction's own meaning raises one: only `step` does, before it examines
the ring buffer. -/
inductive Fault where
  /-- Raised by `step` when M_STATE holds EXIT (7) at a clock edge (10_state.md R24; 93 U3: treatment `fault`). Safe:
  no rule reaches it. -/
  | exitHeld
  /-- Raised by `step` in a state that breaks an invariant of R45, which is not reachable from reset (93 S4:
  treatment `fault`; log 6). Safe: the rules are defined only on reachable states. -/
  | unreachableState
  deriving DecidableEq, Repr

/-- Why the machine refuses to step. -/
inductive Refusal where
  /-- An instruction that has no meaning yet. Raised by no arm of `exec`: every instruction has its meaning. -/
  | notModelled (mnemonic : String)
  /-- Raised by `step` when a parameter is out of its legal range (00_scope.md R6; 93 §3: treatment `refuse`;
  log 8). Safe. -/
  | illegalParameters
  deriving DecidableEq, Repr

/-! ## Reset (R285) -/

/-- The motor's registers after reset. -/
def Motor.reset (p : Params) : Motor where
  mState := .idle
  position := 0
  tickDiv := BitVec.ofNat 32 p.defaultTickDiv
  tickCnt := 0
  reqSize := .full
  reqCount := 0
  reqDir := false
  reqIgn := false
  soSize := .full
  soCount := 0
  stepR := false
  dirR := false
  msR := p.msTable.full
  doneValid := false
  doneCode := .ok

/-- No switch asserted. -/
def Levels.none : Levels where
  lim1 := false
  lim2 := false
  est := false

/-- A debounce timer after reset. -/
def Debounce.reset : Debounce where
  prev := false
  armed := false
  cnt := 0

/-- The switch sampler after reset; reset does not sample the switches (R287). -/
def Switches.reset (p : Params) : Switches where
  sync1 := Levels.none
  sync2 := Levels.none
  deb1 := Debounce.reset
  deb2 := Debounce.reset
  debounceMs := BitVec.ofNat 32 p.defaultDebounceMs
  estopLatched := false

/-- The LED controller after reset: DIRECT, off, every binary32 register +0.0. -/
def Led.reset (p : Params) : Led where
  mode := .direct
  on := false
  duty := 0
  target := 0
  p := 0
  i := 0
  d := 0
  win := List.replicate p.pidWindow 0
  idx := 0
  prev := 0
  tickCnt := 0
  pwmCnt := 0

/-- The ring buffer after reset (40_ringbuffer.md R109): empty. RB_MEM is unspecified there; log 3. -/
def RingBuf.reset : RingBuf where
  mem := []
  head := 0
  tail := 0
  full := false

/-- The reply path after reset. REPLY_BUF is unspecified there; log 3. -/
def Reply.reset : Reply where
  buf := []
  valid := false
  txIdx := 0
  heartbeat := false

/-- `S_reset` (R285) of a block with these parameters, before the host's inputs of these cycles. -/
def State.resetWith (p : Params) (inputs : List Input) (cycle : Nat) : State where
  cfg := p
  motor := Motor.reset p
  sw := Switches.reset p
  led := Led.reset p
  rb := RingBuf.reset
  reply := Reply.reset
  inputs := inputs
  cycle := cycle

/-- The machine right after reset: `S_reset` with the vector parameters of R6 (log 2) and no input listed, so that
every coming input is free (log 1). -/
def State.reset : State := State.resetWith Params.vector [] 0

end Sys2Proof.Machine
end

