-- ==== Sys2Proof/Machine/Flags.lean ====
section
/-! DEFINITION. The computed status: `running`, the status byte of a reply, the result codes, and the encodings of
the enumerated registers. -/

namespace Sys2Proof.Machine

/-- The 3-bit encoding of `M_STATE` (10_state.md R24). -/
def MState.code : MState → BitVec 3
  | .idle => 0
  | .setup => 1
  | .stepRising => 2
  | .stepHighHold => 3
  | .stepFalling => 4
  | .stepLowHold => 5
  | .estop => 6
  | .exit => 7

/-- The 2-bit encoding of `DONE_CODE` (60_exceptions.md R263). -/
def DoneCode.code : DoneCode → BitVec 2
  | .ok => 0
  | .limit => 1
  | .stopped => 2
  | .estop => 3

/-- The 3-bit encoding of a step size (30_encoding.md R87). -/
def sizeCode : StepSize → BitVec 3
  | .full => 0
  | .half => 1
  | .quarter => 2
  | .eighth => 3
  | .sixteenth => 4

/-- A motion state (43_motor_sequencer.md R166). -/
def MState.isMotion : MState → Bool
  | .idle => false
  | .setup => true
  | .stepRising => true
  | .stepHighHold => true
  | .stepFalling => true
  | .stepLowHold => true
  | .estop => false
  | .exit => false

/-- A rest state: IDLE or ESTOP (R166). -/
def MState.isRest : MState → Bool
  | .idle => true
  | .setup => false
  | .stepRising => false
  | .stepHighHold => false
  | .stepFalling => false
  | .stepLowHold => false
  | .estop => true
  | .exit => false

/-- `running` (R166). -/
def running (m : Motor) : Bool := m.mState.isMotion

/-- The status byte (10_state.md R22, R91): bit 0 limit-1, bit 1 limit-2, bit 2 e-stop latched, bit 3 motor running,
bit 4 LED on, bits 7 to 5 zero. -/
def statusByte (ledOn isRunning latched lim2 lim1 : Bool) : Byte :=
  0#3 ++ BitVec.ofBool ledOn ++ BitVec.ofBool isRunning ++ BitVec.ofBool latched ++ BitVec.ofBool lim2 ++
    BitVec.ofBool lim1

/-- `status(S)` (R22). -/
def status (s : State) : Byte :=
  statusByte s.led.on (running s.motor) s.sw.estopLatched s.sw.sync2.lim2 s.sw.sync2.lim1

/-- The result codes of a reply (60_exceptions.md R260). -/
inductive Result where
  | success | busy | invalidSize | blocked | invalidArg | unknown
  deriving DecidableEq, Repr

/-- The number a result code has in the reply's `arg` field (R260). -/
def Result.code : Result → Word
  | .success => 0
  | .busy => 1
  | .invalidSize => 2
  | .blocked => 3
  | .invalidArg => 4
  | .unknown => 0xFFFFFFFF

end Sys2Proof.Machine
end

