-- ==== Sys2Proof/Machine/Float32.lean ====
section
/-! DEFINITION. The binary32 operations of 00_scope.md R15 on 32-bit patterns: add, sub and mul, each rounded to
nearest, ties to even, subnormals kept; the comparisons, false on a NaN; the exact conversion of small integers.
A finite value is counted exactly in units of 2^-149, the smallest subnormal. The sign and fraction of a NaN result
are free (log 5). -/

namespace Sys2Proof.Machine

/-- The sign bit. -/
def F32.sign (a : Word) : Bool := a.getLsbD 31

/-- The magnitude: the pattern without its sign bit. -/
def F32.mag (a : Word) : Nat := a.toNat % 2 ^ 31

/-- The exponent field. -/
def F32.expo (a : Word) : Nat := F32.mag a / 2 ^ 23

/-- The fraction field. -/
def F32.frac (a : Word) : Nat := F32.mag a % 2 ^ 23

/-- The magnitude of +infinity. -/
def F32.infMag : Nat := 0x7F800000

/-- A NaN: exponent all ones, fraction not zero. -/
def F32.isNaN (a : Word) : Bool := decide (F32.infMag < F32.mag a)

/-- An infinity. -/
def F32.isInf (a : Word) : Bool := decide (F32.mag a = F32.infMag)

/-- A finite value. -/
def F32.isFinite (a : Word) : Bool := decide (F32.mag a < F32.infMag)

/-- +0.0 -/
def F32.posZero : Word := 0x00000000#32

/-- -0.0 -/
def F32.negZero : Word := 0x80000000#32

/-- 1.0 -/
def F32.one : Word := 0x3F800000#32

/-- The pattern of a sign and a magnitude. -/
def F32.pack (neg : Bool) (mag : Nat) : Word := BitVec.ofNat 32 ((if neg then 2 ^ 31 else 0) + mag)

/-- The value with the other sign. -/
def F32.neg (a : Word) : Word := a ^^^ 0x80000000#32

/-- The magnitude of a finite value in units of 2^-149. -/
def F32.units (a : Word) : Nat :=
  if F32.expo a = 0 then F32.frac a else (2 ^ 23 + F32.frac a) * 2 ^ (F32.expo a - 1)

/-- A finite value in units of 2^-149. -/
def F32.value (a : Word) : Int := if F32.sign a then -(F32.units a : Int) else F32.units a

/-- A NaN with free sign and fraction (log 5). -/
def F32.nan (op : FloatOp) (a b : Word) : Word :=
  let f := Config.nanFraction op a b
  F32.pack (Config.nanSign op a b) (F32.infMag + (if f = 0 then 2 ^ 22 else f.toNat))

/-- The number of bits of `m`. -/
def bitLength (m : Nat) : Nat := if m = 0 then 0 else Nat.log2 m + 1

/-- `m / 2^n` rounded to nearest, ties to even. -/
def roundShift (m n : Nat) : Nat :=
  let q := m / 2 ^ n
  let r := m % 2 ^ n
  if 2 * r < 2 ^ n then q
  else if 2 ^ n < 2 * r then q + 1
  else q + q % 2

/-- The magnitude nearest to `m` units of 2^-(149 + drop), ties to even; infinity past the largest finite value. The
significand keeps 24 bits, or fewer where the value is subnormal. -/
def F32.roundMag (m drop : Nat) : Nat :=
  let n := max drop (bitLength m - 24)
  min F32.infMag ((n - drop) * 2 ^ 23 + roundShift m n)

/-- Binary32 addition. -/
def F32.add (a b : Word) : Word :=
  if F32.isNaN a || F32.isNaN b then F32.nan .add a b
  else if F32.isInf a then (if F32.isInf b && (F32.sign a != F32.sign b) then F32.nan .add a b else a)
  else if F32.isInf b then b
  else
    let z := F32.value a + F32.value b
    if z = 0 then (if F32.sign a && F32.sign b then F32.negZero else F32.posZero)
    else F32.pack (decide (z < 0)) (F32.roundMag z.natAbs 0)

/-- Binary32 subtraction: the sum with the second operand's sign changed; its NaNs are free on their own. -/
def F32.sub (a b : Word) : Word :=
  let r := F32.add a (F32.neg b)
  if F32.isNaN r then F32.nan .sub a b else r

/-- Binary32 multiplication. -/
def F32.mul (a b : Word) : Word :=
  if F32.isNaN a || F32.isNaN b then F32.nan .mul a b
  else
    let s := F32.sign a != F32.sign b
    if F32.isInf a || F32.isInf b then
      (if F32.mag a = 0 || F32.mag b = 0 then F32.nan .mul a b else F32.pack s F32.infMag)
    else F32.pack s (F32.roundMag (F32.units a * F32.units b) 149)

/-- A number that orders the patterns that are no NaN as their values; both zeros give 0. -/
def F32.key (a : Word) : Int := if F32.sign a then -(F32.mag a : Int) else F32.mag a

/-- `a < b`, false when either is a NaN. -/
def F32.lt (a b : Word) : Bool := !F32.isNaN a && !F32.isNaN b && decide (F32.key a < F32.key b)

/-- `a > b`, false when either is a NaN. -/
def F32.gt (a b : Word) : Bool := F32.lt b a

/-- `float32(n)`, exact for `n < 2^24` (R15). -/
def F32.ofNat (n : Nat) : Word := F32.pack false (F32.roundMag (n * 2 ^ 149) 0)

/-- `clamp01` (45_led_pid.md R237). -/
def clamp01 (x : Word) : Word :=
  if F32.isNaN x then F32.posZero
  else if F32.lt x F32.posZero then F32.posZero
  else if F32.gt x F32.one then F32.one
  else if x = F32.negZero then F32.posZero
  else x

/-- `floor(duty * period)` for a finite `duty` of sign 0, the product exact over the reals (R246). -/
def dutyFloor (duty : Word) (period : Nat) : Nat := F32.units duty * period / 2 ^ 149

end Sys2Proof.Machine
end

