-- ==== Sys2Proof/Machine/Ops.lean ====
section
/-! DEFINITION. The named operations over the on-block memories, the ring buffer and the motor's request record, and
the block's counterpart of taking an exception and returning from one: `takeEstop`, `returnFromEstop`, `exitAction`. -/

namespace Sys2Proof.Machine

/-! ## On-block memories (00_scope.md R14, 10_state.md R43) -/

/-- The byte at an index. -/
def Memory.read : Memory → Nat → Byte
  | [], _ => Memory.unlisted
  | (a, b) :: rest, i => if a = i then b else Memory.read rest i

/-- Put an entry in front, unless it says what an unlisted index reads as. -/
def Memory.cons (i : Nat) (v : Byte) (m : Memory) : Memory := if v = Memory.unlisted then m else (i, v) :: m

/-- Write the byte at an index, keeping the canonical form. -/
def Memory.write : Memory → Nat → Byte → Memory
  | [], i, v => Memory.cons i v []
  | (a, b) :: rest, i, v =>
    if a < i then (a, b) :: Memory.write rest i v
    else if a = i then Memory.cons i v rest
    else Memory.cons i v ((a, b) :: rest)

/-- `MemRead(addr, n)` (R14): `n` consecutive bytes. -/
def Memory.readBytes (m : Memory) (i : Nat) : Nat → List Byte
  | 0 => []
  | n + 1 => Memory.read m i :: Memory.readBytes m (i + 1) n

/-- `MemWrite(addr, n, v)` (R14): consecutive bytes. -/
def Memory.writeBytes (m : Memory) (i : Nat) : List Byte → Memory
  | [] => m
  | v :: vs => Memory.writeBytes (Memory.write m i v) (i + 1) vs

/-- The indices rise strictly from above `lo` (exclusive bound given as the least index allowed), stay below `size`,
and no entry says what an unlisted index reads as. -/
def Memory.wfFrom (size : Nat) : Nat → Memory → Bool
  | _, [] => true
  | lo, (a, b) :: rest =>
    decide (lo ≤ a) && decide (a < size) && decide (b ≠ Memory.unlisted) && Memory.wfFrom size (a + 1) rest

/-- The canonical form of a memory of `size` bytes. -/
def Memory.wf (size : Nat) (m : Memory) : Bool := Memory.wfFrom size 0 m

/-! ## The ring buffer (40_ringbuffer.md); `cap` is `RB_CAP` -/

/-- `size(B)` (R100). -/
def RingBuf.size (cap : Nat) (B : RingBuf) : Nat := if B.full then cap else (B.head + cap - B.tail) % cap

/-- `capacity(B)` (R101). -/
def RingBuf.capacity (cap : Nat) (_ : RingBuf) : Nat := cap

/-- `is_empty(B)` (R101). -/
def RingBuf.isEmpty (cap : Nat) (B : RingBuf) : Bool := decide (RingBuf.size cap B = 0)

/-- `is_full(B)` (R101). -/
def RingBuf.isFull (B : RingBuf) : Bool := B.full

/-- `try_put(B, b)` (R102). -/
def RingBuf.tryPut (cap : Nat) (B : RingBuf) (b : Byte) : RingBuf × Bool :=
  if B.full then (B, false)
  else
    let head' := (B.head + 1) % cap
    ({ mem := B.mem.write B.head b, head := head', tail := B.tail, full := decide (head' = B.tail) }, true)

/-- `put(B, b)` (R103): overwrites the oldest byte of a full buffer. -/
def RingBuf.put (cap : Nat) (B : RingBuf) (b : Byte) : RingBuf :=
  if B.full then
    { mem := B.mem.write B.head b, head := (B.head + 1) % cap, tail := (B.tail + 1) % cap, full := true }
  else (RingBuf.tryPut cap B b).1

/-- `get(B)` (R104). -/
def RingBuf.get (cap : Nat) (B : RingBuf) : RingBuf × Option Byte :=
  if RingBuf.size cap B = 0 then (B, none)
  else ({ B with tail := (B.tail + 1) % cap, full := false }, some (B.mem.read B.tail))

/-- `get_n(B, n)` (R105): `n` calls of `get`, ending early on an empty buffer; the bytes oldest first. -/
def RingBuf.getN (cap : Nat) (B : RingBuf) : Nat → RingBuf × List Byte
  | 0 => (B, [])
  | n + 1 =>
    match RingBuf.get cap B with
    | (B', some b) => let (B'', bs) := RingBuf.getN cap B' n; (B'', b :: bs)
    | (B', none) => (B', [])

/-- `RBPeek(k)` (R106): the k-th oldest byte. -/
def RingBuf.peekAt (cap : Nat) (B : RingBuf) (k : Nat) : Byte := B.mem.read ((B.tail + k) % cap)

/-- The `n` oldest bytes. -/
def RingBuf.oldest (cap : Nat) (B : RingBuf) (n : Nat) : List Byte :=
  (List.range n).map (fun k => RingBuf.peekAt cap B k)

/-- `peek(B, n)` (R106): fails if `n > size`. -/
def RingBuf.peek (cap : Nat) (B : RingBuf) (n : Nat) : Option (List Byte) :=
  if RingBuf.size cap B < n then none else some (RingBuf.oldest cap B n)

/-- Every byte in the buffer, oldest first. -/
def RingBuf.contents (cap : Nat) (B : RingBuf) : List Byte := RingBuf.oldest cap B (RingBuf.size cap B)

/-- The receive path's put (R107): `put` when `RB_OVERWRITE`, else `try_put`. -/
def RingBuf.receive (p : Params) (B : RingBuf) (b : Byte) : RingBuf :=
  if p.rbOverwrite then RingBuf.put p.rbCap B b else (RingBuf.tryPut p.rbCap B b).1

/-- Put bytes one after another, as the receive path does. -/
def RingBuf.receiveAll (p : Params) (B : RingBuf) : List Byte → RingBuf
  | [] => B
  | b :: bs => RingBuf.receiveAll p (RingBuf.receive p B b) bs

/-- The cycle's update (R108): the parser's removal first, then the receive path's put. -/
def RingBuf.cycle (p : Params) (B : RingBuf) (removed : Nat) (i : Input) : RingBuf :=
  let B1 := (RingBuf.getN p.rbCap B removed).1
  if i.rxValid then RingBuf.receive p B1 i.rxByte else B1

/-! ## The request record (43_motor_sequencer.md R168) -/

/-- `Clear()`. -/
def Motor.clear (m : Motor) : Motor :=
  { m with mState := .idle, reqSize := .full, reqCount := 0, reqDir := false, reqIgn := false, stepR := false,
           tickCnt := 0 }

/-- `Load(size, count, dir, ign)`. -/
def Motor.load (m : Motor) (size : StepSize) (count : Word) (dir ign : Bool) : Motor :=
  { m with reqSize := size, reqCount := count, reqDir := dir, reqIgn := ign, mState := .setup, tickCnt := 0 }

/-- A motor state in progress, with the completion code `ev` of this cycle, if any (R168). -/
abbrev MotorEv := Motor × Option DoneCode

/-! ## Taking and leaving the fault state -/

/-- TAKING THE EXCEPTION (R175, 60_exceptions.md R270): the request is cleared, the step pin drops, the state becomes
ESTOP, with DONE_ESTOP if a motion was running. Nothing is saved; there is no vector. POSITION, DIR_R, MS_R and the
configuration registers keep their values. -/
def takeEstop (m : Motor) : MotorEv :=
  ({ m.clear with mState := .estop }, if running m then some .estop else none)

/-- RETURNING FROM IT (R175 branch B, R271): the state goes to IDLE. Nothing is restored and nothing resumes. -/
def returnFromEstop (m : Motor) : MotorEv := ({ m with mState := .idle }, none)

/-- `ExitAction()` (R172, R178): the limit abort through the transient EXIT. `s` is the motor at the start of the
cycle, `m` as the cycle's command left it, whose step-off configuration is the one used. -/
def exitAction (s m : Motor) : MotorEv :=
  let cleared := m.clear
  (if m.soCount = 0 then cleared else cleared.load m.soSize m.soCount (!s.reqDir) true, some .limit)

/-! ## The cycle's inputs -/

/-- The inputs of the current cycle: the first listed ones, or free ones (log 1). -/
def State.input (s : State) : Input :=
  match s.inputs with
  | [] => Config.hostInput s.cycle
  | i :: _ => i

/-- `adc_sample`: the low `ADC_BITS` bits of the port (R8; log 13). -/
def adcCode (p : Params) (i : Input) : Nat := i.adcSample.toNat % 2 ^ p.adcBits

end Sys2Proof.Machine
end

