-- ==== Sys2Proof/Machine/MotorStep.lean ====
section
/-! DEFINITION. The motor sub-step (43_motor_sequencer.md R165 to R178), without the commands: the three branches of
R168, the tick (R167), the tick actions (R169 to R176), the limit override (R177), the completion event (R263), and
`StepCheck` (R179). A command's own part is in Machine/Motor.lean. -/

namespace Sys2Proof.Machine

/-- What the motor sub-step reads (R168): the parameters, the motor at the start of the cycle (`S`), the latch
already computed in the cycle (`S'.ESTOP_LATCHED`), the synchronised limit levels and the confirmations. -/
structure MotorCtx where
  cfg : Params
  m : Motor
  latched : Bool
  lim1 : Bool
  lim2 : Bool
  confirm1 : Bool
  confirm2 : Bool
  deriving DecidableEq, Repr

/-- The branches of R168: A while the latch is set, B in the cycle it clears, C otherwise. -/
inductive MotorBranch where
  | latched | leaving | normal
  deriving DecidableEq, Repr

/-- The branch of the cycle (R168). -/
def motorBranch (c : MotorCtx) : MotorBranch :=
  if c.latched then .latched else if c.m.mState = .estop then .leaving else .normal

/-- Branches A and B without a command (R168, R175); branch C changes nothing here. -/
def motorEntry (c : MotorCtx) : MotorEv :=
  match motorBranch c with
  | .latched => if c.m.mState = .estop then (c.m, none) else takeEstop c.m
  | .leaving => returnFromEstop c.m
  | .normal => (c.m, none)

/-- `tick(S)` (R167). -/
def motorTickNow (m : Motor) : Bool := running m && decide (m.tickCnt = m.tickDiv - 1)

/-- The signed step distance added at a rising edge, modulo 2^32 (R170). -/
def stepDelta (p : Params) (size : StepSize) (dir : Bool) : Word :=
  if dir then -(BitVec.ofNat 32 (stepDist p size)) else BitVec.ofNat 32 (stepDist p size)

/-- `TickAction(S.M_STATE)` (R169 to R176): `s` is the motor at the start of the cycle, `m` as the cycle has left it so
far. -/
def tickAction (p : Params) (s m : Motor) : MotorEv :=
  match s.mState with
  | .idle => (m, none)
  | .setup =>
    ({ m with dirR := s.reqDir, msR := msTable p s.reqSize, stepR := false, mState := .stepRising }, none)
  | .stepRising =>
    if s.reqCount = 0 then (m.clear, some .ok)
    else
      ({ m with stepR := true, position := m.position + stepDelta p s.reqSize s.reqDir, mState := .stepHighHold },
        none)
  | .stepHighHold => ({ m with mState := .stepFalling }, none)
  | .stepFalling => ({ m with stepR := false, reqCount := s.reqCount - 1, mState := .stepLowHold }, none)
  | .stepLowHold => ({ m with mState := .stepRising }, none)
  | .estop => (m, none)
  | .exit => (m, none)

/-- A debounce confirmation fired for either limit (R177). -/
def confirmed (c : MotorCtx) : Bool := c.confirm1 || c.confirm2

/-- Either limit is active (R177). -/
def limitActive (c : MotorCtx) : Bool := c.lim1 || c.lim2

/-- The tick processing of a running motion in branch C (R168, R177). -/
def tickProcess (c : MotorCtx) (m : Motor) : MotorEv :=
  if motorTickNow c.m then
    let m0 := { m with tickCnt := 0 }
    if (limitActive c || confirmed c) && !c.m.reqIgn then exitAction c.m m0 else tickAction c.cfg c.m m0
  else if confirmed c && !c.m.reqIgn then exitAction c.m m
  else ({ m with tickCnt := c.m.tickCnt + 1 }, none)

/-- Tick processing, taken in branch C only and only while a motion runs (R168). -/
def motorTick (c : MotorCtx) (p : MotorEv) : MotorEv :=
  if motorBranch c = .normal ∧ running c.m = true then tickProcess c p.1 else p

/-- The completion event (R168, R263): one pulse, and the code of the latest completion. -/
def motorDone (p : MotorEv) : Motor :=
  { p.1 with doneValid := p.2.isSome, doneCode := p.2.getD p.1.doneCode }

/-- The motor sub-step of a cycle whose command, if any, does not concern the motor. -/
def motorFree (c : MotorCtx) : Motor := motorDone (motorTick c (motorEntry c))

/-- The motor sub-step of a cycle whose command writes motor registers before the tick processing: the
configuration commands of R168, which act in every branch. -/
def motorConfig (c : MotorCtx) (f : Motor → Motor) : Motor :=
  motorDone (motorTick c (f (motorEntry c).1, (motorEntry c).2))

/-- `StepCheck(cmd)` (R179): the first failing check gives the result. -/
def stepCheck (c : MotorCtx) (size : BitVec 4) (ign : Bool) : Result :=
  if running c.m then .busy
  else if !selectorValid size then .invalidSize
  else if c.latched then .blocked
  else if limitActive c && !ign then .blocked
  else .success

/-- The motor sub-step of a motion command (R168, R180, R181): in branch C, on SUCCESS, the request is loaded and no
tick is taken; otherwise the motor does what it does without a command. `req` gives the count and the direction for
the step size. -/
def motorStart (c : MotorCtx) (size : BitVec 4) (ign : Bool) (req : StepSize → Word × Bool) : Motor :=
  match motorBranch c, stepCheck c size ign, stepSizeOf size with
  | .normal, .success, some sz => motorDone (c.m.load sz (req sz).1 (req sz).2 ign, none)
  | _, _, _ => motorFree c

end Sys2Proof.Machine
end

