-- ==== Sys2Proof/Machine/Consistent.lean ====
section
/-! DEFINITION. The invariants that hold in every state reachable from reset (10_state.md R45), with the ranges the
register catalogue gives each element (R23). `step` faults in a state that breaks one (93 S4; log 6). -/

namespace Sys2Proof.Machine

/-- M_STATE is not 7, `TICK_DIV >= MIN_TICK_DIV`, and at rest the request is clear, STEP low and TICK_CNT 0 (R45). The
enumerated types say that `REQ_SIZE` and `SO_SIZE` are 0 to 4. -/
def Motor.consistent (p : Params) (m : Motor) : Bool :=
  decide (m.mState ≠ .exit) && decide (p.minTickDiv ≤ m.tickDiv.toNat) &&
  (!m.mState.isRest ||
    (decide (m.reqSize = .full) && decide (m.reqCount = 0) && !m.reqDir && !m.reqIgn && !m.stepR &&
      decide (m.tickCnt = 0)))

/-- `ESTOP_LATCHED` is 1 exactly when `M_STATE` is ESTOP (R45, R175). -/
def latchConsistent (s : State) : Bool := s.sw.estopLatched == decide (s.motor.mState = .estop)

/-- The duty lies in [+0.0, 1.0] and is neither -0.0 nor a NaN (R36, R45). -/
def dutyInRange (d : Word) : Bool :=
  !F32.isNaN d && !F32.lt d F32.posZero && !F32.gt d F32.one && decide (d ≠ F32.negZero)

/-- The LED registers: W entries in the window, `LED_IDX < W`, the duty in range, `PWM_CNT < PWM_PERIOD` (R23, R45). -/
def Led.consistent (p : Params) (l : Led) : Bool :=
  decide (l.win.length = p.pidWindow) && decide (l.idx < p.pidWindow) && dutyInRange l.duty &&
  decide (l.pwmCnt < p.pwmPeriod)

/-- The ring buffer: both indices below `RB_CAP`, and equal when `RB_FULL` (R23, R45); its memory in canonical form. -/
def RingBuf.consistent (p : Params) (B : RingBuf) : Bool :=
  decide (B.head < p.rbCap) && decide (B.tail < p.rbCap) && (!B.full || decide (B.head = B.tail)) &&
  Memory.wf p.rbCap B.mem

/-- The reply path: `TX_IDX` at most 11, and 0 while no reply is pending (R23, R45); its memory in canonical form. -/
def Reply.consistent (r : Reply) : Bool :=
  decide (r.txIdx ≤ 11) && (r.valid || decide (r.txIdx = 0)) && Memory.wf 12 r.buf

/-- Every invariant of R45 holds. -/
def State.consistent (s : State) : Bool :=
  s.motor.consistent s.cfg && latchConsistent s && s.led.consistent s.cfg && s.rb.consistent s.cfg &&
  s.reply.consistent

end Sys2Proof.Machine
end

