-- ==== Sys2Proof/Machine/LedStep.lean ====
section
/-! DEFINITION. The LED sub-step without a command (45_led_pid.md): the sample tick (R238), the PID step (R239, R244)
and the PWM counter (R246). -/

namespace Sys2Proof.Machine

/-- `tick_led(S)` (R238). -/
def ledTickNow (p : Params) (l : Led) : Bool :=
  decide (l.mode = .closed) && decide (l.tickCnt.toNat = p.ledTickDiv - 1)

/-- The sensor sample in volts (R244). -/
def sampleVolts (p : Params) (i : Input) : Word := F32.mul (F32.ofNat (adcCode p i)) p.adcLsbVolts

/-- The window summed from +0.0 in index order (R239). -/
def windowSum (win : List Word) : Word := win.foldl F32.add F32.posZero

/-- The controller's output before the clamp (R239): the three terms added left to right. -/
def pidOutput (l : Led) (e integ deriv : Word) : Word :=
  F32.add (F32.add (F32.mul l.p e) (F32.mul l.i integ)) (F32.mul l.d deriv)

/-- `LedTick(S, adc_sample)` (R239). -/
def ledTick (p : Params) (i : Input) (l : Led) : Led :=
  let e := F32.sub l.target (sampleVolts p i)
  let win := l.win.set l.idx e
  let integ := windowSum win
  let deriv := F32.sub e l.prev
  { l with win := win, idx := (l.idx + 1) % p.pidWindow, duty := clamp01 (pidOutput l e integ deriv), prev := e }

/-- The tick divider (R238) and, when it fires, the PID step. -/
def ledSample (p : Params) (i : Input) (l : Led) : Led :=
  match l.mode with
  | .direct => l
  | .closed => if ledTickNow p l then { ledTick p i l with tickCnt := 0 } else { l with tickCnt := l.tickCnt + 1 }

/-- The LED sub-step of a cycle with no LED command (R247 items 1 and 2): the tick, then the PWM counter (R246). -/
def ledFree (p : Params) (i : Input) (l : Led) : Led :=
  { ledSample p i l with pwmCnt := (l.pwmCnt + 1) % p.pwmPeriod }

/-- `led_pwm` (R246). -/
def ledPwmOut (p : Params) (l : Led) : Bool := l.on && decide (l.pwmCnt < dutyFloor l.duty p.pwmPeriod)

end Sys2Proof.Machine
end

