-- ==== Sys2Proof/Machine/Parser.lean ====
section
/-! DEFINITION. The frame path (42_frame_protocol.md): the parser (R136), the reply formatter (R144) and the
transmitter (R150). -/

namespace Sys2Proof.Machine

/-- `ParserStep(S)` (R136): how many bytes are removed, and the command accepted, if any. -/
def parserStep (s : State) : Nat × Option Command :=
  let cap := s.cfg.rbCap
  let n := RingBuf.size cap s.rb
  if n = 0 then (0, none)
  else if RingBuf.peekAt cap s.rb 0 ≠ 0xDE#8 then (1, none)
  else if n < 2 then (0, none)
  else if RingBuf.peekAt cap s.rb 1 ≠ 0xAD#8 then (1, none)
  else if n < 12 then (0, none)
  else
    let F := RingBuf.oldest cap s.rb 12
    if !stopOk F then (1, none)
    else if !validate s.cfg.crc8PolyR F then (1, none)
    else if s.reply.valid then (0, none)
    else (12, some (decodeFields F))

/-- The transmitter (R150, R151). -/
def txStep (i : Input) (r : Reply) : Reply :=
  if r.valid && i.txReady then
    (if r.txIdx = 11 then { r with valid := false, txIdx := 0, heartbeat := !r.heartbeat }
     else { r with txIdx := r.txIdx + 1 })
  else r

/-- The reply frame (R144): the opcode echoed, the result value, the status byte, the checksum. -/
def replyFrame (p : Params) (op : Half) (res : Word) (status : Byte) : List Byte :=
  buildFrame p.crc8PolyR op res status

/-- The status byte of the reply to the command of this cycle (R144): the LED, running and latch bits from the next
state, the limit bits from the levels the cycle itself used. -/
def replyStatus (s s' : State) : Byte :=
  statusByte s'.led.on (running s'.motor) s'.sw.estopLatched s.sw.sync2.lim2 s.sw.sync2.lim1

/-- The reply formatter (R144): the reply slot is written and offered from its first byte. -/
def formatReply (s s' : State) (op : Half) (res : Word) : State :=
  { s' with reply := { s'.reply with
      buf := s'.reply.buf.writeBytes 0 (replyFrame s.cfg op res (replyStatus s s')), valid := true, txIdx := 0 } }

end Sys2Proof.Machine
end

