-- ==== Sys2Proof/Machine/SwitchStep.lean ====
section
/-! DEFINITION. The switch sampler's sub-steps (44_switch_monitor.md): the synchroniser (R215), the e-stop latch
(R217) and the debounce timers (R219). -/

namespace Sys2Proof.Machine

/-- The active levels of the pins, polarity corrected (R215). -/
def pinLevels (p : Params) (i : Input) : Levels where
  lim1 := i.lim1Pin ^^ p.lim1ActiveLow
  lim2 := i.lim2Pin ^^ p.lim2ActiveLow
  est := i.estopPin ^^ p.estopActiveLow

/-- `ESTOP_LATCHED` of the next state (R217): the input, or EMERGENCY_STOP (`set`), or the latch kept unless the
command is EMERGENCY_CLEAR (`clear`). -/
def latchNext (est set clear latched : Bool) : Bool := est || set || (latched && !clear)

/-- One debounce timer's cycle (R219): the timer and its confirmation. -/
def debounceStep (lvl : Bool) (period : DWord) (d : Debounce) : Debounce × Bool :=
  let edge := lvl != d.prev
  let fire := d.armed && decide (d.cnt = 0)
  let armed1 := d.armed && !fire
  let cnt1 := if armed1 then d.cnt - 1 else d.cnt
  let arm := !armed1 && edge
  ({ prev := lvl, armed := armed1 || arm, cnt := if arm then period else cnt1 }, fire && lvl)

/-- Timer 1's cycle: it reads `S.SYNC2` and `S.DEBOUNCE_MS` (R219, R227). -/
def debounce1 (s : State) : Debounce × Bool :=
  debounceStep s.sw.sync2.lim1 (debouncePeriod s.cfg s.sw.debounceMs) s.sw.deb1

/-- Timer 2's cycle. -/
def debounce2 (s : State) : Debounce × Bool :=
  debounceStep s.sw.sync2.lim2 (debouncePeriod s.cfg s.sw.debounceMs) s.sw.deb2

/-- The switch sampler's registers after sub-steps 1, 4 and 5 without a command's write of DEBOUNCE_MS. -/
def switchesNext (s : State) (set clear : Bool) : Switches where
  sync1 := pinLevels s.cfg s.input
  sync2 := s.sw.sync1
  deb1 := (debounce1 s).1
  deb2 := (debounce2 s).1
  debounceMs := s.sw.debounceMs
  estopLatched := latchNext s.sw.sync2.est set clear s.sw.estopLatched

end Sys2Proof.Machine
end

