-- ==== Sys2Proof/Machine/Cycle.lean ====
section
/-! DEFINITION. The cycle with `rst = 0` (70_reset_and_hazards.md R288): the fixed order of the nine sub-steps, with
a command's part in each given by a `Handler`. -/

namespace Sys2Proof.Machine

/-- A command's part in the sub-steps of its dispatch cycle (42_frame_protocol.md R143). -/
structure Handler where
  /-- Sub-step 4: the command is EMERGENCY_STOP (R217). -/
  set : Bool
  /-- Sub-step 4: the command is EMERGENCY_CLEAR (R217). -/
  clear : Bool
  /-- Sub-step 5: the command's write of the switch registers. -/
  switches : Switches → Switches
  /-- Sub-step 6: the motor sub-step. -/
  motor : MotorCtx → Motor
  /-- Sub-step 7: the command's writes, after the tick's (R247). -/
  led : Led → Led
  /-- The result value of the reply (R145). -/
  res : MotorCtx → Word

/-- No part in any sub-step: a cycle with no command, and IDLE (R148) with its result SUCCESS. -/
def Handler.quiet : Handler where
  set := false
  clear := false
  switches := fun sw => sw
  motor := motorFree
  led := fun l => l
  res := fun _ => Result.success.code

/-- What the motor sub-step reads in this cycle (R168), the latch already computed (R217). -/
def motorCtx (s : State) (h : Handler) : MotorCtx where
  cfg := s.cfg
  m := s.motor
  latched := latchNext s.sw.sync2.est h.set h.clear s.sw.estopLatched
  lim1 := s.sw.sync2.lim1
  lim2 := s.sw.sync2.lim2
  confirm1 := (debounce1 s).2
  confirm2 := (debounce2 s).2

/-- Sub-steps 1 to 8 of a cycle with `rst = 0` (R288): `removed` is the parser's count. The sub-blocks write disjoint
registers and read `S`, so each is computed from `s`. The model's own fields move on: the input used is dropped. -/
def cycleStep (s : State) (removed : Nat) (h : Handler) : State where
  cfg := s.cfg
  motor := h.motor (motorCtx s h)
  sw := h.switches (switchesNext s h.set h.clear)
  led := h.led (ledFree s.cfg s.input s.led)
  rb := RingBuf.cycle s.cfg s.rb removed s.input
  reply := txStep s.input s.reply
  inputs := s.inputs.tail
  cycle := s.cycle + 1

/-- The cycle with no command dispatched. -/
def quietCycle (s : State) (removed : Nat) : State := cycleStep s removed Handler.quiet

/-- The dispatch cycle of a command: the twelve bytes of its frame are removed (R141), its parts are taken, and
sub-step 9 writes the reply (R144). -/
def dispatchCycle (s : State) (op : Half) (h : Handler) : State :=
  formatReply s (cycleStep s 12 h) op (h.res (motorCtx s h))

/-- A cycle with `rst = 1` (R285): the reset state, whatever the other inputs are. -/
def resetCycle (s : State) : State := State.resetWith s.cfg s.inputs.tail (s.cycle + 1)

end Sys2Proof.Machine
end

