-- ==== Sys2Proof/Machine/Led.lean ====
section
/-! DEFINITION. The three commands of the LED controller (45_led_pid.md R240 to R242). -/

namespace Sys2Proof.Machine

/-- LED_PWM's writes (R240). -/
def ledPwmWrite (duty : Word) (l : Led) : Led :=
  { l with mode := .direct, duty := clamp01 duty, on := decide (clamp01 duty ≠ F32.posZero), tickCnt := 0 }

/-- LED_PWM (R240). -/
def execLedPwm (duty : Word) (s : State) : Host.Outcome State Fault Refusal :=
  .next (dispatchCycle s 7 { Handler.quiet with led := ledPwmWrite duty, res := fun _ => Result.success.code })

/-- LED_VOLTAGE's writes (R241): the target, a cleared error history, CLOSED mode, the stage on. -/
def ledVoltageWrite (volts : Word) (l : Led) : Led :=
  { l with target := volts, win := l.win.map (fun _ => F32.posZero), idx := 0, prev := F32.posZero, mode := .closed,
           on := true, tickCnt := 0 }

/-- LED_VOLTAGE (R241). -/
def execLedVoltage (volts : Word) (s : State) : Host.Outcome State Fault Refusal :=
  .next (dispatchCycle s 8 { Handler.quiet with led := ledVoltageWrite volts, res := fun _ => Result.success.code })

/-- LED_PID's write (R242): one gain, or none for selector 3. -/
def ledPidWrite (value : Word) (sel : BitVec 2) (l : Led) : Led :=
  match sel.toNat with
  | 0 => { l with p := value }
  | 1 => { l with i := value }
  | 2 => { l with d := value }
  | _ => l

/-- The result of LED_PID (R242). -/
def ledPidCheck (sel : BitVec 2) : Result := if sel = 3 then .invalidArg else .success

/-- LED_PID (R242). -/
def execLedPid (value : Word) (sel : BitVec 2) (s : State) : Host.Outcome State Fault Refusal :=
  .next (dispatchCycle s 9 { Handler.quiet with led := ledPidWrite value sel, res := fun _ => (ledPidCheck sel).code })

end Sys2Proof.Machine
end

