-- ==== Sys2Proof/Machine/Motor.lean ====
section
/-! DEFINITION. The seven commands of the motor sub-step (43_motor_sequencer.md R180 to R187). -/

namespace Sys2Proof.Machine

/-- RELATIVE (R180). -/
def execRelative (count : Word) (size : BitVec 4) (dir ign : Bool) (s : State) : Host.Outcome State Fault Refusal :=
  .next (dispatchCycle s 1 { Handler.quiet with
    motor := fun c => motorStart c size ign (fun _ => (count, dir))
    res := fun c => (stepCheck c size ign).code })

/-- ABSOLUTE (R181): the count and the direction come from the exact difference to the position at the start of the
cycle. -/
def execAbsolute (target : Word) (size : BitVec 4) (ign : Bool) (s : State) : Host.Outcome State Fault Refusal :=
  .next (dispatchCycle s 2 { Handler.quiet with
    motor := fun c => motorStart c size ign (fun sz => absoluteMove target c.m.position (stepDist c.cfg sz))
    res := fun c => (stepCheck c size ign).code })

/-- The result of `Speed(hz)` (R182). -/
def speedCheck (c : MotorCtx) (hz : Word) : Result :=
  if running c.m then .busy
  else if u32 hz = 0 ∨ c.cfg.fClkHz / u32 hz < c.cfg.minTickDiv then .invalidArg
  else .success

/-- The period `F_CLK_HZ div hz` (R182). -/
def speedDiv (p : Params) (hz : Word) : Word := BitVec.ofNat 32 (p.fClkHz / u32 hz)

/-- SPEED's write (R182): none when the check fails. -/
def speedWrite (c : MotorCtx) (hz : Word) (m : Motor) : Motor :=
  if speedCheck c hz = .success then { m with tickDiv := speedDiv c.cfg hz } else m

/-- SPEED (R182). -/
def execSpeed (hz : Word) (s : State) : Host.Outcome State Fault Refusal :=
  .next (dispatchCycle s 3 { Handler.quiet with
    motor := fun c => motorConfig c (speedWrite c hz)
    res := fun c => (speedCheck c hz).code })

/-- The motor sub-step of STOP (R168, R183): in branch C a running motion is cleared with DONE_STOPPED, and no tick is
taken; in branches A and B it does nothing of its own. -/
def motorStop (c : MotorCtx) : Motor :=
  match motorBranch c with
  | .normal => motorDone (if running c.m then (c.m.clear, some .stopped) else (c.m, none))
  | .latched => motorDone (motorEntry c)
  | .leaving => motorDone (motorEntry c)

/-- STOP (R183). -/
def execStop (s : State) : Host.Outcome State Fault Refusal :=
  .next (dispatchCycle s 4 { Handler.quiet with
    motor := motorStop
    res := fun _ => Result.success.code })

/-- SET_POSITION's write (R184). -/
def positionWrite (pos : Word) (m : Motor) : Motor := { m with position := pos }

/-- SET_POSITION (R184): accepted in every state; a rising edge of the same cycle adds to the new value. -/
def execSetPosition (pos : Word) (s : State) : Host.Outcome State Fault Refusal :=
  .next (dispatchCycle s 5 { Handler.quiet with
    motor := fun c => motorConfig c (positionWrite pos)
    res := fun _ => Result.success.code })

/-- GET_POSITION (R185): the position at the start of the dispatch cycle. -/
def execGetPosition (s : State) : Host.Outcome State Fault Refusal :=
  .next (dispatchCycle s 6 { Handler.quiet with res := fun c => c.m.position })

/-- The result of `StepOff(cmd)` (R187). -/
def stepOffCheck (size : BitVec 4) : Result := if selectorValid size then .success else .invalidSize

/-- The write of `StepOff(cmd)` (R187): none when the selector names no size. -/
def stepOffWrite (count : Word) (size : BitVec 4) (m : Motor) : Motor :=
  match stepSizeOf size with
  | some sz => { m with soSize := sz, soCount := count }
  | none => m

/-- LIMIT_STEP_OFF (R187): accepted in every state; a limit abort of the same cycle uses the new configuration. -/
def execLimitStepOff (count : Word) (size : BitVec 4) (s : State) : Host.Outcome State Fault Refusal :=
  .next (dispatchCycle s 13 { Handler.quiet with
    motor := fun c => motorConfig c (stepOffWrite count size)
    res := fun _ => (stepOffCheck size).code })

end Sys2Proof.Machine
end

