-- ==== Sys2Proof/Machine/Protocol.lean ====
section
/-! DEFINITION. The protocol commands (42_frame_protocol.md §2): IDLE and the unknown-opcode handler. -/

namespace Sys2Proof.Machine

/-- IDLE (R148): replies SUCCESS, changes nothing else. -/
def execIdle (s : State) : Host.Outcome State Fault Refusal :=
  .next (dispatchCycle s 0 Handler.quiet)

/-- An unknown opcode (R93, R149): replies 0xFFFFFFFF with the opcode echoed, changes nothing else. It has no row in
the opcode table and so no constructor of `Instr`; `step` calls it (log 21). -/
def execUnknown (op : Half) (s : State) : Host.Outcome State Fault Refusal :=
  .next (dispatchCycle s op { Handler.quiet with res := fun _ => Result.unknown.code })

end Sys2Proof.Machine
end

