-- ==== Sys2Proof/Machine/Switch.lean ====
section
/-! DEFINITION. The three commands of the switch sampler (44_switch_monitor.md R220 to R222). -/

namespace Sys2Proof.Machine

/-- SWITCH_DEBOUNCE (R220): the new period is read from the next cycle on (R227). -/
def execSwitchDebounce (ms : Word) (s : State) : Host.Outcome State Fault Refusal :=
  .next (dispatchCycle s 10 { Handler.quiet with
    switches := fun sw => { sw with debounceMs := ms }
    res := fun _ => Result.success.code })

/-- EMERGENCY_STOP (R221): the latch sets, and the motor enters ESTOP in the same cycle (R175). -/
def execEmergencyStop (s : State) : Host.Outcome State Fault Refusal :=
  .next (dispatchCycle s 11 { Handler.quiet with set := true, res := fun _ => Result.success.code })

/-- EMERGENCY_CLEAR (R222): the latch clears unless the e-stop input is active, which is answered BLOCKED. -/
def execEmergencyClear (s : State) : Host.Outcome State Fault Refusal :=
  .next (dispatchCycle s 12 { Handler.quiet with
    clear := true
    res := fun c => if c.latched then Result.blocked.code else Result.success.code })

end Sys2Proof.Machine
end

