-- ==== Sys2Proof/Machine/Dispatch.lean ====
section
/-! DEFINITION. The dispatcher (42_frame_protocol.md R143): one arm for each row of the opcode table. `exec i s` is
the whole dispatch cycle of the command `i` with `rst = 0`, from the state `s` at its start. -/

namespace Sys2Proof.Machine

def exec (i : Instr) (s : State) : Host.Outcome State Fault Refusal :=
  match i with
  | .idle => Sys2Proof.Machine.execIdle s
  | .relative count size dir ign => Sys2Proof.Machine.execRelative count size dir ign s
  | .absolute target size ign => Sys2Proof.Machine.execAbsolute target size ign s
  | .speed hz => Sys2Proof.Machine.execSpeed hz s
  | .stop => Sys2Proof.Machine.execStop s
  | .setPosition pos => Sys2Proof.Machine.execSetPosition pos s
  | .getPosition => Sys2Proof.Machine.execGetPosition s
  | .ledPwm duty => Sys2Proof.Machine.execLedPwm duty s
  | .ledVoltage volts => Sys2Proof.Machine.execLedVoltage volts s
  | .ledPid value sel => Sys2Proof.Machine.execLedPid value sel s
  | .switchDebounce ms => Sys2Proof.Machine.execSwitchDebounce ms s
  | .emergencyStop => Sys2Proof.Machine.execEmergencyStop s
  | .emergencyClear => Sys2Proof.Machine.execEmergencyClear s
  | .limitStepOff count size => Sys2Proof.Machine.execLimitStepOff count size s

end Sys2Proof.Machine
end

