-- ==== Sys2Proof/Machine/Sequence.lean ====
section
/-! DEFINITION. The cycle of the whole block (70_reset_and_hazards.md R288), and the placing of a frame where the
parser looks next. -/

namespace Sys2Proof.Machine

/-- Parameters out of their legal range are refused: the block does not run with them (93 §3; log 8). -/
def whenLegal (s : State) (o : Host.Outcome State Fault Refusal) : Host.Outcome State Fault Refusal :=
  match s.cfg.legal with
  | false => .refused .illegalParameters
  | true => o

/-- A cycle with `rst = 0` (R288): M_STATE = 7 and an unreachable state are faults (93 U3, S4; log 6); otherwise the
parser decides (R136) whether a command is dispatched. -/
def runningCycle (s : State) : Host.Outcome State Fault Refusal :=
  if s.motor.mState = .exit then .fault .exitHeld
  else if s.consistent then
    match parserStep s with
    | (_, some (.known i)) => exec i s
    | (_, some (.unknown op)) => execUnknown op s
    | (r, none) => .next (quietCycle s r)
  else .fault .unreachableState

/-- One cycle (R288): `rst` comes before everything else that a legal block does (R268, R285). -/
def cycle (s : State) : Host.Outcome State Fault Refusal :=
  match s.input.rst with
  | true => whenLegal s (.next (resetCycle s))
  | false => whenLegal s (runningCycle s)

/-- The ring buffer emptied, then the bytes put from `RB_TAIL` on. -/
def RingBuf.place (cap : Nat) (B : RingBuf) (bytes : List Byte) : RingBuf :=
  bytes.foldl (fun B b => (RingBuf.tryPut cap B b).1) { B with head := B.tail, full := false }

/-- The current cycle's inputs with `rst` low; a quiet cycle where none is listed. -/
def runningInputs : List Input → List Input
  | [] => [Input.quiet]
  | i :: rest => { i with rst := false } :: rest

/-- The frame alone in the ring buffer from `RB_TAIL` on, the reply slot free, `rst` low in the current cycle: what the
parser needs to accept it in the next step (log 10). -/
def placeFrame (s : State) (bytes : List Byte) : State :=
  { s with rb := RingBuf.place s.cfg.rbCap s.rb bytes, reply := { s.reply with valid := false, txIdx := 0 },
           inputs := runningInputs s.inputs }

end Sys2Proof.Machine
end

