-- ==== Sys2Proof/Machine/Step.lean ====
section
/-! DEFINITION. One step of the machine: one clock edge (00_scope.md R9). -/

namespace Sys2Proof.Machine

/-- `Step(S, I)` with the inputs `I` of the current cycle taken from the state (R288; log 1). -/
def step (s : State) : Host.Outcome State Fault Refusal := cycle s

/-- `s` with a table word's frame, its checksum filled in, where the parser accepts its next command (log 9, log 10). -/
def State.withFetchWord (s : State) (nbits w : Nat) : State :=
  placeFrame s (sealFrame s.cfg.crc8PolyR (tableFrame nbits w))

end Sys2Proof.Machine
end

