-- ==== Sys2Proof/Machine/Output.lean ====
section
/-! DEFINITION. The outputs, a function of the registered state only (70_reset_and_hazards.md R289). -/

namespace Sys2Proof.Machine

/-- The output ports (00_scope.md R8). -/
structure Output where
  txValid : Bool
  txByte : Byte
  stepOut : Bool
  dirOut : Bool
  msSel : BitVec 3
  drvEn : Bool
  ledPwm : Bool
  doneValid : Bool
  doneCode : BitVec 2
  heartbeat : Bool
  deriving DecidableEq, Repr

/-- `Out(S)` (R289). -/
def out (s : State) : Output where
  txValid := s.reply.valid
  txByte := if s.reply.valid then s.reply.buf.read s.reply.txIdx else 0x00
  stepOut := s.motor.stepR
  dirOut := s.motor.dirR
  msSel := s.motor.msR
  drvEn := running s.motor
  ledPwm := ledPwmOut s.cfg s.led
  doneValid := s.motor.doneValid
  doneCode := s.motor.doneCode.code
  heartbeat := s.reply.heartbeat

end Sys2Proof.Machine
end

