-- ==== Sys2Proof/Safety.lean ====
section
/-! DEFINITION. What counts as safe, quiescent and observable, in the terms the statements use: the invariant, runs and
traces, the frame of a dispatch cycle, and the sub-blocks run on their own. -/

namespace Sys2Proof.Machine

/-! ## Invariant, runs, traces -/

/-- The invariant of the block: legal parameters (00_scope.md R6) and every invariant of 10_state.md R45. -/
abbrev Inv (s : State) : Prop := s.cfg.legal = true ∧ s.consistent = true

/-- The block is quiescent (70_reset_and_hazards.md R302). -/
def quiescent (s : State) : Bool :=
  s.motor.mState.isRest && !s.reply.valid && decide (RingBuf.size s.cfg.rbCap s.rb = 0)

/-- The motor is held safe: no motion runs and the driver enable is low (43_motor_sequencer.md R190). -/
def driverOff (s : State) : Prop := running s.motor = false ∧ (out s).drvEn = false

/-- The command the parser accepts in a cycle with `rst = 0`, if any (R136). -/
def dispatched (s : State) : Option Command := (parserStep s).2

/-- The state after `k` cycles, where the machine gets that far. -/
def runFor : Nat → State → Option State
  | 0, s => some s
  | k + 1, s =>
    match step s with
    | .next t => runFor k t
    | .fault _ => none
    | .refused _ => none

/-- The outputs of `k` cycles from a state, as far as the machine goes (00_scope.md R11). -/
def trace : Nat → State → List Output
  | 0, _ => []
  | k + 1, s =>
    out s :: (match step s with
      | .next t => trace k t
      | .fault _ => []
      | .refused _ => [])

/-! ## The frame of a dispatch cycle. The cycle without a command is `quietCycle s 12`. -/

/-- The motor does what it does in the same cycle without a command. -/
def MotorAsQuiet (s t : State) : Prop := t.motor = (quietCycle s 12).motor

/-- The switch sampler does what it does in the same cycle without a command. -/
def SwitchesAsQuiet (s t : State) : Prop := t.sw = (quietCycle s 12).sw

/-- The LED controller does what it does in the same cycle without a command. -/
def LedAsQuiet (s t : State) : Prop := t.led = (quietCycle s 12).led

/-- The parameters are unchanged; the ring buffer loses the frame's twelve bytes and takes the received byte; the
heartbeat moves as the transmitter moves it; the model's own fields move on. -/
def RestAsQuiet (s t : State) : Prop :=
  t.cfg = s.cfg ∧ t.rb = RingBuf.cycle s.cfg s.rb 12 s.input ∧
  t.reply.heartbeat = (txStep s.input s.reply).heartbeat ∧ t.inputs = s.inputs.tail ∧ t.cycle = s.cycle + 1

/-- The twelve bytes of the reply slot. -/
def replyBytes (t : State) : List Byte := t.reply.buf.readBytes 0 12

/-- The reply slot of `t` holds, not yet sent, the reply to opcode `op` with the result value `res`: the markers, the
opcode echoed, the result, the status of `t` with the limit levels the cycle used, the checksum (42 R144). -/
def Replies (s t : State) (op : Half) (res : Word) : Prop :=
  t.reply.valid = true ∧ t.reply.txIdx = 0 ∧
  replyBytes t = buildFrame s.cfg.crc8PolyR op res
    (statusByte t.led.on (running t.motor) t.sw.estopLatched s.sw.sync2.lim2 s.sw.sync2.lim1)

/-! ## Related states -/

/-- The states agree on everything but bytes no rule reads: RB_MEM outside the buffered bytes, REPLY_BUF while no reply
is pending (93 U1, U2). -/
def SameVisible (s t : State) : Prop :=
  s.cfg = t.cfg ∧ s.motor = t.motor ∧ s.sw = t.sw ∧ s.led = t.led ∧ s.inputs = t.inputs ∧ s.cycle = t.cycle ∧
  s.rb.head = t.rb.head ∧ s.rb.tail = t.rb.tail ∧ s.rb.full = t.rb.full ∧
  RingBuf.contents s.cfg.rbCap s.rb = RingBuf.contents t.cfg.rbCap t.rb ∧
  s.reply.valid = t.reply.valid ∧ s.reply.txIdx = t.reply.txIdx ∧ s.reply.heartbeat = t.reply.heartbeat ∧
  (s.reply.valid = true → replyBytes s = replyBytes t)

/-- The states agree on the LED controller, the frame path and the inputs; the motor, the switches, the e-stop latch
and the bytes of the pending reply may differ. -/
def SameLedSide (s t : State) : Prop :=
  s.cfg = t.cfg ∧ s.led = t.led ∧ s.rb = t.rb ∧ s.reply.valid = t.reply.valid ∧ s.reply.txIdx = t.reply.txIdx ∧
  s.inputs = t.inputs ∧ s.cycle = t.cycle

/-! ## Sub-blocks on their own -/

/-- The motor sub-step's context with no limit, no confirmation and no latch. -/
def undisturbed (p : Params) (m : Motor) : MotorCtx where
  cfg := p
  m := m
  latched := false
  lim1 := false
  lim2 := false
  confirm1 := false
  confirm2 := false

/-- `k` cycles of an undisturbed motor with no command. -/
def motorRun (p : Params) : Nat → Motor → Motor
  | 0, m => m
  | k + 1, m => motorRun p k (motorFree (undisturbed p m))

/-- A debounce timer over the levels of successive cycles: its last state and the confirmation of each cycle. -/
def debounceRun (period : DWord) : Debounce → List Bool → Debounce × List Bool
  | d, [] => (d, [])
  | d, lvl :: lvls =>
    let r := debounceRun period (debounceStep lvl period d).1 lvls
    (r.1, (debounceStep lvl period d).2 :: r.2)

/-- The transmitter over the inputs of successive cycles: its last state and the bytes transferred. -/
def txRun : Reply → List Input → Reply × List Byte
  | r, [] => (r, [])
  | r, i :: is =>
    let rest := txRun (txStep i r) is
    (rest.1, if r.valid && i.txReady then r.buf.read r.txIdx :: rest.2 else rest.2)

/-- An operation on a ring buffer from outside: a byte put, or a byte taken. -/
inductive RingOp where
  | put (b : Byte)
  | get
  deriving DecidableEq, Repr

/-- The bytes an operation sequence puts. -/
def putBytes : List RingOp → List Byte
  | [] => []
  | .put b :: ops => b :: putBytes ops
  | .get :: ops => putBytes ops

/-- A sequence of `put` and `get` on a ring buffer: the last buffer, the bytes returned, and whether no `put` met a full
buffer. -/
def ringRun (cap : Nat) : RingBuf → List RingOp → RingBuf × List Byte × Bool
  | B, [] => (B, [], true)
  | B, .put b :: ops =>
    let r := ringRun cap (RingBuf.put cap B b) ops
    (r.1, r.2.1, !B.full && r.2.2)
  | B, .get :: ops =>
    let g := RingBuf.get cap B
    let r := ringRun cap g.1 ops
    (r.1, g.2.toList ++ r.2.1, r.2.2)

end Sys2Proof.Machine
end

