-- ==== Sys2Proof/Certificates/Slice0/Obligations.lean ====
section
/-! DEFINITION. The statements for the provers. `quietCycle s 12` is the dispatch cycle without its command, the base
that every frame is stated against: the counters, timers and the motor's ticks go on in every cycle. -/

open Sys2Proof Sys2Proof.Machine

/-! ## Encoding -/

/-- Decoding an encoded command gives the command back, with every operand at every value, malformed selectors
included, under every polynomial. -/
def Obligations.DecodeOfEncodeIsIdentity : Prop :=
  ∀ (poly : Byte) (i : Instr), decode poly (encode poly i) = .ok (.known i)

/-- A table row `n` (R92, R96) selects a 12-byte string exactly when `(F & mask) == match`: the markers and the opcode
bytes `n, 0`; the selected command has that opcode. -/
def Obligations.RowSelectedIffMaskMatches : Prop :=
  ∀ (F : List Byte) (n : Nat), F.length = 12 → n ≤ 13 →
    ((∀ k, k < 12 →
        frameByte F k &&& frameByte [0xFF, 0xFF, 0xFF, 0xFF, 0, 0, 0, 0, 0, 0, 0xFF, 0xFF] k =
          frameByte [0xDE, 0xAD, BitVec.ofNat 8 n, 0, 0, 0, 0, 0, 0, 0, 0xBE, 0xEF] k) ↔
      ∃ i, selectRow F = some i ∧ (opcodeOf i).toNat = n)

/-- The bits of `flags` a command reads (R86, R88, R89): SIZE, DIR, IGN for RELATIVE; SIZE, IGN for ABSOLUTE; SEL for
LED_PID; SIZE for LIMIT_STEP_OFF; none else. Two frames that agree on these, and on `arg` where the opcode reads it,
select the same command. -/
def Obligations.UnusedFieldsAreIgnored : Prop :=
  ∀ (op : Half) (arg arg' : Word) (flags flags' : Byte),
    (op.toNat ∉ [0, 4, 6, 11, 12] → arg = arg') →
    (op.toNat = 1 → flags &&& 0x6F = flags' &&& 0x6F) →
    (op.toNat = 2 → flags &&& 0x4F = flags' &&& 0x4F) →
    (op.toNat = 9 → flags &&& 0x03 = flags' &&& 0x03) →
    (op.toNat = 13 → flags &&& 0x0F = flags' &&& 0x0F) →
    selectInstr op arg flags = selectInstr op arg' flags'

/-- Every 12-byte string has one outcome (R99): it is dropped for the first of the start marker, the stop marker and
the checksum that fails, or it decodes to a row with its opcode, or to the unknown handler with an opcode above 13. -/
def Obligations.DecodingIsTotal : Prop :=
  ∀ (poly : Byte) (F : List Byte), F.length = 12 →
    (decode poly F = .error .start ∧ startOk F = false) ∨
    (decode poly F = .error .stop ∧ startOk F = true ∧ stopOk F = false) ∨
    (decode poly F = .error .checksum ∧ startOk F = true ∧ stopOk F = true ∧ validate poly F = false) ∨
    (startOk F = true ∧ stopOk F = true ∧ validate poly F = true ∧
      ((∃ i, decode poly F = .ok (.known i) ∧ opcodeOf i = frameOpcode F) ∨
        (decode poly F = .ok (.unknown (frameOpcode F)) ∧ 13 < (frameOpcode F).toNat)))

/-- The opcode field is the 16-bit number whose less significant byte is `F[2]`, and selects a row exactly when it is 0
to 13 (R84). -/
def Obligations.OpcodeFieldIsLittleEndian : Prop :=
  ∀ F : List Byte,
    (frameOpcode F).toNat = (frameByte F 2).toNat + 256 * (frameByte F 3).toNat ∧ (frameOpcode F).toNat ≤ 65535 ∧
    ((∃ i, selectInstr (frameOpcode F) (frameArg F) (frameFlags F) = some i) ↔ (frameOpcode F).toNat ≤ 13)

/-- Words written out in the spec decode to the commands they stand for (sanity). Their checksum bytes hold under
CRC8_POLY_R = 0x8C only, the spec's own general-knowledge default (93 K1, PRESUMED; log 11). -/
def Obligations.SpecWordsDecode : Prop :=
  decode 0x8C [0xDE, 0xAD, 0x01, 0x00, 0x05, 0x00, 0x00, 0x00, 0x21, 0xB7, 0xBE, 0xEF] =
      .ok (.known (.relative 5 1 true false)) ∧
  decode 0x8C [0xDE, 0xAD, 0x02, 0x00, 0xD8, 0xFF, 0xFF, 0xFF, 0x02, 0x3B, 0xBE, 0xEF] =
      .ok (.known (.absolute 0xFFFFFFD8 2 false)) ∧
  decode 0x8C [0xDE, 0xAD, 0x09, 0x00, 0x00, 0x00, 0x80, 0x3E, 0x02, 0xC6, 0xBE, 0xEF] =
      .ok (.known (.ledPid 0x3E800000 2)) ∧
  decode 0x8C [0xDE, 0xAD, 0x0A, 0x00, 0x05, 0x00, 0x00, 0x00, 0x00, 0x7C, 0xBE, 0xEF] =
      .ok (.known (.switchDebounce 5)) ∧
  decode 0x8C [0xDE, 0xAD, 0x00, 0x01, 0x00, 0x00, 0x00, 0x00, 0x00, 0x12, 0xBE, 0xEF] = .ok (.unknown 256)

/-! ## Checksum -/

/-- Flipping any one bit of `F[0..9]` of a frame that satisfies `validate` gives one that fails it, for every nonzero
reflected polynomial (R128). -/
def Obligations.CrcDetectsEverySingleBitError : Prop :=
  ∀ (poly : Byte) (F : List Byte) (j k : Nat), poly ≠ 0 → F.length = 12 → validate poly F = true → j < 10 → k < 8 →
    validate poly (F.set j (frameByte F j ^^^ (1#8 <<< k))) = false

/-- Every reply the block sends, to a known command or to an unknown opcode, satisfies `validate` (R124), has both
markers, echoes the command's opcode and is offered from its first byte in the next cycle (R90, R155). Its status byte
(R22, R91): bit 0 limit-1 and bit 1 limit-2 at the levels of the cycle, bit 2 e-stop latched, bit 3 motor running, bit 4
LED on after the cycle (R144), bits 7 to 5 zero. -/
def Obligations.EveryReplyIsAValidFrame : Prop :=
  ∀ (s t : State) (c : Command), Inv s → s.input.rst = false → dispatched s = some c → step s = .next t →
    (replyBytes t).length = 12 ∧ validate s.cfg.crc8PolyR (replyBytes t) = true ∧
    crc8 s.cfg.crc8PolyR ((replyBytes t).take 9) = frameByte (replyBytes t) 9 ∧
    startOk (replyBytes t) = true ∧ stopOk (replyBytes t) = true ∧
    (∀ i, c = .known i → frameOpcode (replyBytes t) = opcodeOf i) ∧
    (∀ op, c = .unknown op → frameOpcode (replyBytes t) = op) ∧
    (let status := frameByte (replyBytes t) 8
     status.getLsbD 0 = s.sw.sync2.lim1 ∧ status.getLsbD 1 = s.sw.sync2.lim2 ∧
     status.getLsbD 2 = t.sw.estopLatched ∧ status.getLsbD 3 = running t.motor ∧ status.getLsbD 4 = t.led.on ∧
     status.getLsbD 5 = false ∧ status.getLsbD 6 = false ∧ status.getLsbD 7 = false) ∧
    (out t).txValid = true ∧ (out t).txByte = 0xDE

/-! ## The ring buffer -/

/-- `try_put` stores the byte at RB_HEAD and appends it, unless the buffer is full; a full buffer is left unchanged
(R102). -/
def Obligations.TryPutAppendsUnlessFull : Prop :=
  ∀ (p : Params) (B : RingBuf) (b : Byte), p.legal = true → B.consistent p = true →
    (B.full = true → RingBuf.tryPut p.rbCap B b = (B, false)) ∧
    (B.full = false →
      (RingBuf.tryPut p.rbCap B b).2 = true ∧
      RingBuf.contents p.rbCap (RingBuf.tryPut p.rbCap B b).1 = RingBuf.contents p.rbCap B ++ [b] ∧
      (∀ a, (RingBuf.tryPut p.rbCap B b).1.mem.read a = if a = B.head then b else B.mem.read a) ∧
      (RingBuf.tryPut p.rbCap B b).1.head = (B.head + 1) % p.rbCap ∧
      (RingBuf.tryPut p.rbCap B b).1.tail = B.tail ∧
      (RingBuf.tryPut p.rbCap B b).1.full = decide ((B.head + 1) % p.rbCap = B.tail))

/-- `put` on a full buffer stores the byte at RB_HEAD, discards the oldest byte and stays full; otherwise it is
`try_put` (R103). -/
def Obligations.PutOverwritesTheOldest : Prop :=
  ∀ (p : Params) (B : RingBuf) (b : Byte), p.legal = true → B.consistent p = true →
    (B.full = false → RingBuf.put p.rbCap B b = (RingBuf.tryPut p.rbCap B b).1) ∧
    (B.full = true →
      RingBuf.contents p.rbCap (RingBuf.put p.rbCap B b) = (RingBuf.contents p.rbCap B).tail ++ [b] ∧
      RingBuf.size p.rbCap (RingBuf.put p.rbCap B b) = p.rbCap ∧
      (∀ a, (RingBuf.put p.rbCap B b).mem.read a = if a = B.head then b else B.mem.read a) ∧
      (RingBuf.put p.rbCap B b).head = (B.head + 1) % p.rbCap ∧
      (RingBuf.put p.rbCap B b).tail = (B.tail + 1) % p.rbCap ∧
      (RingBuf.put p.rbCap B b).full = true)

/-- `get` removes and returns the oldest byte, which stands at RB_TAIL; an empty buffer is unchanged and gives none
(R104). -/
def Obligations.GetRemovesTheOldest : Prop :=
  ∀ (p : Params) (B : RingBuf), p.legal = true → B.consistent p = true →
    (RingBuf.size p.rbCap B = 0 → RingBuf.get p.rbCap B = (B, none)) ∧
    (RingBuf.size p.rbCap B ≠ 0 →
      RingBuf.contents p.rbCap B = B.mem.read B.tail :: RingBuf.contents p.rbCap (RingBuf.get p.rbCap B).1 ∧
      RingBuf.get p.rbCap B =
        ({ B with tail := (B.tail + 1) % p.rbCap, full := false }, some (B.mem.read B.tail)))

/-- The FIFO law (R110): for any sequence of `put` and `get` that never exceeds capacity, the bytes returned and then
the bytes left are the bytes there at first and then the bytes put, in the exact order; the size is what was put less
what was returned. -/
def Obligations.RingBufferIsFifo : Prop :=
  ∀ (p : Params) (B : RingBuf) (ops : List RingOp), p.legal = true → B.consistent p = true →
    (ringRun p.rbCap B ops).2.2 = true →
    (ringRun p.rbCap B ops).2.1 ++ RingBuf.contents p.rbCap (ringRun p.rbCap B ops).1 =
      RingBuf.contents p.rbCap B ++ putBytes ops ∧
    RingBuf.size p.rbCap (ringRun p.rbCap B ops).1 =
      RingBuf.size p.rbCap B + (putBytes ops).length - (ringRun p.rbCap B ops).2.1.length

/-- In a cycle the parser's removal comes first, then the received byte (R107, R108): a byte that meets a buffer still
full after the removal is dropped, or with RB_OVERWRITE replaces the oldest. -/
def Obligations.RemovalComesBeforeTheReceivedByte : Prop :=
  ∀ (p : Params) (B : RingBuf) (r : Nat) (i : Input), p.legal = true → B.consistent p = true →
    (i.rxValid = false →
      RingBuf.contents p.rbCap (RingBuf.cycle p B r i) = (RingBuf.contents p.rbCap B).drop r) ∧
    (i.rxValid = true → (RingBuf.contents p.rbCap B).length - r < p.rbCap →
      RingBuf.contents p.rbCap (RingBuf.cycle p B r i) = (RingBuf.contents p.rbCap B).drop r ++ [i.rxByte]) ∧
    (i.rxValid = true → (RingBuf.contents p.rbCap B).length - r = p.rbCap → p.rbOverwrite = false →
      RingBuf.contents p.rbCap (RingBuf.cycle p B r i) = RingBuf.contents p.rbCap B) ∧
    (i.rxValid = true → (RingBuf.contents p.rbCap B).length - r = p.rbCap → p.rbOverwrite = true →
      RingBuf.contents p.rbCap (RingBuf.cycle p B r i) = (RingBuf.contents p.rbCap B).tail ++ [i.rxByte])

/-! ## Parser and transmitter -/

/-- What the parser does, read from the buffered bytes: it waits on an empty buffer, a lone `DE` and a short start
prefix (R138); it drops one byte of garbage (R137) and the first byte of a candidate the decoder rejects (R139, R140);
a good candidate waits while a reply is pending, and is taken whole when none is (R141, R152). -/
def Obligations.ParserActsOnTheBufferedBytes : Prop :=
  ∀ (s : State), Inv s →
    let bytes := RingBuf.contents s.cfg.rbCap s.rb
    (bytes = [] → parserStep s = (0, none)) ∧
    (∀ b rest, bytes = b :: rest → b ≠ 0xDE → parserStep s = (1, none)) ∧
    (bytes = [0xDE] → parserStep s = (0, none)) ∧
    (∀ b rest, bytes = 0xDE :: b :: rest → b ≠ 0xAD → parserStep s = (1, none)) ∧
    (∀ rest, bytes = 0xDE :: 0xAD :: rest → bytes.length < 12 → parserStep s = (0, none)) ∧
    (∀ e, 12 ≤ bytes.length → decode s.cfg.crc8PolyR (bytes.take 12) = .error e → parserStep s = (1, none)) ∧
    (∀ c, 12 ≤ bytes.length → decode s.cfg.crc8PolyR (bytes.take 12) = .ok c → s.reply.valid = true →
      parserStep s = (0, none)) ∧
    (∀ c, 12 ≤ bytes.length → decode s.cfg.crc8PolyR (bytes.take 12) = .ok c → s.reply.valid = false →
      parserStep s = (12, some c))

/-- A step runs the decoded command: with `rst` low and the reply slot free, twelve buffered bytes that decode to a
command make the step that command's dispatch cycle. -/
def Obligations.StepRunsTheDecodedCommand : Prop :=
  ∀ (s : State) (c : Command), Inv s → s.input.rst = false → s.reply.valid = false →
    12 ≤ (RingBuf.contents s.cfg.rbCap s.rb).length →
    decode s.cfg.crc8PolyR ((RingBuf.contents s.cfg.rbCap s.rb).take 12) = .ok c →
    (∀ i, c = .known i → step s = exec i s) ∧ (∀ op, c = .unknown op → step s = execUnknown op s)

/-- An encoded command placed where the parser looks is the next command run, whatever the command and the state. -/
def Obligations.PlacedCommandRunsNext : Prop :=
  ∀ (s : State) (i : Instr), Inv s →
    step (placeFrame s (encode s.cfg.crc8PolyR i)) = exec i (placeFrame s (encode s.cfg.crc8PolyR i))

/-- A cycle in which the parser accepts nothing (a wait, garbage, a bad candidate) changes nothing but by the passing
of the cycle: only the ring buffer depends on what the parser removed (R154). -/
def Obligations.FrameErrorsOnlyRemoveBytes : Prop :=
  ∀ (s t : State), Inv s → s.input.rst = false → dispatched s = none → step s = .next t →
    t.motor = (quietCycle s 0).motor ∧ t.sw = (quietCycle s 0).sw ∧ t.led = (quietCycle s 0).led ∧
    t.reply = txStep s.input s.reply ∧ t.cfg = s.cfg ∧
    ((parserStep s).1 = 0 ∨ (parserStep s).1 = 1) ∧
    t.rb = RingBuf.cycle s.cfg s.rb (parserStep s).1 s.input

/-- A pending reply goes out once, in the order `R[0]` to `R[11]`, one byte for each cycle with `tx_ready`; with the
last the slot frees and the heartbeat toggles (R150, R151). -/
def Obligations.ReplyGoesOutOnceInOrder : Prop :=
  ∀ (r : Reply) (is : List Input), r.valid = true → r.txIdx = 0 →
    (is.filter (fun i => i.txReady)).length = 12 →
    (txRun r is).2 = r.buf.readBytes 0 12 ∧
    (txRun r is).1 = { r with valid := false, txIdx := 0, heartbeat := !r.heartbeat }

/-! ## The whole machine -/

/-- Every step keeps the invariant (R45), whatever the inputs. -/
def Obligations.StepKeepsTheInvariant : Prop :=
  ∀ (s t : State), Inv s → step s = .next t → Inv t

/-- The reset state of every legal block meets the invariant, and so does `State.reset`. -/
def Obligations.ResetMeetsTheInvariant : Prop :=
  (∀ (p : Params) (inputs : List Input) (n : Nat), p.legal = true → Inv (State.resetWith p inputs n)) ∧
  Inv State.reset

/-- The block never stops: from a state that meets the invariant it runs for any number of cycles, whatever the
inputs, and every state on the way meets the invariant (R11, R262). -/
def Obligations.BlockNeverStops : Prop :=
  ∀ (s : State) (k : Nat), Inv s → ∃ t, runFor k s = some t ∧ Inv t

/-- A cycle with `rst = 1` gives the reset state, whatever the state and the other inputs are (R285). In every state
the outputs are the registers' values (R289): `drv_en` is high in the five motion states, `done_code` is 0 for DONE_OK,
1 for DONE_LIMIT, 2 for DONE_STOPPED, 3 for DONE_ESTOP. -/
def Obligations.ResetCycleGivesTheResetState : Prop :=
  (∀ s : State, s.cfg.legal = true → s.input.rst = true →
    ∃ t, step s = .next t ∧ t.cfg = s.cfg ∧ t.inputs = s.inputs.tail ∧
      t.motor = { mState := .idle, position := 0, tickDiv := BitVec.ofNat 32 s.cfg.defaultTickDiv, tickCnt := 0,
                  reqSize := .full, reqCount := 0, reqDir := false, reqIgn := false, soSize := .full, soCount := 0,
                  stepR := false, dirR := false, msR := s.cfg.msTable.full, doneValid := false, doneCode := .ok } ∧
      t.sw = { sync1 := ⟨false, false, false⟩, sync2 := ⟨false, false, false⟩, deb1 := ⟨false, false, 0⟩,
               deb2 := ⟨false, false, 0⟩, debounceMs := BitVec.ofNat 32 s.cfg.defaultDebounceMs,
               estopLatched := false } ∧
      t.led = { mode := .direct, on := false, duty := 0, target := 0, p := 0, i := 0, d := 0,
                win := List.replicate s.cfg.pidWindow 0, idx := 0, prev := 0, tickCnt := 0, pwmCnt := 0 } ∧
      t.rb.head = 0 ∧ t.rb.tail = 0 ∧ t.rb.full = false ∧
      t.reply.valid = false ∧ t.reply.txIdx = 0 ∧ t.reply.heartbeat = false ∧
      out t = { txValid := false, txByte := 0, stepOut := false, dirOut := false, msSel := s.cfg.msTable.full,
                drvEn := false, ledPwm := false, doneValid := false, doneCode := 0, heartbeat := false }) ∧
  (∀ s : State, out s =
    { txValid := s.reply.valid
      txByte := if s.reply.valid then s.reply.buf.read s.reply.txIdx else 0x00
      stepOut := s.motor.stepR
      dirOut := s.motor.dirR
      msSel := s.motor.msR
      drvEn := decide (s.motor.mState ∈ [.setup, .stepRising, .stepHighHold, .stepFalling, .stepLowHold])
      ledPwm := s.led.on && decide (s.led.pwmCnt < F32.units s.led.duty * s.cfg.pwmPeriod / 2 ^ 149)
      doneValid := s.motor.doneValid
      doneCode := match s.motor.doneCode with
        | .ok => 0
        | .limit => 1
        | .stopped => 2
        | .estop => 3
      heartbeat := s.reply.heartbeat })

/-- Where the machine stops: parameters out of range are refused; with `rst` low, M_STATE = 7 and a state that breaks
an invariant of R45 fault (93 U3, S4, §3; log 6, log 8, log 20). In every other state, `rst` high or consistent, a step
answers a next state. -/
def Obligations.StopsOnlyWhereTheSpecSays : Prop :=
  ∀ s : State,
    (s.cfg.legal = false → step s = .refused .illegalParameters) ∧
    (s.cfg.legal = true → s.input.rst = false → s.motor.mState = .exit → step s = .fault .exitHeld) ∧
    (s.cfg.legal = true → s.input.rst = false → s.motor.mState ≠ .exit → s.consistent = false →
      step s = .fault .unreachableState) ∧
    (s.cfg.legal = true → (s.input.rst = true ∨ s.consistent = true) → ∃ t, step s = .next t)

/-- Once the latch is set, `running` is 0 and the driver is off in every later cycle, even after the pin deasserts,
until a reset or a successful EMERGENCY_CLEAR (R228): one that meets an active e-stop level is answered BLOCKED and ends
nothing. -/
def Obligations.EstopHoldsUntilCleared : Prop :=
  ∀ (k : Nat) (s t : State), Inv s → s.sw.estopLatched = true → runFor k s = some t →
    (∀ j u, j < k → runFor j s = some u →
      u.input.rst = false ∧ (dispatched u = some (.known .emergencyClear) → u.sw.sync2.est = true)) →
    t.sw.estopLatched = true ∧ t.motor.mState = .estop ∧ driverOff t

/-- The e-stop latch of the next state (R217): set by an active synchronised level or by EMERGENCY_STOP, kept unless the
command is EMERGENCY_CLEAR; a clear under an active level is answered BLOCKED; the motor is in ESTOP exactly while the
latch is set. -/
def Obligations.LatchFollowsLevelAndCommands : Prop :=
  ∀ (s t : State), Inv s → s.input.rst = false → step s = .next t →
    (t.sw.estopLatched = true ↔
      s.sw.sync2.est = true ∨ dispatched s = some (.known .emergencyStop) ∨
        (s.sw.estopLatched = true ∧ dispatched s ≠ some (.known .emergencyClear))) ∧
    (dispatched s = some (.known .emergencyClear) → s.sw.sync2.est = true → Replies s t 12 3) ∧
    (t.motor.mState = .estop ↔ t.sw.estopLatched = true)

/-- The e-stop input bypasses the debounce (R218): an active synchronised level latches and stops the motor in the first
cycle it is seen, and a pin active in one cycle's input has done so after the third cycle, whatever the levels and the
commands of the two cycles between. -/
def Obligations.EstopPulseLatchesInThreeCycles : Prop :=
  (∀ s t : State, Inv s → s.input.rst = false → s.sw.sync2.est = true → step s = .next t →
    t.sw.estopLatched = true ∧ t.motor.mState = .estop ∧ (out t).drvEn = false) ∧
  (∀ (s : State) (i0 i1 i2 : Input) (rest : List Input), Inv s → s.inputs = i0 :: i1 :: i2 :: rest →
    i0.rst = false → i1.rst = false → i2.rst = false → (i0.estopPin ^^ s.cfg.estopActiveLow) = true →
    ∃ t, runFor 3 s = some t ∧ t.sw.estopLatched = true ∧ t.motor.mState = .estop ∧ (out t).drvEn = false)

/-- Taking the exception (R175, R270): in the first cycle the synchronised e-stop is active the latch sets and the
motor enters ESTOP, whatever command the cycle carries: the request is cleared, the step pin drops, DONE_ESTOP is
emitted if a motion ran, no step-off starts; DIR_R and MS_R keep their values, and POSITION too unless the
cycle's command is SET_POSITION. -/
def Obligations.EstopIsTakenInItsCycle : Prop :=
  ∀ (s t : State), Inv s → s.input.rst = false → s.sw.sync2.est = true → s.sw.estopLatched = false →
    step s = .next t →
    t.sw.estopLatched = true ∧ t.motor.mState = .estop ∧ t.motor.reqSize = .full ∧ t.motor.reqCount = 0 ∧
    t.motor.reqDir = false ∧ t.motor.reqIgn = false ∧ t.motor.stepR = false ∧ t.motor.tickCnt = 0 ∧
    t.motor.doneValid = running s.motor ∧
    t.motor.doneCode = (if running s.motor then .estop else s.motor.doneCode) ∧
    t.motor.dirR = s.motor.dirR ∧ t.motor.msR = s.motor.msR ∧
    ((∀ pos, dispatched s ≠ some (.known (.setPosition pos))) → t.motor.position = s.motor.position) ∧
    (∀ pos, dispatched s = some (.known (.setPosition pos)) → t.motor.position = pos)

/-- TICK_DIV changes only by a reset or by an accepted SPEED, and never while a motion runs (R26, R182, R197). -/
def Obligations.TickDivChangesOnlyBySpeedAtRest : Prop :=
  ∀ (s t : State), Inv s → step s = .next t → s.input.rst = false → t.motor.tickDiv ≠ s.motor.tickDiv →
    running s.motor = false ∧
    ∃ hz, dispatched s = some (.known (.speed hz)) ∧ u32 hz ≠ 0 ∧ u32 t.motor.tickDiv = s.cfg.fClkHz / u32 hz

/-- Two operations write POSITION (R25): the rising edge (STEP_RISING to STEP_HIGH_HOLD), which adds the signed step
distance of the request modulo 2^32, and SET_POSITION, which overwrites it, an edge of the same cycle adding to the new
value. Nothing else changes it: no completion, no abort, no e-stop. -/
def Obligations.PositionMovesOnlyByEdgesAndSetPosition : Prop :=
  ∀ (s t : State), Inv s → step s = .next t → s.input.rst = false →
    let rises : Prop := s.motor.mState = .stepRising ∧ t.motor.mState = .stepHighHold
    let edge (x : Word) : Word :=
      if s.motor.reqDir then x - BitVec.ofNat 32 (stepDist s.cfg s.motor.reqSize)
      else x + BitVec.ofNat 32 (stepDist s.cfg s.motor.reqSize)
    (rises → s.motor.reqCount ≠ 0 ∧ t.motor.stepR = true) ∧
    ((∀ pos, dispatched s ≠ some (.known (.setPosition pos))) →
      (rises → t.motor.position = edge s.motor.position) ∧ (¬ rises → t.motor.position = s.motor.position)) ∧
    (∀ pos, dispatched s = some (.known (.setPosition pos)) →
      (rises → t.motor.position = edge pos) ∧ (¬ rises → t.motor.position = pos))

/-- A motion command dispatched while a motion runs leaves the in-flight request as a cycle with no command does
(R193), and a failing check leaves every motor register so; the reply carries the first failing check: BUSY, then
INVALID_SIZE, then BLOCKED (R179, R269). -/
def Obligations.RejectedMotionHasNoEffect : Prop :=
  ∀ (s : State) (count target : Word) (size : BitVec 4) (dir ign : Bool), s.consistent = true →
    (running s.motor = true ∨ 4 < size.toNat ∨ s.sw.sync2.est = true ∨ s.sw.estopLatched = true ∨
      ((s.sw.sync2.lim1 = true ∨ s.sw.sync2.lim2 = true) ∧ ign = false)) →
    let res : Word := if running s.motor then 1 else if 4 < size.toNat then 2 else 3
    (∃ t, exec (.relative count size dir ign) s = .next t ∧ Replies s t 1 res ∧
      MotorAsQuiet s t ∧ SwitchesAsQuiet s t ∧ LedAsQuiet s t ∧ RestAsQuiet s t) ∧
    (∃ t, exec (.absolute target size ign) s = .next t ∧ Replies s t 2 res ∧
      MotorAsQuiet s t ∧ SwitchesAsQuiet s t ∧ LedAsQuiet s t ∧ RestAsQuiet s t)

/-- The LED controller does not depend on the motor, the switches or the e-stop latch (R248): two blocks that agree on
the LED side and get the same inputs have the same LED registers and the same `led_pwm` after any number of cycles. -/
def Obligations.LedIsIndependentOfMotorAndSwitches : Prop :=
  ∀ (k : Nat) (s s' t : State), Inv s → Inv s' → SameLedSide s s' → runFor k s = some t →
    ∃ t', runFor k s' = some t' ∧ SameLedSide t t' ∧ (out t).ledPwm = (out t').ledPwm

/-- The unspecified bytes of RB_MEM and REPLY_BUF are never read (R45; 93 U1, U2): two states that differ in them alone
give the same outputs for any number of cycles. -/
def Obligations.UnspecifiedBytesAreNeverRead : Prop :=
  ∀ (k : Nat) (s s' t : State), Inv s → Inv s' → SameVisible s s' → runFor k s = some t →
    ∃ t', runFor k s' = some t' ∧ SameVisible t t' ∧ out t = out t'

/-- Every byte of RB_MEM but the one at RB_HEAD in a cycle that receives a byte, and every byte of REPLY_BUF past the
reply's twelve, reads after any command as it read before. -/
def Obligations.CommandsStoreOnlyTheReplyAndTheReceivedByte : Prop :=
  ∀ (i : Instr) (s t : State), s.consistent = true → exec i s = .next t →
    (∀ a, ¬ (s.input.rxValid = true ∧ a = s.rb.head) → t.rb.mem.read a = s.rb.mem.read a) ∧
    (∀ a, 12 ≤ a → t.reply.buf.read a = s.reply.buf.read a) ∧ RestAsQuiet s t

/-! ## The protocol commands -/

/-- IDLE replies SUCCESS and changes nothing else (R148). -/
def Obligations.IdleOnlyReplies : Prop :=
  ∀ s : State, s.consistent = true →
    ∃ t, exec .idle s = .next t ∧ Replies s t 0 0 ∧
      MotorAsQuiet s t ∧ SwitchesAsQuiet s t ∧ LedAsQuiet s t ∧ RestAsQuiet s t

/-- An accepted frame with an opcode of 14 to 65535, whatever its `arg` and `flags`, is dispatched to the unknown-opcode
handler, which replies 0xFFFFFFFF with the opcode echoed and changes nothing else (R93). -/
def Obligations.UnknownOpcodeOnlyReplies : Prop :=
  ∀ s : State, Inv s → s.input.rst = false → s.reply.valid = false →
    12 ≤ (RingBuf.contents s.cfg.rbCap s.rb).length →
    let F := (RingBuf.contents s.cfg.rbCap s.rb).take 12
    frameFault s.cfg.crc8PolyR F = none → 13 < (frameOpcode F).toNat →
    ∃ t, step s = .next t ∧ Replies s t (frameOpcode F) 0xFFFFFFFF ∧
      MotorAsQuiet s t ∧ SwitchesAsQuiet s t ∧ LedAsQuiet s t ∧ RestAsQuiet s t

/-! ## The motor commands -/

/-- RELATIVE accepted (R179, R180): at rest with the latch clear, the size valid and no limit or `ign`, the request is
loaded and SETUP entered; every other motor register keeps its value. -/
def Obligations.RelativeLoadsItsRequest : Prop :=
  ∀ (s : State) (count : Word) (size : BitVec 4) (dir ign : Bool) (sz : StepSize), s.consistent = true →
    s.motor.mState = .idle → s.sw.sync2.est = false → stepSizeOf size = some sz →
    (ign = true ∨ (s.sw.sync2.lim1 = false ∧ s.sw.sync2.lim2 = false)) →
    ∃ t, exec (.relative count size dir ign) s = .next t ∧ Replies s t 1 0 ∧
      t.motor = { s.motor with mState := .setup, tickCnt := 0, reqSize := sz, reqCount := count, reqDir := dir,
                               reqIgn := ign, doneValid := false } ∧
      SwitchesAsQuiet s t ∧ LedAsQuiet s t ∧ RestAsQuiet s t

/-- ABSOLUTE accepted (R181): the count is the exact difference divided by the step distance, truncated, with no wrap;
the direction is its sign. -/
def Obligations.AbsoluteLoadsTheExactDifference : Prop :=
  ∀ (s : State) (target : Word) (size : BitVec 4) (ign : Bool) (sz : StepSize), s.consistent = true →
    s.motor.mState = .idle → s.sw.sync2.est = false → stepSizeOf size = some sz →
    (ign = true ∨ (s.sw.sync2.lim1 = false ∧ s.sw.sync2.lim2 = false)) →
    ∃ t, exec (.absolute target size ign) s = .next t ∧ Replies s t 2 0 ∧
      u32 t.motor.reqCount = (s32 target - s32 s.motor.position).natAbs / stepDist s.cfg sz ∧
      (t.motor.reqDir = true ↔ s32 target < s32 s.motor.position) ∧
      t.motor = { s.motor with mState := .setup, tickCnt := 0, reqSize := sz, reqCount := t.motor.reqCount,
                               reqDir := t.motor.reqDir, reqIgn := ign, doneValid := false } ∧
      SwitchesAsQuiet s t ∧ LedAsQuiet s t ∧ RestAsQuiet s t

/-- SPEED (R182): BUSY while running, INVALID_ARG for 0 Hz or a period below MIN_TICK_DIV, else TICK_DIV becomes
`F_CLK_HZ div hz`; nothing else of the motor changes by it. -/
def Obligations.SpeedSetsTheTickPeriod : Prop :=
  ∀ (s : State) (hz : Word), Inv s →
    ∃ t, exec (.speed hz) s = .next t ∧ SwitchesAsQuiet s t ∧ LedAsQuiet s t ∧ RestAsQuiet s t ∧
      (running s.motor = true → Replies s t 3 1 ∧ MotorAsQuiet s t) ∧
      (running s.motor = false → (u32 hz = 0 ∨ s.cfg.fClkHz / u32 hz < max 1 s.cfg.settleCycles) →
        Replies s t 3 4 ∧ MotorAsQuiet s t) ∧
      (running s.motor = false → u32 hz ≠ 0 → max 1 s.cfg.settleCycles ≤ s.cfg.fClkHz / u32 hz →
        Replies s t 3 0 ∧ u32 t.motor.tickDiv = s.cfg.fClkHz / u32 hz ∧
        t.motor = { (quietCycle s 12).motor with tickDiv := t.motor.tickDiv })

/-- STOP (R183): it ends a running motion with DONE_STOPPED, wins over the tick and starts no step-off; otherwise it
does nothing but reply SUCCESS. An e-stop of the same cycle wins (R197). -/
def Obligations.StopEndsTheMotion : Prop :=
  ∀ s : State, s.consistent = true →
    ∃ t, exec .stop s = .next t ∧ Replies s t 4 0 ∧ SwitchesAsQuiet s t ∧ LedAsQuiet s t ∧ RestAsQuiet s t ∧
      (running s.motor = true → s.sw.sync2.est = false →
        t.motor = { s.motor with mState := .idle, reqSize := .full, reqCount := 0, reqDir := false, reqIgn := false,
                                 stepR := false, tickCnt := 0, doneValid := true, doneCode := .stopped }) ∧
      (running s.motor = false ∨ s.sw.sync2.est = true → MotorAsQuiet s t)

/-- SET_POSITION (R184): POSITION becomes the operand, plus what a rising edge of the same cycle adds; no other motor
register changes by it. -/
def Obligations.SetPositionRebasesThePosition : Prop :=
  ∀ (s : State) (pos : Word), s.consistent = true →
    ∃ t, exec (.setPosition pos) s = .next t ∧ Replies s t 5 0 ∧
      t.motor = { (quietCycle s 12).motor with
                  position := pos + ((quietCycle s 12).motor.position - s.motor.position) } ∧
      SwitchesAsQuiet s t ∧ LedAsQuiet s t ∧ RestAsQuiet s t

/-- GET_POSITION (R185): the reply carries the position at the start of the cycle; nothing else changes. -/
def Obligations.GetPositionRepliesThePosition : Prop :=
  ∀ s : State, s.consistent = true →
    ∃ t, exec .getPosition s = .next t ∧ Replies s t 6 s.motor.position ∧
      MotorAsQuiet s t ∧ SwitchesAsQuiet s t ∧ LedAsQuiet s t ∧ RestAsQuiet s t

/-- LIMIT_STEP_OFF (R187): the step-off configuration is written, and a limit abort of the same cycle uses it: the
motor moves as if it had been configured so before the cycle. A selector of 5 to 15 is INVALID_SIZE with no effect. -/
def Obligations.LimitStepOffConfiguresTheStepOff : Prop :=
  ∀ (s : State) (count : Word) (size : BitVec 4), s.consistent = true →
    ∃ t, exec (.limitStepOff count size) s = .next t ∧ SwitchesAsQuiet s t ∧ LedAsQuiet s t ∧ RestAsQuiet s t ∧
      (4 < size.toNat → Replies s t 13 2 ∧ MotorAsQuiet s t) ∧
      (∀ sz, stepSizeOf size = some sz → Replies s t 13 0 ∧ t.motor.soSize = sz ∧ t.motor.soCount = count ∧
        t.motor = (quietCycle { s with motor := { s.motor with soSize := sz, soCount := count } } 12).motor)

/-! ## The switch commands -/

/-- SWITCH_DEBOUNCE (R220): DEBOUNCE_MS becomes the operand; a window in progress keeps its count (R227). -/
def Obligations.SwitchDebounceSetsThePeriod : Prop :=
  ∀ (s : State) (ms : Word), s.consistent = true →
    ∃ t, exec (.switchDebounce ms) s = .next t ∧ Replies s t 10 0 ∧
      t.sw = { (quietCycle s 12).sw with debounceMs := ms } ∧
      MotorAsQuiet s t ∧ LedAsQuiet s t ∧ RestAsQuiet s t

/-- EMERGENCY_STOP (R221): the latch sets and the motor is in ESTOP in the same cycle, with DONE_ESTOP if a motion ran
and the request cleared; while latched already it is a no-op with SUCCESS. -/
def Obligations.EmergencyStopLatches : Prop :=
  ∀ s : State, s.consistent = true →
    ∃ t, exec .emergencyStop s = .next t ∧ Replies s t 11 0 ∧
      t.sw = { (quietCycle s 12).sw with estopLatched := true } ∧
      (s.sw.estopLatched = false →
        t.motor = { s.motor with mState := .estop, reqSize := .full, reqCount := 0, reqDir := false, reqIgn := false,
                                 stepR := false, tickCnt := 0, doneValid := running s.motor,
                                 doneCode := if running s.motor then .estop else s.motor.doneCode }) ∧
      (s.sw.estopLatched = true → t.motor = { s.motor with doneValid := false }) ∧
      LedAsQuiet s t ∧ RestAsQuiet s t

/-- EMERGENCY_CLEAR (R222, R271): with the e-stop level inactive the latch clears and ESTOP returns to IDLE, nothing
restored or resumed and no event; with it active the reply is BLOCKED and the latch stays set. -/
def Obligations.EmergencyClearReturnsFromEstop : Prop :=
  ∀ s : State, s.consistent = true →
    ∃ t, exec .emergencyClear s = .next t ∧ LedAsQuiet s t ∧ RestAsQuiet s t ∧
      (s.sw.sync2.est = true →
        Replies s t 12 3 ∧ t.sw.estopLatched = true ∧ SwitchesAsQuiet s t ∧ MotorAsQuiet s t) ∧
      (s.sw.sync2.est = false →
        Replies s t 12 0 ∧ t.sw = { (quietCycle s 12).sw with estopLatched := false } ∧
        (s.sw.estopLatched = true → t.motor = { s.motor with mState := .idle, doneValid := false }) ∧
        (s.sw.estopLatched = false → MotorAsQuiet s t))

/-! ## The LED commands -/

/-- LED_PWM (R240): DIRECT mode, the clamped duty, the stage on unless the duty is +0.0, the tick phase restarted; the
window, the previous error, the target and the gains are what the cycle leaves them. -/
def Obligations.LedPwmSetsTheDuty : Prop :=
  ∀ (s : State) (duty : Word), s.consistent = true →
    ∃ t, exec (.ledPwm duty) s = .next t ∧ Replies s t 7 0 ∧
      t.led = { (quietCycle s 12).led with
                mode := .direct, duty := clamp01 duty, on := decide (clamp01 duty ≠ 0x00000000#32), tickCnt := 0 } ∧
      MotorAsQuiet s t ∧ SwitchesAsQuiet s t ∧ RestAsQuiet s t

/-- LED_VOLTAGE (R241): CLOSED mode with the target, every window entry and the previous error +0.0, the index and the
tick phase 0, the stage on; the duty and the gains are what the cycle leaves them. -/
def Obligations.LedVoltageRestartsTheLoop : Prop :=
  ∀ (s : State) (volts : Word), s.consistent = true →
    ∃ t, exec (.ledVoltage volts) s = .next t ∧ Replies s t 8 0 ∧
      t.led = { (quietCycle s 12).led with
                mode := .closed, target := volts, win := List.replicate s.cfg.pidWindow 0x00000000#32, idx := 0,
                prev := 0x00000000#32, on := true, tickCnt := 0 } ∧
      MotorAsQuiet s t ∧ SwitchesAsQuiet s t ∧ RestAsQuiet s t

/-- LED_PID (R242): the selected gain becomes the operand, any pattern; selector 3 is INVALID_ARG with no effect. -/
def Obligations.LedPidSetsOneGain : Prop :=
  ∀ (s : State) (value : Word) (sel : BitVec 2), s.consistent = true →
    ∃ t, exec (.ledPid value sel) s = .next t ∧ MotorAsQuiet s t ∧ SwitchesAsQuiet s t ∧ RestAsQuiet s t ∧
      (sel = 0 → Replies s t 9 0 ∧ t.led = { (quietCycle s 12).led with p := value }) ∧
      (sel = 1 → Replies s t 9 0 ∧ t.led = { (quietCycle s 12).led with i := value }) ∧
      (sel = 2 → Replies s t 9 0 ∧ t.led = { (quietCycle s 12).led with d := value }) ∧
      (sel = 3 → Replies s t 9 4 ∧ LedAsQuiet s t)

/-! ## The motor sub-step -/

/-- The per-tick transitions (R169, R173, R174, R176) of an undisturbed motion at its tick: SETUP programs the pins,
HIGH_HOLD moves on, FALLING lowers the pin and counts, LOW_HOLD repeats. -/
def Obligations.TickActionsWithoutAnEdge : Prop :=
  ∀ (p : Params) (m : Motor), m.tickCnt = m.tickDiv - 1 →
    (m.mState = .setup → motorFree (undisturbed p m) =
      { m with tickCnt := 0, dirR := m.reqDir, msR := p.msTable.get m.reqSize, stepR := false, mState := .stepRising,
               doneValid := false }) ∧
    (m.mState = .stepHighHold → motorFree (undisturbed p m) =
      { m with tickCnt := 0, mState := .stepFalling, doneValid := false }) ∧
    (m.mState = .stepFalling → motorFree (undisturbed p m) =
      { m with tickCnt := 0, stepR := false, reqCount := m.reqCount - 1, mState := .stepLowHold, doneValid := false }) ∧
    (m.mState = .stepLowHold → motorFree (undisturbed p m) =
      { m with tickCnt := 0, mState := .stepRising, doneValid := false })

/-- A request with count `n` that is not disturbed runs for `4n + 2` ticks of TICK_DIV cycles (R194) and ends with
DONE_OK, POSITION moved by `n` signed step distances modulo 2^32 (R192), and the pins it programmed kept (R189); it is
running in every cycle before. -/
def Obligations.MotionRunsItsStepsAndEnds : Prop :=
  ∀ (p : Params) (m : Motor), m.mState = .setup → m.tickCnt = 0 → 1 ≤ u32 m.tickDiv →
    motorRun p (u32 m.tickDiv * (4 * u32 m.reqCount + 2)) m =
      { m with mState := .idle, reqSize := .full, reqCount := 0, reqDir := false, reqIgn := false, stepR := false,
               tickCnt := 0, dirR := m.reqDir, msR := p.msTable.get m.reqSize, doneValid := true, doneCode := .ok,
               position := wrap32 (s32 m.position +
                 (if m.reqDir then -1 else 1) * (u32 m.reqCount * p.stepDist.get m.reqSize : Nat)) } ∧
    ∀ k, k < u32 m.tickDiv * (4 * u32 m.reqCount + 2) → running (motorRun p k m) = true

/-- A limit ends a motion without `ign` (R172, R177, R178): at a tick by an active level, in any cycle by a
confirmation. The request ends with DONE_LIMIT and POSITION kept; the state is IDLE, or SETUP of the reversed step-off
with `ign` where one is configured. Otherwise the limits do nothing (R177, R224): not to a motion with `ign`, not by a
level alone in a cycle that is no tick, not at rest or while latched. In a cycle with no command and no e-stop the levels
are SYNC2's, and a confirmation is a timer that fires under an active level (R219). -/
def Obligations.LimitAbortsTheMotion : Prop :=
  (∀ c : MotorCtx, running c.m = true → c.latched = false → c.m.reqIgn = false →
    (((c.lim1 = true ∨ c.lim2 = true) ∧ c.m.tickCnt = c.m.tickDiv - 1) ∨ c.confirm1 = true ∨ c.confirm2 = true) →
    motorFree c =
      (if c.m.soCount = 0 then
        { c.m with mState := .idle, reqSize := .full, reqCount := 0, reqDir := false, reqIgn := false, stepR := false,
                   tickCnt := 0, doneValid := true, doneCode := .limit }
       else
        { c.m with mState := .setup, reqSize := c.m.soSize, reqCount := c.m.soCount, reqDir := !c.m.reqDir,
                   reqIgn := true, stepR := false, tickCnt := 0, doneValid := true, doneCode := .limit })) ∧
  (∀ c : MotorCtx,
    (running c.m = true → c.latched = false → c.m.reqIgn = true ∨
      (c.confirm1 = false ∧ c.confirm2 = false ∧
        ((c.lim1 = false ∧ c.lim2 = false) ∨ c.m.tickCnt ≠ c.m.tickDiv - 1))) →
    motorFree c = motorFree { undisturbed c.cfg c.m with latched := c.latched }) ∧
  (∀ (s : State) (r : Nat), s.sw.sync2.est = false → s.sw.estopLatched = false →
    (quietCycle s r).motor = motorFree
      { cfg := s.cfg, m := s.motor, latched := false, lim1 := s.sw.sync2.lim1, lim2 := s.sw.sync2.lim2,
        confirm1 := s.sw.deb1.armed && decide (s.sw.deb1.cnt = 0) && s.sw.sync2.lim1,
        confirm2 := s.sw.deb2.armed && decide (s.sw.deb2.cnt = 0) && s.sw.sync2.lim2 })

/-! ## The debounce timers -/

/-- An edge arms an unarmed timer, which fires `period + 1` cycles later, edges in between ignored; the confirmation is
the level of the firing cycle (R219). In every running cycle SYNC1 takes the polarity-corrected pins and SYNC2 takes
SYNC1 (R215); each limit's timer reads its own SYNC2 level: LIM_PREV takes it, an armed timer that has not run out counts
down, and otherwise an edge arms with `DEBOUNCE_MS * (F_CLK_HZ / 1000)` (R33), no edge leaves it disarmed. -/
def Obligations.DebounceTimerFiresAfterItsPeriod : Prop :=
  (∀ (period : DWord) (d : Debounce) (lvl last : Bool) (between : List Bool), d.armed = false → lvl ≠ d.prev →
    between.length = period.toNat →
    (debounceRun period d (lvl :: (between ++ [last]))).2 = List.replicate (period.toNat + 1) false ++ [last]) ∧
  (∀ s t : State, Inv s → s.input.rst = false → step s = .next t →
    let timer (lvl : Bool) (d d' : Debounce) : Prop :=
      d'.prev = lvl ∧
      (d.armed = true ∧ d.cnt ≠ 0 → d'.armed = true ∧ d'.cnt.toNat = d.cnt.toNat - 1) ∧
      (¬ (d.armed = true ∧ d.cnt ≠ 0) → lvl ≠ d.prev →
        d'.armed = true ∧ d'.cnt.toNat = u32 s.sw.debounceMs * (s.cfg.fClkHz / 1000)) ∧
      (¬ (d.armed = true ∧ d.cnt ≠ 0) → lvl = d.prev → d'.armed = false ∧ d'.cnt = d.cnt)
    t.sw.sync1.lim1 = (s.input.lim1Pin ^^ s.cfg.lim1ActiveLow) ∧
    t.sw.sync1.lim2 = (s.input.lim2Pin ^^ s.cfg.lim2ActiveLow) ∧
    t.sw.sync1.est = (s.input.estopPin ^^ s.cfg.estopActiveLow) ∧
    t.sw.sync2 = s.sw.sync1 ∧
    timer s.sw.sync2.lim1 s.sw.deb1 t.sw.deb1 ∧ timer s.sw.sync2.lim2 s.sw.deb2 t.sw.deb2)

/-- Two confirmations of one limit input are at least `period + 1` cycles apart (R225). -/
def Obligations.ConfirmationsAreAPeriodApart : Prop :=
  ∀ (period : DWord) (d : Debounce) (lvls : List Bool) (i j : Nat), i < j →
    (debounceRun period d lvls).2[i]? = some true → (debounceRun period d lvls).2[j]? = some true →
    period.toNat + 1 ≤ j - i

/-! ## Binary32 and the LED -/

/-- `clamp01` (R237): a NaN, a value below +0.0 and -0.0 give +0.0, a value above 1.0 gives 1.0, any other is itself;
so the result is a pattern from +0.0 to 1.0. -/
def Obligations.ClampMapsIntoZeroToOne : Prop :=
  ∀ x : Word,
    (F32.isNaN x = true → clamp01 x = 0x00000000#32) ∧
    (F32.lt x 0x00000000#32 = true → clamp01 x = 0x00000000#32) ∧
    (F32.gt x 0x3F800000#32 = true → clamp01 x = 0x3F800000#32) ∧
    (x = 0x80000000#32 → clamp01 x = 0x00000000#32) ∧
    (x.toNat ≤ 0x3F800000 → clamp01 x = x) ∧
    (clamp01 x).toNat ≤ 0x3F800000

/-- Addition is rounded to nearest, ties to even (R15), in units of 2^-149: no finite value is nearer to the exact sum
than a finite result, and of two equally near the result is the even one; the result is infinite exactly from half an
ulp above the largest finite value on. Its sign is the exact sum's; an exact zero is -0.0 only where both operands are
negative. A NaN operand, and infinities of opposite signs, give a NaN; any other infinity is the result. Subtraction is
the addition of the operand with its sign changed, but for the pattern of a NaN, which is free (log 5). -/
def Obligations.AddRoundsToNearestEven : Prop :=
  (∀ a b c : Word, F32.isFinite a = true → F32.isFinite b = true → F32.isFinite c = true →
    let x := F32.value a + F32.value b
    let r := F32.add a b
    (F32.isInf r = true ↔ (2 ^ 25 - 1) * 2 ^ 252 ≤ x.natAbs) ∧ F32.isNaN r = false ∧
    (F32.isFinite r = true →
      (F32.value r - x).natAbs ≤ (F32.value c - x).natAbs ∧
      ((F32.value r - x).natAbs = (F32.value c - x).natAbs → F32.value c ≠ F32.value r → r.toNat % 2 = 0)) ∧
    (x ≠ 0 → F32.sign r = decide (x < 0)) ∧ (x = 0 → F32.sign r = (F32.sign a && F32.sign b))) ∧
  (∀ a b : Word,
    (F32.isNaN a = true ∨ F32.isNaN b = true → F32.isNaN (F32.add a b) = true) ∧
    (F32.isInf a = true → F32.isInf b = true → F32.sign a ≠ F32.sign b → F32.isNaN (F32.add a b) = true) ∧
    (F32.isInf a = true → F32.isNaN b = false → (F32.isInf b = true → F32.sign a = F32.sign b) →
      F32.add a b = a) ∧
    (F32.isFinite a = true → F32.isInf b = true → F32.add a b = b) ∧
    F32.isNaN (F32.sub a b) = F32.isNaN (F32.add a (b ^^^ 0x80000000#32)) ∧
    (F32.isNaN (F32.sub a b) = false → F32.sub a b = F32.add a (b ^^^ 0x80000000#32)))

/-- Multiplication is rounded to nearest, ties to even (R15), in units of 2^-298. The sign of every result that is no
NaN, zero and infinite ones too, is the exclusive or of the operands' signs. A NaN operand, and infinity times zero,
give a NaN; any other infinity gives an infinity. -/
def Obligations.MulRoundsToNearestEven : Prop :=
  (∀ a b c : Word, F32.isFinite a = true → F32.isFinite b = true → F32.isFinite c = true →
    let x := F32.value a * F32.value b
    let r := F32.mul a b
    (F32.isInf r = true ↔ (2 ^ 25 - 1) * 2 ^ 401 ≤ x.natAbs) ∧ F32.isNaN r = false ∧
    (F32.isFinite r = true →
      (F32.value r * 2 ^ 149 - x).natAbs ≤ (F32.value c * 2 ^ 149 - x).natAbs ∧
      ((F32.value r * 2 ^ 149 - x).natAbs = (F32.value c * 2 ^ 149 - x).natAbs → F32.value c ≠ F32.value r →
        r.toNat % 2 = 0))) ∧
  (∀ a b : Word,
    (F32.isNaN (F32.mul a b) = false → F32.sign (F32.mul a b) = (F32.sign a ^^ F32.sign b)) ∧
    (F32.isNaN a = true ∨ F32.isNaN b = true → F32.isNaN (F32.mul a b) = true) ∧
    (F32.isInf a = true → F32.isFinite b = true →
      if F32.value b = 0 then F32.isNaN (F32.mul a b) = true else F32.isInf (F32.mul a b) = true) ∧
    (F32.isFinite a = true → F32.isInf b = true →
      if F32.value a = 0 then F32.isNaN (F32.mul a b) = true else F32.isInf (F32.mul a b) = true) ∧
    (F32.isInf a = true → F32.isInf b = true → F32.isInf (F32.mul a b) = true))

/-- The LED sub-step of a cycle with no LED command. In DIRECT mode nothing but PWM_CNT moves; in CLOSED mode a cycle
that is no tick counts LED_TICK_CNT (R238); a tick takes the PID step (R239, R244): the sample in volts, the error, the
window with its oldest entry replaced, its sum in index order from +0.0, the derivative, the three terms added left to
right, the clamped duty. PWM_CNT steps in each of them (R246). -/
def Obligations.ClosedLoopTickComputesThePid : Prop :=
  ∀ (s : State) (r : Nat),
    (s.led.mode = .direct → (quietCycle s r).led = { s.led with pwmCnt := (s.led.pwmCnt + 1) % s.cfg.pwmPeriod }) ∧
    (s.led.mode = .closed → s.led.tickCnt.toNat ≠ s.cfg.ledTickDiv - 1 → (quietCycle s r).led =
      { s.led with tickCnt := s.led.tickCnt + 1, pwmCnt := (s.led.pwmCnt + 1) % s.cfg.pwmPeriod }) ∧
    (s.led.mode = .closed → s.led.tickCnt.toNat = s.cfg.ledTickDiv - 1 →
      let v := F32.mul (F32.ofNat (s.input.adcSample.toNat % 2 ^ s.cfg.adcBits)) s.cfg.adcLsbVolts
      let e := F32.sub s.led.target v
      let win := s.led.win.set s.led.idx e
      let integ := win.foldl F32.add 0x00000000#32
      let deriv := F32.sub e s.led.prev
      (quietCycle s r).led =
        { s.led with
          win := win, idx := (s.led.idx + 1) % s.cfg.pidWindow, prev := e, tickCnt := 0,
          duty := clamp01 (F32.add (F32.add (F32.mul s.led.p e) (F32.mul s.led.i integ)) (F32.mul s.led.d deriv)),
          pwmCnt := (s.led.pwmCnt + 1) % s.cfg.pwmPeriod })

/-- The conversion of an ADC code is exact (R15): for `n < 2^24`, `float32(n)` is finite and its value is `n`. -/
def Obligations.SmallIntegersConvertExactly : Prop :=
  ∀ n : Nat, n < 2 ^ 24 → F32.isFinite (F32.ofNat n) = true ∧ F32.value (F32.ofNat n) = (n : Int) * 2 ^ 149

/-- `led_pwm` is low while LED_ON is 0. While the LED registers stay as they are and LED_ON is 1, it is high for `n =
floor(duty * PWM_PERIOD)` of the PWM_PERIOD counter values (R246), `n <= duty * PWM_PERIOD < n + 1` over the reals with
the duty read from its exponent and fraction fields in units of 2^-149; duty 1.0 gives all. -/
def Obligations.PwmIsHighForTheDuty : Prop :=
  (∀ (p : Params) (l : Led), l.on = false → ledPwmOut p l = false) ∧
  (∀ (p : Params) (l : Led), p.legal = true → l.consistent p = true → l.on = true →
    let expo := l.duty.toNat / 2 ^ 23
    let frac := l.duty.toNat % 2 ^ 23
    let units := if expo = 0 then frac else (2 ^ 23 + frac) * 2 ^ (expo - 1)
    let n := (List.range p.pwmPeriod).countP (fun k => ledPwmOut p { l with pwmCnt := k })
    n * 2 ^ 149 ≤ units * p.pwmPeriod ∧ units * p.pwmPeriod < (n + 1) * 2 ^ 149 ∧
    (∀ k, ledPwmOut p { l with pwmCnt := k } = true ↔ k < n) ∧
    (l.duty = 0x3F800000#32 → n = p.pwmPeriod))

/-! ## Quiescence -/

/-- A quiescent block that gets no byte stays quiescent, takes no command and keeps the driver off (R302): of the motor
only the completion pulse drops, unless an e-stop is taken; the frame path and the settings stay as they are. -/
def Obligations.QuiescentBlockStaysQuiescent : Prop :=
  ∀ (s t : State), Inv s → quiescent s = true → s.input.rst = false → s.input.rxValid = false → step s = .next t →
    quiescent t = true ∧ dispatched s = none ∧ t.rb = s.rb ∧ t.reply = s.reply ∧ driverOff t ∧
    (s.sw.sync2.est = false ∨ s.sw.estopLatched = true → t.motor = { s.motor with doneValid := false }) ∧
    t.sw.debounceMs = s.sw.debounceMs ∧ t.led.mode = s.led.mode ∧ t.led.on = s.led.on ∧
    t.led.target = s.led.target ∧ t.led.p = s.led.p ∧ t.led.i = s.led.i ∧ t.led.d = s.led.d
end

