-- ==== Sys2Proof/Laws/Checksum.lean ====
section
/-! SUPPORT. The CRC engine (41_checksum.md): each step, the table and the running CRC are linear over XOR. -/

namespace Sys2Proof.Machine

/-- One shift is linear. -/
theorem crcShift_xor {w : Nat} (poly a b : BitVec w) :
    crcShift poly (a ^^^ b) = crcShift poly a ^^^ crcShift poly b := by
  unfold crcShift
  rw [BitVec.getLsbD_xor, BitVec.ushiftRight_xor_distrib]
  cases a.getLsbD 0 <;> cases b.getLsbD 0 <;> simp only [Bool.xor_false, Bool.false_xor, Bool.xor_self, if_true,
    if_false, Bool.false_eq_true] <;> ext i hi <;> simp only [BitVec.getElem_xor] <;>
    cases (a >>> 1)[i] <;> cases (b >>> 1)[i] <;> cases poly[i] <;> rfl

/-- Several shifts are linear. -/
theorem crcShifts_xor {w : Nat} (poly : BitVec w) (n : Nat) (a b : BitVec w) :
    crcShifts poly n (a ^^^ b) = crcShifts poly n a ^^^ crcShifts poly n b := by
  induction n generalizing a b with
  | zero => rfl
  | succ n ih => simp only [crcShifts]; rw [crcShift_xor, ih]

/-- The table is linear. -/
theorem t8_xor (poly a b : Byte) : t8 poly (a ^^^ b) = t8 poly a ^^^ t8 poly b := crcShifts_xor poly 8 a b

/-- The running CRC over an appended string goes on from the first part's. -/
theorem crc8From_append (poly c : Byte) (xs ys : List Byte) :
    crc8From poly c (xs ++ ys) = crc8From poly (crc8From poly c xs) ys := List.foldl_append

/-- The running CRC over one more byte at the front. -/
theorem crc8From_cons (poly c b : Byte) (bs : List Byte) :
    crc8From poly c (b :: bs) = crc8From poly (t8 poly (c ^^^ b)) bs := rfl

/-- A difference in the starting value goes through the bytes on its own. -/
theorem crc8From_xor (poly c d : Byte) (bs : List Byte) :
    crc8From poly (c ^^^ d) bs = crc8From poly c bs ^^^ crc8From poly d (List.replicate bs.length 0) := by
  induction bs generalizing c d with
  | nil => rfl
  | cons b bs ih =>
    rw [crc8From_cons, crc8From_cons, List.length_cons, List.replicate_succ, crc8From_cons, ← ih, ← t8_xor]
    congr 2
    rw [BitVec.xor_assoc, BitVec.xor_comm d b, ← BitVec.xor_assoc]
    exact congrArg _ (BitVec.xor_zero (x := d)).symm

end Sys2Proof.Machine
end

