-- ==== Sys2Proof/Laws/Float.lean ====
section
/-! SUPPORT. Binary32 patterns: sign and magnitude of a packed value, NaN results, the patterns from +0.0 to 1.0,
`clamp01`, rounding, and the classes of patterns. -/

namespace Sys2Proof.Machine

/-- A magnitude is below 2^31. -/
theorem F32.mag_lt (a : Word) : F32.mag a < 2 ^ 31 := Nat.mod_lt _ (by decide)

/-- The sign bit is the pattern's top half. -/
theorem F32.sign_eq (a : Word) : F32.sign a = decide (2 ^ 31 ≤ a.toNat) := by
  have h : a.toNat < 2 ^ 32 := a.isLt
  simp only [F32.sign, BitVec.getLsbD, Nat.testBit_eq_decide_div_mod_eq, decide_eq_decide]
  omega

/-- A pattern is its sign and its magnitude. -/
theorem F32.toNat_eq (a : Word) : a.toNat = (if F32.sign a then 2 ^ 31 else 0) + F32.mag a := by
  have h : a.toNat < 2 ^ 32 := a.isLt
  rw [F32.sign_eq, F32.mag]
  (split; rename_i h1; simp only [decide_eq_true_eq] at h1; omega); rename_i h1; simp only [decide_eq_true_eq] at h1; omega

/-- The number of a packed pattern. -/
theorem F32.toNat_pack (neg : Bool) (m : Nat) (h : m < 2 ^ 31) :
    (F32.pack neg m).toNat = (if neg then 2 ^ 31 else 0) + m := by
  simp only [F32.pack, BitVec.toNat_ofNat]
  split <;> exact Nat.mod_eq_of_lt (by omega)

/-- The magnitude of a packed pattern. -/
theorem F32.mag_pack (neg : Bool) (m : Nat) (h : m < 2 ^ 31) : F32.mag (F32.pack neg m) = m := by
  rw [F32.mag, F32.toNat_pack neg m h]; split <;> omega

/-- The sign of a packed pattern. -/
theorem F32.sign_pack (neg : Bool) (m : Nat) (h : m < 2 ^ 31) : F32.sign (F32.pack neg m) = neg := by
  rw [F32.sign_eq, F32.toNat_pack neg m h]
  cases neg
  · simp; omega
  · simp

/-- Two patterns of one sign and one magnitude are equal. -/
theorem F32.eq_of_sign_mag {a b : Word} (hs : F32.sign a = F32.sign b) (hm : F32.mag a = F32.mag b) : a = b := by
  apply BitVec.eq_of_toNat_eq
  rw [F32.toNat_eq a, F32.toNat_eq b, hs, hm]

/-- A NaN is a magnitude above that of infinity. -/
theorem F32.isNaN_iff (a : Word) : F32.isNaN a = true ↔ 0x7F800000 < F32.mag a := by
  unfold F32.isNaN F32.infMag; exact decide_eq_true_iff

/-- `<` on patterns that are no NaN, by their keys. -/
theorem F32.lt_iff (a b : Word) : F32.lt a b = true ↔
    F32.mag a ≤ 0x7F800000 ∧ F32.mag b ≤ 0x7F800000 ∧ F32.key a < F32.key b := by
  have h : ∀ x : Word, (!F32.isNaN x) = true ↔ F32.mag x ≤ 0x7F800000 := fun x => by
    rw [Bool.not_eq_true', Bool.eq_false_iff, Ne, F32.isNaN_iff, Nat.not_lt]
  unfold F32.lt
  rw [Bool.and_eq_true, Bool.and_eq_true, h, h, decide_eq_true_iff, and_assoc]

/-- The free NaN is a NaN, whatever its sign and fraction. -/
theorem F32.isNaN_nan (op : FloatOp) (a b : Word) : F32.isNaN (F32.nan op a b) = true := by
  have hf : (Config.nanFraction op a b).toNat < 2 ^ 23 := (Config.nanFraction op a b).isLt
  have h0 : Config.nanFraction op a b ≠ 0 → 0 < (Config.nanFraction op a b).toNat := fun h =>
    Nat.pos_of_ne_zero (fun e => h (BitVec.eq_of_toNat_eq e))
  rw [F32.isNaN_iff, F32.nan]
  by_cases h : Config.nanFraction op a b = 0
  · rw [if_pos h, F32.mag_pack _ _ (by unfold F32.infMag; omega)]; unfold F32.infMag; omega
  · have := h0 h
    rw [if_neg h, F32.mag_pack _ _ (by unfold F32.infMag; omega)]; unfold F32.infMag; omega

/-- The patterns from +0.0 to 1.0 are the numbers up to that of 1.0. -/
theorem dutyInRange_iff (d : Word) : dutyInRange d = true ↔ d.toNat ≤ 0x3F800000 := by
  have hd := F32.toNat_eq d
  have hm := F32.mag_lt d
  have hz : d ≠ F32.negZero ↔ d.toNat ≠ 2147483648 := by
    rw [Ne, ← BitVec.toNat_inj]; exact Iff.rfl
  have hn : (!F32.isNaN d) = true ↔ F32.mag d ≤ 0x7F800000 := by
    rw [Bool.not_eq_true', Bool.eq_false_iff, Ne, F32.isNaN_iff, Nat.not_lt]
  have hl : (!F32.lt d F32.posZero) = true ↔
      ¬ (F32.mag d ≤ 0x7F800000 ∧ F32.mag F32.posZero ≤ 0x7F800000 ∧ F32.key d < F32.key F32.posZero) := by
    rw [Bool.not_eq_true', Bool.eq_false_iff, Ne, F32.lt_iff]
  have hg : (!F32.gt d F32.one) = true ↔
      ¬ (F32.mag F32.one ≤ 0x7F800000 ∧ F32.mag d ≤ 0x7F800000 ∧ F32.key F32.one < F32.key d) := by
    rw [Bool.not_eq_true', Bool.eq_false_iff, Ne, F32.gt, F32.lt_iff]
  rw [show F32.mag F32.posZero = 0 from rfl, show F32.key F32.posZero = 0 from rfl] at hl
  rw [show F32.mag F32.one = 1065353216 from rfl, show F32.key F32.one = 1065353216 from rfl] at hg
  unfold dutyInRange
  rw [Bool.and_eq_true, Bool.and_eq_true, Bool.and_eq_true, hn, hl, hg, decide_eq_true_iff, hz, F32.key]
  cases hs : F32.sign d
  · rw [hs, if_neg Bool.false_ne_true] at hd; rw [if_neg Bool.false_ne_true]; omega
  · rw [hs, if_pos rfl] at hd; rw [if_pos rfl]; omega

/-- `clamp01` of a pattern from +0.0 to 1.0 is itself. -/
theorem clamp01_of_le {x : Word} (h : x.toNat ≤ 0x3F800000) : clamp01 x = x := by
  have hr := (dutyInRange_iff x).mpr h
  simp only [dutyInRange, Bool.and_eq_true, Bool.not_eq_true', decide_eq_true_eq] at hr
  obtain ⟨⟨⟨h1, h2⟩, h3⟩, h4⟩ := hr
  simp only [clamp01, h1, h2, h3, Bool.false_eq_true, if_false, if_neg h4]

/-- `clamp01` gives one of +0.0, 1.0 and its argument. -/
theorem clamp01_cases (x : Word) : clamp01 x = F32.posZero ∨ clamp01 x = F32.one ∨
    (clamp01 x = x ∧ dutyInRange x = true) := by
  unfold clamp01
  split
  · exact Or.inl rfl
  split
  · exact Or.inl rfl
  split
  · exact Or.inr (Or.inl rfl)
  split
  · exact Or.inl rfl
  · refine Or.inr (Or.inr ⟨rfl, ?_⟩)
    simp_all [dutyInRange]

/-- The clamped duty is in range. -/
theorem dutyInRange_clamp01 (x : Word) : dutyInRange (clamp01 x) = true := by
  rcases clamp01_cases x with h | h | ⟨h, hr⟩
  · rw [h]; rfl
  · rw [h]; rfl
  · rw [h]; exact hr

/-! ## Rounding -/

/-- A number has as many bits as its length says. -/
theorem lt_two_pow_bitLength (m : Nat) : m < 2 ^ bitLength m := by
  unfold bitLength
  split
  · subst_vars; decide
  · exact Nat.lt_log2_self

/-- A number that is not zero has its top bit set. -/
theorem two_pow_bitLength_le {m : Nat} (h : m ≠ 0) : 2 ^ bitLength m ≤ 2 * m := by
  unfold bitLength
  rw [if_neg h, Nat.pow_succ]
  have := Nat.log2_self_le h
  omega

/-- `roundShift` is within half a unit of the exact quotient, and even at a tie. -/
theorem roundShift_near (m n : Nat) :
    2 * (roundShift m n * 2 ^ n) ≤ 2 * m + 2 ^ n ∧ 2 * m ≤ 2 * (roundShift m n * 2 ^ n) + 2 ^ n ∧
    (2 * (roundShift m n * 2 ^ n) = 2 * m + 2 ^ n ∨ 2 * m = 2 * (roundShift m n * 2 ^ n) + 2 ^ n →
      roundShift m n % 2 = 0) := by
  have hd : 2 ^ n * (m / 2 ^ n) + m % 2 ^ n = m := Nat.div_add_mod m (2 ^ n)
  have hr : m % 2 ^ n < 2 ^ n := Nat.mod_lt _ (Nat.two_pow_pos n)
  unfold roundShift
  simp only
  generalize m / 2 ^ n = q at *
  generalize m % 2 ^ n = r at *
  generalize 2 ^ n = t at *
  rw [Nat.mul_comm] at hd
  split
  · refine ⟨by omega, by omega, fun h => by omega⟩
  · split
    · rw [Nat.add_mul]
      refine ⟨by omega, by omega, fun h => by omega⟩
    · have hq : q % 2 = 0 ∨ q % 2 = 1 := by omega
      rcases hq with e | e <;> rw [e]
      · rw [Nat.add_zero]
        refine ⟨by omega, by omega, fun _ => by omega⟩
      · rw [Nat.add_mul]
        refine ⟨by omega, by omega, fun _ => by omega⟩

/-- A rounded magnitude is at most infinity's. -/
theorem F32.roundMag_le (m drop : Nat) : F32.roundMag m drop ≤ 0x7F800000 := Nat.min_le_left _ _

/-- A rounded result is no NaN. -/
theorem F32.isNaN_pack_roundMag (neg : Bool) (m drop : Nat) :
    F32.isNaN (F32.pack neg (F32.roundMag m drop)) = false := by
  have h := F32.roundMag_le m drop
  rw [Bool.eq_false_iff, Ne, F32.isNaN_iff, F32.mag_pack _ _ (by omega)]
  omega

/-- The sign of a rounded result is the one it is packed with. -/
theorem F32.sign_pack_roundMag (neg : Bool) (m drop : Nat) :
    F32.sign (F32.pack neg (F32.roundMag m drop)) = neg :=
  F32.sign_pack _ _ (by have := F32.roundMag_le m drop; omega)

/-! ## The three classes of patterns -/

/-- A finite pattern is no NaN and no infinity. -/
theorem F32.isFinite_not {a : Word} (h : F32.isFinite a = true) : F32.isNaN a = false ∧ F32.isInf a = false := by
  simp only [F32.isFinite, decide_eq_true_eq] at h
  simp only [F32.isNaN, F32.isInf, decide_eq_false_iff_not]
  omega

/-- An infinity is no NaN and not finite. -/
theorem F32.isInf_not {a : Word} (h : F32.isInf a = true) : F32.isNaN a = false ∧ F32.isFinite a = false := by
  simp only [F32.isInf, decide_eq_true_eq] at h
  simp only [F32.isNaN, F32.isFinite, decide_eq_false_iff_not]
  omega

/-- Only the two zeros have the value 0. -/
theorem F32.value_eq_zero (a : Word) : F32.value a = 0 ↔ F32.mag a = 0 := by
  have h : F32.units a = 0 ↔ F32.mag a = 0 := by
    unfold F32.units F32.expo F32.frac
    split
    · omega
    · rename_i h0
      refine ⟨fun h => absurd h (by positivity), fun h => absurd ?_ h0⟩
      rw [h, Nat.zero_div]
  rw [← h, F32.value]
  split <;> omega

end Sys2Proof.Machine
end

