-- ==== Sys2Proof/Laws/State.lean ====
section
/-! SUPPORT. One lemma for each field of each update of the state, true by `rfl` and simp, so that no later proof
unfolds a record update. -/

namespace Sys2Proof.Machine

/-! ## `Motor.clear` and `Motor.load` -/

@[simp] theorem Motor.clear_mState (m : Motor) :
    m.clear.mState = .idle := rfl

@[simp] theorem Motor.clear_position (m : Motor) :
    m.clear.position = m.position := rfl

@[simp] theorem Motor.clear_tickDiv (m : Motor) :
    m.clear.tickDiv = m.tickDiv := rfl

@[simp] theorem Motor.clear_tickCnt (m : Motor) :
    m.clear.tickCnt = 0 := rfl

@[simp] theorem Motor.clear_reqSize (m : Motor) :
    m.clear.reqSize = .full := rfl

@[simp] theorem Motor.clear_reqCount (m : Motor) :
    m.clear.reqCount = 0 := rfl

@[simp] theorem Motor.clear_reqDir (m : Motor) :
    m.clear.reqDir = false := rfl

@[simp] theorem Motor.clear_reqIgn (m : Motor) :
    m.clear.reqIgn = false := rfl

@[simp] theorem Motor.clear_soSize (m : Motor) :
    m.clear.soSize = m.soSize := rfl

@[simp] theorem Motor.clear_soCount (m : Motor) :
    m.clear.soCount = m.soCount := rfl

@[simp] theorem Motor.clear_stepR (m : Motor) :
    m.clear.stepR = false := rfl

@[simp] theorem Motor.clear_dirR (m : Motor) :
    m.clear.dirR = m.dirR := rfl

@[simp] theorem Motor.clear_msR (m : Motor) :
    m.clear.msR = m.msR := rfl

@[simp] theorem Motor.clear_doneValid (m : Motor) :
    m.clear.doneValid = m.doneValid := rfl

@[simp] theorem Motor.clear_doneCode (m : Motor) :
    m.clear.doneCode = m.doneCode := rfl

@[simp] theorem Motor.load_mState (m : Motor) (size : StepSize) (count : Word) (dir ign : Bool) :
    (m.load size count dir ign).mState = .setup := rfl

@[simp] theorem Motor.load_position (m : Motor) (size : StepSize) (count : Word) (dir ign : Bool) :
    (m.load size count dir ign).position = m.position := rfl

@[simp] theorem Motor.load_tickDiv (m : Motor) (size : StepSize) (count : Word) (dir ign : Bool) :
    (m.load size count dir ign).tickDiv = m.tickDiv := rfl

@[simp] theorem Motor.load_tickCnt (m : Motor) (size : StepSize) (count : Word) (dir ign : Bool) :
    (m.load size count dir ign).tickCnt = 0 := rfl

@[simp] theorem Motor.load_reqSize (m : Motor) (size : StepSize) (count : Word) (dir ign : Bool) :
    (m.load size count dir ign).reqSize = size := rfl

@[simp] theorem Motor.load_reqCount (m : Motor) (size : StepSize) (count : Word) (dir ign : Bool) :
    (m.load size count dir ign).reqCount = count := rfl

@[simp] theorem Motor.load_reqDir (m : Motor) (size : StepSize) (count : Word) (dir ign : Bool) :
    (m.load size count dir ign).reqDir = dir := rfl

@[simp] theorem Motor.load_reqIgn (m : Motor) (size : StepSize) (count : Word) (dir ign : Bool) :
    (m.load size count dir ign).reqIgn = ign := rfl

@[simp] theorem Motor.load_soSize (m : Motor) (size : StepSize) (count : Word) (dir ign : Bool) :
    (m.load size count dir ign).soSize = m.soSize := rfl

@[simp] theorem Motor.load_soCount (m : Motor) (size : StepSize) (count : Word) (dir ign : Bool) :
    (m.load size count dir ign).soCount = m.soCount := rfl

@[simp] theorem Motor.load_stepR (m : Motor) (size : StepSize) (count : Word) (dir ign : Bool) :
    (m.load size count dir ign).stepR = m.stepR := rfl

@[simp] theorem Motor.load_dirR (m : Motor) (size : StepSize) (count : Word) (dir ign : Bool) :
    (m.load size count dir ign).dirR = m.dirR := rfl

@[simp] theorem Motor.load_msR (m : Motor) (size : StepSize) (count : Word) (dir ign : Bool) :
    (m.load size count dir ign).msR = m.msR := rfl

@[simp] theorem Motor.load_doneValid (m : Motor) (size : StepSize) (count : Word) (dir ign : Bool) :
    (m.load size count dir ign).doneValid = m.doneValid := rfl

@[simp] theorem Motor.load_doneCode (m : Motor) (size : StepSize) (count : Word) (dir ign : Bool) :
    (m.load size count dir ign).doneCode = m.doneCode := rfl

/-! ## The completion event -/

@[simp] theorem motorDone_mState (p : MotorEv) :
    (motorDone p).mState = p.1.mState := rfl

@[simp] theorem motorDone_position (p : MotorEv) :
    (motorDone p).position = p.1.position := rfl

@[simp] theorem motorDone_tickDiv (p : MotorEv) :
    (motorDone p).tickDiv = p.1.tickDiv := rfl

@[simp] theorem motorDone_tickCnt (p : MotorEv) :
    (motorDone p).tickCnt = p.1.tickCnt := rfl

@[simp] theorem motorDone_reqSize (p : MotorEv) :
    (motorDone p).reqSize = p.1.reqSize := rfl

@[simp] theorem motorDone_reqCount (p : MotorEv) :
    (motorDone p).reqCount = p.1.reqCount := rfl

@[simp] theorem motorDone_reqDir (p : MotorEv) :
    (motorDone p).reqDir = p.1.reqDir := rfl

@[simp] theorem motorDone_reqIgn (p : MotorEv) :
    (motorDone p).reqIgn = p.1.reqIgn := rfl

@[simp] theorem motorDone_soSize (p : MotorEv) :
    (motorDone p).soSize = p.1.soSize := rfl

@[simp] theorem motorDone_soCount (p : MotorEv) :
    (motorDone p).soCount = p.1.soCount := rfl

@[simp] theorem motorDone_stepR (p : MotorEv) :
    (motorDone p).stepR = p.1.stepR := rfl

@[simp] theorem motorDone_dirR (p : MotorEv) :
    (motorDone p).dirR = p.1.dirR := rfl

@[simp] theorem motorDone_msR (p : MotorEv) :
    (motorDone p).msR = p.1.msR := rfl

@[simp] theorem motorDone_doneValid (p : MotorEv) :
    (motorDone p).doneValid = p.2.isSome := rfl

@[simp] theorem motorDone_doneCode (p : MotorEv) :
    (motorDone p).doneCode = p.2.getD p.1.doneCode := rfl

/-! ## Taking and leaving the fault state -/

@[simp] theorem takeEstop_mState (m : Motor) :
    (takeEstop m).1.mState = .estop := rfl

@[simp] theorem takeEstop_position (m : Motor) :
    (takeEstop m).1.position = m.position := rfl

@[simp] theorem takeEstop_tickDiv (m : Motor) :
    (takeEstop m).1.tickDiv = m.tickDiv := rfl

@[simp] theorem takeEstop_tickCnt (m : Motor) :
    (takeEstop m).1.tickCnt = 0 := rfl

@[simp] theorem takeEstop_reqSize (m : Motor) :
    (takeEstop m).1.reqSize = .full := rfl

@[simp] theorem takeEstop_reqCount (m : Motor) :
    (takeEstop m).1.reqCount = 0 := rfl

@[simp] theorem takeEstop_reqDir (m : Motor) :
    (takeEstop m).1.reqDir = false := rfl

@[simp] theorem takeEstop_reqIgn (m : Motor) :
    (takeEstop m).1.reqIgn = false := rfl

@[simp] theorem takeEstop_soSize (m : Motor) :
    (takeEstop m).1.soSize = m.soSize := rfl

@[simp] theorem takeEstop_soCount (m : Motor) :
    (takeEstop m).1.soCount = m.soCount := rfl

@[simp] theorem takeEstop_stepR (m : Motor) :
    (takeEstop m).1.stepR = false := rfl

@[simp] theorem takeEstop_dirR (m : Motor) :
    (takeEstop m).1.dirR = m.dirR := rfl

@[simp] theorem takeEstop_msR (m : Motor) :
    (takeEstop m).1.msR = m.msR := rfl

@[simp] theorem takeEstop_doneValid (m : Motor) :
    (takeEstop m).1.doneValid = m.doneValid := rfl

@[simp] theorem takeEstop_doneCode (m : Motor) :
    (takeEstop m).1.doneCode = m.doneCode := rfl

@[simp] theorem takeEstop_event (m : Motor) :
    (takeEstop m).2 = if running m then some .estop else none := rfl

@[simp] theorem returnFromEstop_mState (m : Motor) :
    (returnFromEstop m).1.mState = .idle := rfl

@[simp] theorem returnFromEstop_position (m : Motor) :
    (returnFromEstop m).1.position = m.position := rfl

@[simp] theorem returnFromEstop_tickDiv (m : Motor) :
    (returnFromEstop m).1.tickDiv = m.tickDiv := rfl

@[simp] theorem returnFromEstop_tickCnt (m : Motor) :
    (returnFromEstop m).1.tickCnt = m.tickCnt := rfl

@[simp] theorem returnFromEstop_reqSize (m : Motor) :
    (returnFromEstop m).1.reqSize = m.reqSize := rfl

@[simp] theorem returnFromEstop_reqCount (m : Motor) :
    (returnFromEstop m).1.reqCount = m.reqCount := rfl

@[simp] theorem returnFromEstop_reqDir (m : Motor) :
    (returnFromEstop m).1.reqDir = m.reqDir := rfl

@[simp] theorem returnFromEstop_reqIgn (m : Motor) :
    (returnFromEstop m).1.reqIgn = m.reqIgn := rfl

@[simp] theorem returnFromEstop_soSize (m : Motor) :
    (returnFromEstop m).1.soSize = m.soSize := rfl

@[simp] theorem returnFromEstop_soCount (m : Motor) :
    (returnFromEstop m).1.soCount = m.soCount := rfl

@[simp] theorem returnFromEstop_stepR (m : Motor) :
    (returnFromEstop m).1.stepR = m.stepR := rfl

@[simp] theorem returnFromEstop_dirR (m : Motor) :
    (returnFromEstop m).1.dirR = m.dirR := rfl

@[simp] theorem returnFromEstop_msR (m : Motor) :
    (returnFromEstop m).1.msR = m.msR := rfl

@[simp] theorem returnFromEstop_doneValid (m : Motor) :
    (returnFromEstop m).1.doneValid = m.doneValid := rfl

@[simp] theorem returnFromEstop_doneCode (m : Motor) :
    (returnFromEstop m).1.doneCode = m.doneCode := rfl

@[simp] theorem returnFromEstop_event (m : Motor) :
    (returnFromEstop m).2 = none := rfl

/-! ## The switch sampler -/

@[simp] theorem switchesNext_sync1 (s : State) (set clear : Bool) :
    (switchesNext s set clear).sync1 = pinLevels s.cfg s.input := rfl

@[simp] theorem switchesNext_sync2 (s : State) (set clear : Bool) :
    (switchesNext s set clear).sync2 = s.sw.sync1 := rfl

@[simp] theorem switchesNext_deb1 (s : State) (set clear : Bool) :
    (switchesNext s set clear).deb1 = (debounce1 s).1 := rfl

@[simp] theorem switchesNext_deb2 (s : State) (set clear : Bool) :
    (switchesNext s set clear).deb2 = (debounce2 s).1 := rfl

@[simp] theorem switchesNext_debounceMs (s : State) (set clear : Bool) :
    (switchesNext s set clear).debounceMs = s.sw.debounceMs := rfl

@[simp] theorem switchesNext_estopLatched (s : State) (set clear : Bool) :
    (switchesNext s set clear).estopLatched = latchNext s.sw.sync2.est set clear s.sw.estopLatched := rfl

/-! ## The motor sub-step's context -/

@[simp] theorem motorCtx_cfg (s : State) (h : Handler) :
    (motorCtx s h).cfg = s.cfg := rfl

@[simp] theorem motorCtx_m (s : State) (h : Handler) :
    (motorCtx s h).m = s.motor := rfl

@[simp] theorem motorCtx_latched (s : State) (h : Handler) :
    (motorCtx s h).latched = latchNext s.sw.sync2.est h.set h.clear s.sw.estopLatched := rfl

@[simp] theorem motorCtx_lim1 (s : State) (h : Handler) :
    (motorCtx s h).lim1 = s.sw.sync2.lim1 := rfl

@[simp] theorem motorCtx_lim2 (s : State) (h : Handler) :
    (motorCtx s h).lim2 = s.sw.sync2.lim2 := rfl

@[simp] theorem motorCtx_confirm1 (s : State) (h : Handler) :
    (motorCtx s h).confirm1 = (debounce1 s).2 := rfl

@[simp] theorem motorCtx_confirm2 (s : State) (h : Handler) :
    (motorCtx s h).confirm2 = (debounce2 s).2 := rfl

/-! ## The cycle -/

@[simp] theorem cycleStep_cfg (s : State) (removed : Nat) (h : Handler) :
    (cycleStep s removed h).cfg = s.cfg := rfl

@[simp] theorem cycleStep_motor (s : State) (removed : Nat) (h : Handler) :
    (cycleStep s removed h).motor = h.motor (motorCtx s h) := rfl

@[simp] theorem cycleStep_sw (s : State) (removed : Nat) (h : Handler) :
    (cycleStep s removed h).sw = h.switches (switchesNext s h.set h.clear) := rfl

@[simp] theorem cycleStep_led (s : State) (removed : Nat) (h : Handler) :
    (cycleStep s removed h).led = h.led (ledFree s.cfg s.input s.led) := rfl

@[simp] theorem cycleStep_rb (s : State) (removed : Nat) (h : Handler) :
    (cycleStep s removed h).rb = RingBuf.cycle s.cfg s.rb removed s.input := rfl

@[simp] theorem cycleStep_reply (s : State) (removed : Nat) (h : Handler) :
    (cycleStep s removed h).reply = txStep s.input s.reply := rfl

@[simp] theorem cycleStep_inputs (s : State) (removed : Nat) (h : Handler) :
    (cycleStep s removed h).inputs = s.inputs.tail := rfl

@[simp] theorem cycleStep_cycle (s : State) (removed : Nat) (h : Handler) :
    (cycleStep s removed h).cycle = s.cycle + 1 := rfl

@[simp] theorem quietCycle_cfg (s : State) (removed : Nat) :
    (quietCycle s removed).cfg = s.cfg := rfl

@[simp] theorem quietCycle_motor (s : State) (removed : Nat) :
    (quietCycle s removed).motor = motorFree (motorCtx s Handler.quiet) := rfl

@[simp] theorem quietCycle_sw (s : State) (removed : Nat) :
    (quietCycle s removed).sw = switchesNext s false false := rfl

@[simp] theorem quietCycle_led (s : State) (removed : Nat) :
    (quietCycle s removed).led = ledFree s.cfg s.input s.led := rfl

@[simp] theorem quietCycle_rb (s : State) (removed : Nat) :
    (quietCycle s removed).rb = RingBuf.cycle s.cfg s.rb removed s.input := rfl

@[simp] theorem quietCycle_reply (s : State) (removed : Nat) :
    (quietCycle s removed).reply = txStep s.input s.reply := rfl

@[simp] theorem quietCycle_inputs (s : State) (removed : Nat) :
    (quietCycle s removed).inputs = s.inputs.tail := rfl

@[simp] theorem quietCycle_cycle (s : State) (removed : Nat) :
    (quietCycle s removed).cycle = s.cycle + 1 := rfl

/-! ## The reply formatter and the dispatch cycle -/

@[simp] theorem formatReply_cfg (s s' : State) (op : Half) (res : Word) :
    (formatReply s s' op res).cfg = s'.cfg := rfl

@[simp] theorem formatReply_motor (s s' : State) (op : Half) (res : Word) :
    (formatReply s s' op res).motor = s'.motor := rfl

@[simp] theorem formatReply_sw (s s' : State) (op : Half) (res : Word) :
    (formatReply s s' op res).sw = s'.sw := rfl

@[simp] theorem formatReply_led (s s' : State) (op : Half) (res : Word) :
    (formatReply s s' op res).led = s'.led := rfl

@[simp] theorem formatReply_rb (s s' : State) (op : Half) (res : Word) :
    (formatReply s s' op res).rb = s'.rb := rfl

@[simp] theorem formatReply_inputs (s s' : State) (op : Half) (res : Word) :
    (formatReply s s' op res).inputs = s'.inputs := rfl

@[simp] theorem formatReply_cycle (s s' : State) (op : Half) (res : Word) :
    (formatReply s s' op res).cycle = s'.cycle := rfl

@[simp] theorem formatReply_buf (s s' : State) (op : Half) (res : Word) :
    (formatReply s s' op res).reply.buf = s'.reply.buf.writeBytes 0 (replyFrame s.cfg op res (replyStatus s s')) := rfl

@[simp] theorem formatReply_valid (s s' : State) (op : Half) (res : Word) :
    (formatReply s s' op res).reply.valid = true := rfl

@[simp] theorem formatReply_txIdx (s s' : State) (op : Half) (res : Word) :
    (formatReply s s' op res).reply.txIdx = 0 := rfl

@[simp] theorem formatReply_heartbeat (s s' : State) (op : Half) (res : Word) :
    (formatReply s s' op res).reply.heartbeat = s'.reply.heartbeat := rfl

@[simp] theorem dispatchCycle_cfg (s : State) (op : Half) (h : Handler) :
    (dispatchCycle s op h).cfg = s.cfg := rfl

@[simp] theorem dispatchCycle_motor (s : State) (op : Half) (h : Handler) :
    (dispatchCycle s op h).motor = h.motor (motorCtx s h) := rfl

@[simp] theorem dispatchCycle_sw (s : State) (op : Half) (h : Handler) :
    (dispatchCycle s op h).sw = h.switches (switchesNext s h.set h.clear) := rfl

@[simp] theorem dispatchCycle_led (s : State) (op : Half) (h : Handler) :
    (dispatchCycle s op h).led = h.led (ledFree s.cfg s.input s.led) := rfl

@[simp] theorem dispatchCycle_rb (s : State) (op : Half) (h : Handler) :
    (dispatchCycle s op h).rb = RingBuf.cycle s.cfg s.rb 12 s.input := rfl

@[simp] theorem dispatchCycle_inputs (s : State) (op : Half) (h : Handler) :
    (dispatchCycle s op h).inputs = s.inputs.tail := rfl

@[simp] theorem dispatchCycle_cycle (s : State) (op : Half) (h : Handler) :
    (dispatchCycle s op h).cycle = s.cycle + 1 := rfl

@[simp] theorem dispatchCycle_valid (s : State) (op : Half) (h : Handler) :
    (dispatchCycle s op h).reply.valid = true := rfl

@[simp] theorem dispatchCycle_txIdx (s : State) (op : Half) (h : Handler) :
    (dispatchCycle s op h).reply.txIdx = 0 := rfl

@[simp] theorem dispatchCycle_heartbeat (s : State) (op : Half) (h : Handler) :
    (dispatchCycle s op h).reply.heartbeat = (txStep s.input s.reply).heartbeat := rfl

/-! ## Reset -/

@[simp] theorem resetWith_cfg (p : Params) (inputs : List Input) (n : Nat) :
    (State.resetWith p inputs n).cfg = p := rfl

@[simp] theorem resetWith_motor (p : Params) (inputs : List Input) (n : Nat) :
    (State.resetWith p inputs n).motor = Motor.reset p := rfl

@[simp] theorem resetWith_sw (p : Params) (inputs : List Input) (n : Nat) :
    (State.resetWith p inputs n).sw = Switches.reset p := rfl

@[simp] theorem resetWith_led (p : Params) (inputs : List Input) (n : Nat) :
    (State.resetWith p inputs n).led = Led.reset p := rfl

@[simp] theorem resetWith_rb (p : Params) (inputs : List Input) (n : Nat) :
    (State.resetWith p inputs n).rb = RingBuf.reset := rfl

@[simp] theorem resetWith_reply (p : Params) (inputs : List Input) (n : Nat) :
    (State.resetWith p inputs n).reply = Reply.reset := rfl

@[simp] theorem resetWith_inputs (p : Params) (inputs : List Input) (n : Nat) :
    (State.resetWith p inputs n).inputs = inputs := rfl

@[simp] theorem resetWith_cycle (p : Params) (inputs : List Input) (n : Nat) :
    (State.resetWith p inputs n).cycle = n := rfl

@[simp] theorem resetCycle_cfg (s : State) :
    (resetCycle s).cfg = s.cfg := rfl

@[simp] theorem resetCycle_motor (s : State) :
    (resetCycle s).motor = Motor.reset s.cfg := rfl

@[simp] theorem resetCycle_sw (s : State) :
    (resetCycle s).sw = Switches.reset s.cfg := rfl

@[simp] theorem resetCycle_led (s : State) :
    (resetCycle s).led = Led.reset s.cfg := rfl

@[simp] theorem resetCycle_rb (s : State) :
    (resetCycle s).rb = RingBuf.reset := rfl

@[simp] theorem resetCycle_reply (s : State) :
    (resetCycle s).reply = Reply.reset := rfl

@[simp] theorem resetCycle_inputs (s : State) :
    (resetCycle s).inputs = s.inputs.tail := rfl

@[simp] theorem resetCycle_cycle (s : State) :
    (resetCycle s).cycle = s.cycle + 1 := rfl

/-! ## Placing a frame -/

@[simp] theorem placeFrame_cfg (s : State) (bytes : List Byte) :
    (placeFrame s bytes).cfg = s.cfg := rfl

@[simp] theorem placeFrame_motor (s : State) (bytes : List Byte) :
    (placeFrame s bytes).motor = s.motor := rfl

@[simp] theorem placeFrame_sw (s : State) (bytes : List Byte) :
    (placeFrame s bytes).sw = s.sw := rfl

@[simp] theorem placeFrame_led (s : State) (bytes : List Byte) :
    (placeFrame s bytes).led = s.led := rfl

@[simp] theorem placeFrame_rb (s : State) (bytes : List Byte) :
    (placeFrame s bytes).rb = RingBuf.place s.cfg.rbCap s.rb bytes := rfl

@[simp] theorem placeFrame_reply (s : State) (bytes : List Byte) :
    (placeFrame s bytes).reply = { s.reply with valid := false, txIdx := 0 } := rfl

@[simp] theorem placeFrame_inputs (s : State) (bytes : List Byte) :
    (placeFrame s bytes).inputs = runningInputs s.inputs := rfl

@[simp] theorem placeFrame_cycle (s : State) (bytes : List Byte) :
    (placeFrame s bytes).cycle = s.cycle := rfl

end Sys2Proof.Machine
end

