-- ==== Sys2Proof/Laws/Step.lean ====
section
/-! SUPPORT. What a step can do, said once; each command's dispatch cycle, said once. Later proofs cite these and
unfold neither `step` nor `exec`. -/

namespace Sys2Proof.Machine

/-! ## Each command is one dispatch cycle -/

theorem exec_idle (s : State) : exec .idle s = .next (dispatchCycle s 0 Handler.quiet) := rfl

theorem exec_relative (count : Word) (size : BitVec 4) (dir ign : Bool) (s : State) :
    exec (.relative count size dir ign) s = .next (dispatchCycle s 1 { Handler.quiet with
      motor := fun c => motorStart c size ign (fun _ => (count, dir))
      res := fun c => (stepCheck c size ign).code }) := rfl

theorem exec_absolute (target : Word) (size : BitVec 4) (ign : Bool) (s : State) :
    exec (.absolute target size ign) s = .next (dispatchCycle s 2 { Handler.quiet with
      motor := fun c => motorStart c size ign (fun sz => absoluteMove target c.m.position (stepDist c.cfg sz))
      res := fun c => (stepCheck c size ign).code }) := rfl

theorem exec_speed (hz : Word) (s : State) :
    exec (.speed hz) s = .next (dispatchCycle s 3 { Handler.quiet with
      motor := fun c => motorConfig c (speedWrite c hz)
      res := fun c => (speedCheck c hz).code }) := rfl

theorem exec_stop (s : State) : exec .stop s = .next (dispatchCycle s 4 { Handler.quiet with
    motor := motorStop
    res := fun _ => Result.success.code }) := rfl

theorem exec_setPosition (pos : Word) (s : State) :
    exec (.setPosition pos) s = .next (dispatchCycle s 5 { Handler.quiet with
      motor := fun c => motorConfig c (positionWrite pos)
      res := fun _ => Result.success.code }) := rfl

theorem exec_getPosition (s : State) :
    exec .getPosition s = .next (dispatchCycle s 6 { Handler.quiet with res := fun c => c.m.position }) := rfl

theorem exec_ledPwm (duty : Word) (s : State) :
    exec (.ledPwm duty) s = .next (dispatchCycle s 7 { Handler.quiet with
      led := ledPwmWrite duty, res := fun _ => Result.success.code }) := rfl

theorem exec_ledVoltage (volts : Word) (s : State) :
    exec (.ledVoltage volts) s = .next (dispatchCycle s 8 { Handler.quiet with
      led := ledVoltageWrite volts, res := fun _ => Result.success.code }) := rfl

theorem exec_ledPid (value : Word) (sel : BitVec 2) (s : State) :
    exec (.ledPid value sel) s = .next (dispatchCycle s 9 { Handler.quiet with
      led := ledPidWrite value sel, res := fun _ => (ledPidCheck sel).code }) := rfl

theorem exec_switchDebounce (ms : Word) (s : State) :
    exec (.switchDebounce ms) s = .next (dispatchCycle s 10 { Handler.quiet with
      switches := fun sw => { sw with debounceMs := ms }
      res := fun _ => Result.success.code }) := rfl

theorem exec_emergencyStop (s : State) :
    exec .emergencyStop s = .next (dispatchCycle s 11 { Handler.quiet with
      set := true, res := fun _ => Result.success.code }) := rfl

theorem exec_emergencyClear (s : State) :
    exec .emergencyClear s = .next (dispatchCycle s 12 { Handler.quiet with
      clear := true
      res := fun c => if c.latched then Result.blocked.code else Result.success.code }) := rfl

theorem exec_limitStepOff (count : Word) (size : BitVec 4) (s : State) :
    exec (.limitStepOff count size) s = .next (dispatchCycle s 13 { Handler.quiet with
      motor := fun c => motorConfig c (stepOffWrite count size)
      res := fun _ => (stepOffCheck size).code }) := rfl

theorem execUnknown_eq (op : Half) (s : State) :
    execUnknown op s = .next (dispatchCycle s op { Handler.quiet with res := fun _ => Result.unknown.code }) := rfl

/-- Every command is a dispatch cycle that answers its own opcode. -/
theorem exec_dispatches (i : Instr) (s : State) : ∃ h, exec i s = .next (dispatchCycle s (opcodeOf i) h) := by
  cases i <;> exact ⟨_, rfl⟩

/-! ## The parser -/

/-- Every outcome of the parser (R136): nothing removed, one byte removed, or a command from the twelve oldest
bytes, with the reply slot free. -/
theorem parserStep_cases (s : State) :
    parserStep s = (0, none) ∨ parserStep s = (1, none) ∨
    (parserStep s = (12, some (decodeFields (RingBuf.oldest s.cfg.rbCap s.rb 12))) ∧
      12 ≤ RingBuf.size s.cfg.rbCap s.rb ∧ s.reply.valid = false ∧
      RingBuf.peekAt s.cfg.rbCap s.rb 0 = 0xDE#8 ∧ RingBuf.peekAt s.cfg.rbCap s.rb 1 = 0xAD#8 ∧
      stopOk (RingBuf.oldest s.cfg.rbCap s.rb 12) = true ∧
      validate s.cfg.crc8PolyR (RingBuf.oldest s.cfg.rbCap s.rb 12) = true) := by
  simp only [parserStep]
  split
  · exact Or.inl rfl
  split
  · exact Or.inr (Or.inl rfl)
  split
  · exact Or.inl rfl
  split
  · exact Or.inr (Or.inl rfl)
  split
  · exact Or.inl rfl
  split
  · exact Or.inr (Or.inl rfl)
  split
  · exact Or.inr (Or.inl rfl)
  split
  · exact Or.inl rfl
  · rename_i h2 _ h4 h5 h6 h7 h8
    exact Or.inr (Or.inr ⟨rfl, Nat.not_lt.mp h5, Bool.eq_false_iff.mpr h8, not_not.mp h2, not_not.mp h4,
      by simpa only [Bool.not_eq_true', Bool.not_eq_false] using h6,
      by simpa only [Bool.not_eq_true', Bool.not_eq_false] using h7⟩)

/-! ## The step -/

/-- What a step that answers a next state can do. -/
theorem step_cases {s t : State} (h : step s = .next t) :
    s.cfg.legal = true ∧
    ((s.input.rst = true ∧ t = resetCycle s) ∨
     (s.input.rst = false ∧ s.consistent = true ∧
      ((∃ i, dispatched s = some (.known i) ∧ exec i s = .next t) ∨
       (∃ op, dispatched s = some (.unknown op) ∧ execUnknown op s = .next t) ∨
       (dispatched s = none ∧ t = quietCycle s (parserStep s).1)))) := by
  unfold step cycle at h
  split at h <;> rename_i hr <;> unfold whenLegal at h <;> split at h <;> rename_i hl
  · cases h
  · injection h with h; exact ⟨hl, Or.inl ⟨hr, h.symm⟩⟩
  · cases h
  · refine ⟨hl, Or.inr ⟨hr, ?_⟩⟩
    unfold runningCycle at h
    split at h
    · cases h
    split at h
    · rename_i hc
      refine ⟨hc, ?_⟩
      unfold dispatched
      split at h <;> rename_i e
      · exact Or.inl ⟨_, by rw [e], h⟩
      · exact Or.inr (Or.inl ⟨_, by rw [e], h⟩)
      · injection h with h; exact Or.inr (Or.inr ⟨by rw [e], by rw [e]; exact h.symm⟩)
    · cases h

/-- A consistent state does not hold EXIT. -/
theorem State.consistent_mState {s : State} (h : s.consistent = true) : s.motor.mState ≠ .exit := by
  simp only [State.consistent, Motor.consistent, Bool.and_eq_true, decide_eq_true_eq] at h
  exact h.1.1.1.1.1.1

/-- A step with `rst` high. -/
theorem step_of_rst {s : State} (hl : s.cfg.legal = true) (hr : s.input.rst = true) :
    step s = .next (resetCycle s) := by
  unfold step cycle
  rw [hr]
  unfold whenLegal
  rw [hl]

/-- A step with `rst` low from a state that meets the invariant is what the parser decides. -/
theorem step_of_running {s : State} (hi : Inv s) (hr : s.input.rst = false) :
    step s = match parserStep s with
      | (_, some (.known i)) => exec i s
      | (_, some (.unknown op)) => execUnknown op s
      | (r, none) => .next (quietCycle s r) := by
  unfold step cycle
  rw [hr]
  unfold whenLegal
  rw [hi.1]
  unfold runningCycle
  refine (if_neg (State.consistent_mState hi.2)).trans ((if_pos hi.2).trans ?_)
  rcases parserStep s with ⟨r, _ | (i | op)⟩ <;> rfl

/-- From a state that meets the invariant every step answers a next state. -/
theorem step_next {s : State} (hi : Inv s) : ∃ t, step s = .next t := by
  cases hr : s.input.rst
  · rw [step_of_running hi hr]
    split
    · obtain ⟨h, e⟩ := exec_dispatches _ s; exact ⟨_, e⟩
    · exact ⟨_, rfl⟩
    · exact ⟨_, rfl⟩
  · exact ⟨_, step_of_rst hi.1 hr⟩

end Sys2Proof.Machine
end

