-- ==== Sys2Proof/Laws/Led.lean ====
section
/-! SUPPORT. The LED sub-step (45_led_pid.md): what it does in each case, and that it and the LED commands keep the LED
registers consistent. -/

namespace Sys2Proof.Machine

/-- What consistency of the LED registers says. -/
theorem Led.consistent_iff {p : Params} {l : Led} : l.consistent p = true ↔
    l.win.length = p.pidWindow ∧ l.idx < p.pidWindow ∧ dutyInRange l.duty = true ∧ l.pwmCnt < p.pwmPeriod := by
  simp only [Led.consistent, Bool.and_eq_true, decide_eq_true_eq, and_assoc]

/-- Every outcome of the sample divider (R238). -/
theorem ledSample_cases (p : Params) (i : Input) (l : Led) :
    (l.mode = .direct ∧ ledSample p i l = l) ∨
    (l.mode = .closed ∧ l.tickCnt.toNat = p.ledTickDiv - 1 ∧ ledSample p i l = { ledTick p i l with tickCnt := 0 }) ∨
    (l.mode = .closed ∧ l.tickCnt.toNat ≠ p.ledTickDiv - 1 ∧
      ledSample p i l = { l with tickCnt := l.tickCnt + 1 }) := by
  unfold ledSample
  cases hm : l.mode
  · exact Or.inl ⟨rfl, rfl⟩
  · right
    by_cases ht : l.tickCnt.toNat = p.ledTickDiv - 1
    · exact Or.inl ⟨rfl, ht, by simp [ledTickNow, hm, ht]⟩
    · exact Or.inr ⟨rfl, ht, by simp [ledTickNow, hm, ht]⟩

/-- The LED sub-step without a command keeps the LED registers consistent. -/
theorem ledFree_consistent {p : Params} (i : Input) {l : Led} (hw : 1 ≤ p.pidWindow) (hp : 1 ≤ p.pwmPeriod)
    (h : l.consistent p = true) : (ledFree p i l).consistent p = true := by
  obtain ⟨h1, h2, h3, _⟩ := Led.consistent_iff.mp h
  have hc : (l.pwmCnt + 1) % p.pwmPeriod < p.pwmPeriod := Nat.mod_lt _ hp
  have hi : (l.idx + 1) % p.pidWindow < p.pidWindow := Nat.mod_lt _ hw
  rw [Led.consistent_iff]
  unfold ledFree
  rcases ledSample_cases p i l with ⟨_, e⟩ | ⟨_, _, e⟩ | ⟨_, _, e⟩ <;> rw [e]
  · exact ⟨h1, h2, h3, hc⟩
  · exact ⟨by simp [ledTick, h1], hi, dutyInRange_clamp01 _, hc⟩
  · exact ⟨h1, h2, h3, hc⟩

/-- LED_PWM keeps the LED registers consistent. -/
theorem ledPwmWrite_consistent {p : Params} (d : Word) {l : Led} (h : l.consistent p = true) :
    (ledPwmWrite d l).consistent p = true := by
  obtain ⟨h1, h2, _, h4⟩ := Led.consistent_iff.mp h
  exact Led.consistent_iff.mpr ⟨h1, h2, dutyInRange_clamp01 _, h4⟩

/-- LED_VOLTAGE keeps the LED registers consistent. -/
theorem ledVoltageWrite_consistent {p : Params} (v : Word) {l : Led} (hw : 1 ≤ p.pidWindow)
    (h : l.consistent p = true) : (ledVoltageWrite v l).consistent p = true := by
  obtain ⟨h1, _, h3, h4⟩ := Led.consistent_iff.mp h
  exact Led.consistent_iff.mpr ⟨by simp [ledVoltageWrite, h1], hw, h3, h4⟩

/-- Every outcome of LED_PID's write (R242). -/
theorem ledPidWrite_cases (v : Word) (sel : BitVec 2) (l : Led) :
    (sel = 0 ∧ ledPidWrite v sel l = { l with p := v }) ∨ (sel = 1 ∧ ledPidWrite v sel l = { l with i := v }) ∨
    (sel = 2 ∧ ledPidWrite v sel l = { l with d := v }) ∨ (sel = 3 ∧ ledPidWrite v sel l = l) := by
  have h : sel = 0 ∨ sel = 1 ∨ sel = 2 ∨ sel = 3 := by revert sel; decide
  rcases h with e | e | e | e <;> subst e
  · exact Or.inl ⟨rfl, rfl⟩
  · exact Or.inr (Or.inl ⟨rfl, rfl⟩)
  · exact Or.inr (Or.inr (Or.inl ⟨rfl, rfl⟩))
  · exact Or.inr (Or.inr (Or.inr ⟨rfl, rfl⟩))

/-- LED_PID keeps the LED registers consistent. -/
theorem ledPidWrite_consistent {p : Params} (v : Word) (sel : BitVec 2) {l : Led} (h : l.consistent p = true) :
    (ledPidWrite v sel l).consistent p = true := by
  rw [Led.consistent_iff] at h ⊢
  rcases ledPidWrite_cases v sel l with ⟨_, e⟩ | ⟨_, e⟩ | ⟨_, e⟩ | ⟨_, e⟩ <;> rw [e] <;> exact h

end Sys2Proof.Machine
end

