-- ==== Sys2Proof/Laws/Motor.lean ====
section
/-! SUPPORT. The motor sub-step (43_motor_sequencer.md): what each of its parts can do, and that each way through it
leaves the motor consistent and in ESTOP exactly while the latch is set. -/

namespace Sys2Proof.Machine

/-- The motor's share of the invariant, with the latch of the same state (10_state.md R45, R175). -/
def MotorOk (p : Params) (latched : Bool) (m : Motor) : Prop :=
  m.consistent p = true ∧ (m.mState = .estop ↔ latched = true)

/-- What consistency of the motor says. -/
theorem Motor.consistent_iff {p : Params} {m : Motor} : m.consistent p = true ↔
    m.mState ≠ .exit ∧ p.minTickDiv ≤ m.tickDiv.toNat ∧
    (m.mState.isRest = true → m.reqSize = .full ∧ m.reqCount = 0 ∧ m.reqDir = false ∧ m.reqIgn = false ∧
      m.stepR = false ∧ m.tickCnt = 0) := by
  simp only [Motor.consistent, Bool.and_eq_true, Bool.or_eq_true, Bool.not_eq_true', decide_eq_true_eq]
  constructor
  · rintro ⟨⟨h1, h2⟩, h3⟩
    exact ⟨h1, h2, fun hr => by simpa [hr, and_assoc] using h3⟩
  · rintro ⟨h1, h2, h3⟩
    refine ⟨⟨h1, h2⟩, ?_⟩
    cases hr : m.mState.isRest
    · exact Or.inl rfl
    · right; simpa [and_assoc] using h3 hr

/-- A running motor is in one of the five motion states, and in neither rest state. -/
theorem running_iff {m : Motor} : running m = true ↔
    m.mState = .setup ∨ m.mState = .stepRising ∨ m.mState = .stepHighHold ∨ m.mState = .stepFalling ∨
    m.mState = .stepLowHold := by
  unfold running; cases m.mState <;> simp [MState.isMotion]

/-- A motor that is not running holds IDLE, ESTOP or the EXIT that no edge ever sees. -/
theorem not_running_iff {m : Motor} : running m = false ↔
    m.mState = .idle ∨ m.mState = .estop ∨ m.mState = .exit := by
  unfold running; cases m.mState <;> simp [MState.isMotion]

/-- The branches of R168. -/
theorem motorBranch_eq (c : MotorCtx) : motorBranch c =
    if c.latched then .latched else if c.m.mState = .estop then .leaving else .normal := rfl

/-- Every outcome of `motorEntry` (R168, R175). -/
theorem motorEntry_cases (c : MotorCtx) :
    (c.latched = true ∧ c.m.mState = .estop ∧ motorEntry c = (c.m, none)) ∨
    (c.latched = true ∧ c.m.mState ≠ .estop ∧ motorEntry c = takeEstop c.m) ∨
    (c.latched = false ∧ c.m.mState = .estop ∧ motorEntry c = returnFromEstop c.m) ∨
    (c.latched = false ∧ c.m.mState ≠ .estop ∧ motorEntry c = (c.m, none)) := by
  unfold motorEntry motorBranch
  cases hl : c.latched <;> by_cases he : c.m.mState = .estop <;> simp [he]

/-- The entry leaves the motor as the latch asks. -/
theorem motorEntry_ok {p : Params} {c : MotorCtx} (h : c.m.consistent p = true) :
    MotorOk p c.latched (motorEntry c).1 := by
  have h' := Motor.consistent_iff.mp h
  obtain ⟨h1, h2, h3⟩ := h'
  rcases motorEntry_cases c with ⟨hl, he, e⟩ | ⟨hl, he, e⟩ | ⟨hl, he, e⟩ | ⟨hl, he, e⟩
  · rw [e, hl]; exact ⟨h, by simp [he]⟩
  · rw [e, hl]
    refine ⟨Motor.consistent_iff.mpr ?_, by simp⟩
    simp [h2]
  · rw [e, hl]
    refine ⟨Motor.consistent_iff.mpr ?_, by simp⟩
    have := h3 (by simp [he, MState.isRest])
    simp [h2, this]
  · rw [e, hl]; exact ⟨h, by simp [he]⟩

/-- The tick processing, when it is not taken. -/
theorem motorTick_skip {c : MotorCtx} (q : MotorEv) (h : motorBranch c ≠ .normal ∨ running c.m = false) :
    motorTick c q = q := by
  unfold motorTick
  rw [if_neg]
  rintro ⟨h1, h2⟩
  rcases h with h | h
  · exact h h1
  · simp [h] at h2

/-- The tick processing, when it is taken. -/
theorem motorTick_take {c : MotorCtx} (q : MotorEv) (h : motorBranch c = .normal) (hr : running c.m = true) :
    motorTick c q = tickProcess c q.1 := by
  unfold motorTick; rw [if_pos ⟨h, hr⟩]

/-- Branch C: the latch is clear and the motor is not in ESTOP. -/
theorem motorBranch_normal {c : MotorCtx} : motorBranch c = .normal ↔ c.latched = false ∧ c.m.mState ≠ .estop := by
  unfold motorBranch; cases c.latched <;> by_cases he : c.m.mState = .estop <;> simp [he]

/-- The limit abort leaves the motor consistent and out of ESTOP. -/
theorem exitAction_ok {p : Params} {s m : Motor} (h : p.minTickDiv ≤ m.tickDiv.toNat) :
    MotorOk p false (exitAction s m).1 := by
  unfold exitAction MotorOk
  simp only
  split <;> rw [Motor.consistent_iff] <;> simp [h, MState.isRest]

/-- A tick action of a running motion leaves the motor consistent and out of ESTOP. -/
theorem tickAction_ok {p : Params} (q : Params) {s m : Motor} (h : p.minTickDiv ≤ m.tickDiv.toNat)
    (hr : running s = true) : MotorOk p false (tickAction q s m).1 := by
  unfold MotorOk
  rcases running_iff.mp hr with e | e | e | e | e <;> simp only [tickAction, e] <;> try split
  all_goals rw [Motor.consistent_iff]; simp [h, MState.isRest]

/-- The tick processing of a running motion leaves the motor consistent and out of ESTOP, from a motor that is in the
motion's state or already consistent. -/
theorem tickProcess_ok {p : Params} {c : MotorCtx} {m : Motor} (h : MotorOk p false m)
    (hm : m.mState = c.m.mState) (hr : running c.m = true) : MotorOk p false (tickProcess c m).1 := by
  have hd := (Motor.consistent_iff.mp h.1).2.1
  unfold tickProcess
  split
  · simp only
    split
    · exact exitAction_ok hd
    · exact tickAction_ok _ hd hr
  · split
    · exact exitAction_ok hd
    · unfold MotorOk
      rw [Motor.consistent_iff]
      rcases running_iff.mp hr with e | e | e | e | e <;> simp [hm, e, hd, MState.isRest]

/-- The completion event does not touch what `MotorOk` speaks of. -/
theorem motorDone_ok {p : Params} {l : Bool} {q : MotorEv} (h : MotorOk p l q.1) : MotorOk p l (motorDone q) := by
  unfold MotorOk at h ⊢
  rw [Motor.consistent_iff] at h ⊢
  simpa using h

/-- A configuration command's sub-step keeps the motor consistent, where its write keeps the state and the consistency
of every motor. -/
theorem motorConfig_ok {p : Params} {c : MotorCtx} {f : Motor → Motor} (h : c.m.consistent p = true)
    (hs : ∀ m, (f m).mState = m.mState) (hf : ∀ m, m.consistent p = true → (f m).consistent p = true) :
    MotorOk p c.latched (motorConfig c f) := by
  have he := motorEntry_ok h
  have hfe : MotorOk p c.latched (f (motorEntry c).1) := ⟨hf _ he.1, by rw [hs]; exact he.2⟩
  refine motorDone_ok ?_
  by_cases hb : motorBranch c = .normal ∧ running c.m = true
  · rw [motorTick_take _ hb.1 hb.2]
    have hn := motorBranch_normal.mp hb.1
    rw [hn.1] at hfe ⊢
    refine tickProcess_ok hfe ?_ hb.2
    rw [hs]
    rcases motorEntry_cases c with ⟨hl, _, _⟩ | ⟨hl, _, _⟩ | ⟨_, h2, _⟩ | ⟨_, _, e⟩
    · simp [hn.1] at hl
    · simp [hn.1] at hl
    · exact absurd h2 hn.2
    · rw [e]
  · rw [motorTick_skip]
    · exact hfe
    · by_cases h1 : motorBranch c = .normal
      · right; simpa using fun hr => hb ⟨h1, hr⟩
      · left; exact h1

/-- The motor without a command is the configuration sub-step that writes nothing. -/
theorem motorFree_eq_config (c : MotorCtx) : motorFree c = motorConfig c (fun m => m) := rfl

/-- The motor sub-step without a command keeps the motor consistent. -/
theorem motorFree_ok {p : Params} {c : MotorCtx} (h : c.m.consistent p = true) :
    MotorOk p c.latched (motorFree c) :=
  motorConfig_ok (f := fun m => m) h (fun _ => rfl) (fun _ hm => hm)

/-- STOP keeps the motor consistent. -/
theorem motorStop_ok {p : Params} {c : MotorCtx} (h : c.m.consistent p = true) :
    MotorOk p c.latched (motorStop c) := by
  have hd := (Motor.consistent_iff.mp h).2.1
  unfold motorStop
  split
  · rename_i hb
    have hn := motorBranch_normal.mp hb
    refine motorDone_ok ?_
    rw [hn.1]
    split
    · unfold MotorOk; rw [Motor.consistent_iff]; simp [hd]
    · exact ⟨h, by simp [hn.2]⟩
  · exact motorDone_ok (motorEntry_ok h)
  · exact motorDone_ok (motorEntry_ok h)

/-- A motion command keeps the motor consistent. -/
theorem motorStart_ok {p : Params} {c : MotorCtx} (size : BitVec 4) (ign : Bool) (req : StepSize → Word × Bool)
    (h : c.m.consistent p = true) : MotorOk p c.latched (motorStart c size ign req) := by
  have hd := (Motor.consistent_iff.mp h).2.1
  unfold motorStart
  split
  · rename_i hb _ _
    have hn := motorBranch_normal.mp hb
    refine motorDone_ok ?_
    rw [hn.1]
    unfold MotorOk; rw [Motor.consistent_iff]; simp [hd, MState.isRest]
  · exact motorFree_ok h

/-- The selector names a size exactly when it is valid. -/
theorem stepSizeOf_isSome (size : BitVec 4) : (stepSizeOf size).isSome = selectorValid size := by
  revert size; decide

/-- A motion command that `StepCheck` rejects leaves the motor to its ticks. -/
theorem motorStart_reject {c : MotorCtx} (size : BitVec 4) (ign : Bool) (req : StepSize → Word × Bool)
    (h : stepCheck c size ign ≠ .success) : motorStart c size ign req = motorFree c := by
  unfold motorStart
  split
  · rename_i hc _; exact absurd hc h
  · rfl

/-- A motion command that is accepted loads its request. -/
theorem motorStart_accept {c : MotorCtx} {size : BitVec 4} {ign : Bool} {sz : StepSize}
    (req : StepSize → Word × Bool) (hb : motorBranch c = .normal) (h : stepCheck c size ign = .success)
    (hs : stepSizeOf size = some sz) :
    motorStart c size ign req = motorDone (c.m.load sz (req sz).1 (req sz).2 ign, none) := by
  unfold motorStart; rw [hb, h, hs]

/-! ## The writes of the configuration commands -/

/-- Every outcome of SPEED's write (R182). -/
theorem speedWrite_cases (c : MotorCtx) (hz : Word) (m : Motor) :
    (speedCheck c hz = .success ∧ speedWrite c hz m = { m with tickDiv := speedDiv c.cfg hz }) ∨
    (speedCheck c hz ≠ .success ∧ speedWrite c hz m = m) := by
  unfold speedWrite
  by_cases h : speedCheck c hz = .success
  · exact Or.inl ⟨h, if_pos h⟩
  · exact Or.inr ⟨h, if_neg h⟩

/-- Every outcome of SPEED's check (R182). -/
theorem speedCheck_cases (c : MotorCtx) (hz : Word) :
    (running c.m = true ∧ speedCheck c hz = .busy) ∨
    (running c.m = false ∧ (u32 hz = 0 ∨ c.cfg.fClkHz / u32 hz < c.cfg.minTickDiv) ∧
      speedCheck c hz = .invalidArg) ∨
    (running c.m = false ∧ u32 hz ≠ 0 ∧ c.cfg.minTickDiv ≤ c.cfg.fClkHz / u32 hz ∧
      speedCheck c hz = .success) := by
  unfold speedCheck
  cases running c.m
  · right
    by_cases h : u32 hz = 0 ∨ c.cfg.fClkHz / u32 hz < c.cfg.minTickDiv
    · exact Or.inl ⟨rfl, h, by rw [if_neg Bool.false_ne_true, if_pos h]⟩
    · refine Or.inr ⟨rfl, fun e => h (Or.inl e), Nat.not_lt.mp (fun e => h (Or.inr e)), ?_⟩
      rw [if_neg Bool.false_ne_true, if_neg h]
  · exact Or.inl ⟨rfl, rfl⟩

/-- The period of an accepted SPEED, where `F_CLK_HZ` is legal (R6, R182). -/
theorem u32_speedDiv {p : Params} (hz : Word) (h : p.fClkHz < 2 ^ 32) :
    u32 (speedDiv p hz) = p.fClkHz / u32 hz := by
  simp only [u32, speedDiv, BitVec.toNat_ofNat]
  exact Nat.mod_eq_of_lt (Nat.lt_of_le_of_lt (Nat.div_le_self _ _) h)

/-- SPEED's write keeps the motor consistent. -/
theorem speedWrite_consistent {c : MotorCtx} (hz : Word) {m : Motor} (hf : c.cfg.fClkHz < 2 ^ 32)
    (h : m.consistent c.cfg = true) : (speedWrite c hz m).consistent c.cfg = true := by
  rcases speedWrite_cases c hz m with ⟨hs, e⟩ | ⟨_, e⟩ <;> rw [e]
  · rcases speedCheck_cases c hz with ⟨_, e'⟩ | ⟨_, _, e'⟩ | ⟨_, _, hm, _⟩
    · rw [e'] at hs; cases hs
    · rw [e'] at hs; cases hs
    · have h3 := Motor.consistent_iff.mp h
      have hu := u32_speedDiv hz hf
      exact Motor.consistent_iff.mpr ⟨h3.1, by rw [u32] at hu; rw [hu]; exact hm, h3.2.2⟩
  · exact h

/-- Every outcome of LIMIT_STEP_OFF's write (R187). -/
theorem stepOffWrite_cases (count : Word) (size : BitVec 4) (m : Motor) :
    (∃ sz, stepSizeOf size = some sz ∧ stepOffWrite count size m = { m with soSize := sz, soCount := count }) ∨
    (stepSizeOf size = none ∧ stepOffWrite count size m = m) := by
  unfold stepOffWrite
  cases h : stepSizeOf size
  · exact Or.inr ⟨rfl, rfl⟩
  · exact Or.inl ⟨_, rfl, rfl⟩

/-- The configuration writes keep the motor state. -/
theorem configWrite_mState (c : MotorCtx) (hz pos count : Word) (size : BitVec 4) (m : Motor) :
    (speedWrite c hz m).mState = m.mState ∧ (positionWrite pos m).mState = m.mState ∧
    (stepOffWrite count size m).mState = m.mState := by
  refine ⟨?_, rfl, ?_⟩
  · rcases speedWrite_cases c hz m with ⟨_, e⟩ | ⟨_, e⟩ <;> rw [e]
  · rcases stepOffWrite_cases count size m with ⟨_, _, e⟩ | ⟨_, e⟩ <;> rw [e]

end Sys2Proof.Machine
end

