-- ==== Sys2Proof/Laws/Memory.lean ====
section
/-! SUPPORT. The on-block memories: what a read gives after a write, and that every operation keeps the canonical
form. -/

namespace Sys2Proof.Machine

/-- An index below every listed one reads as unlisted. -/
theorem Memory.read_of_lt {size lo i : Nat} {m : Memory} (h : Memory.wfFrom size lo m = true) (hi : i < lo) :
    Memory.read m i = Memory.unlisted := by
  induction m generalizing lo with
  | nil => rfl
  | cons e rest ih =>
    obtain ⟨a, b⟩ := e
    simp only [Memory.wfFrom, Bool.and_eq_true, decide_eq_true_eq] at h
    simp only [Memory.read, if_neg (show ¬ a = i by omega)]
    exact ih h.2 (by omega)

/-- A canonical form that starts later also starts earlier. -/
theorem Memory.wfFrom_mono {size lo lo' : Nat} {m : Memory} (h : Memory.wfFrom size lo m = true) (hl : lo' ≤ lo) :
    Memory.wfFrom size lo' m = true := by
  cases m with
  | nil => rfl
  | cons e rest =>
    obtain ⟨a, b⟩ := e
    simp only [Memory.wfFrom, Bool.and_eq_true, decide_eq_true_eq] at h ⊢
    exact ⟨⟨⟨by omega, h.1.1.2⟩, h.1.2⟩, h.2⟩

/-- Putting an entry in front keeps the canonical form. -/
theorem Memory.wfFrom_cons {size lo i : Nat} {m : Memory} (v : Byte) (h : Memory.wfFrom size (i + 1) m = true)
    (hl : lo ≤ i) (hs : i < size) : Memory.wfFrom size lo (Memory.cons i v m) = true := by
  unfold Memory.cons
  split
  · exact Memory.wfFrom_mono h (by omega)
  · simp only [Memory.wfFrom, Bool.and_eq_true, decide_eq_true_eq]
    exact ⟨⟨⟨hl, hs⟩, by assumption⟩, h⟩

/-- A write keeps the canonical form. -/
theorem Memory.wfFrom_write {size lo i : Nat} {m : Memory} (v : Byte) (h : Memory.wfFrom size lo m = true)
    (hl : lo ≤ i) (hs : i < size) : Memory.wfFrom size lo (Memory.write m i v) = true := by
  induction m generalizing lo with
  | nil => exact Memory.wfFrom_cons v rfl hl hs
  | cons e rest ih =>
    obtain ⟨a, b⟩ := e
    have h' := h
    simp only [Memory.wfFrom, Bool.and_eq_true, decide_eq_true_eq] at h
    obtain ⟨⟨⟨h1, h2⟩, h3⟩, h4⟩ := h
    simp only [Memory.write]
    split
    · simp only [Memory.wfFrom, Bool.and_eq_true, decide_eq_true_eq]
      exact ⟨⟨⟨h1, h2⟩, h3⟩, ih h4 (by omega)⟩
    · split
      · subst_vars; exact Memory.wfFrom_cons v h4 hl hs
      · refine Memory.wfFrom_cons v ?_ hl hs
        simp only [Memory.wfFrom, Bool.and_eq_true, decide_eq_true_eq]
        exact ⟨⟨⟨by omega, h2⟩, h3⟩, h4⟩

/-- A write of an index in range keeps `Memory.wf`. -/
theorem Memory.wf_write {size i : Nat} {m : Memory} (v : Byte) (h : Memory.wf size m = true) (hs : i < size) :
    Memory.wf size (Memory.write m i v) = true := Memory.wfFrom_write v h (Nat.zero_le i) hs

/-- What an entry put in front reads as. -/
theorem Memory.read_cons {size i : Nat} {m : Memory} (v : Byte) (j : Nat) (h : Memory.wfFrom size (i + 1) m = true) :
    Memory.read (Memory.cons i v m) j = if j = i then v else Memory.read m j := by
  unfold Memory.cons
  split
  · rename_i hv
    split
    · rename_i hj
      subst hj; rw [Memory.read_of_lt h (by omega), hv]
    · rfl
  · simp only [Memory.read]
    split <;> split <;> first | rfl | omega

/-- A read after a write, from a canonical form. -/
theorem Memory.read_write_from {size lo i : Nat} {m : Memory} (v : Byte) (j : Nat)
    (h : Memory.wfFrom size lo m = true) :
    Memory.read (Memory.write m i v) j = if j = i then v else Memory.read m j := by
  induction m generalizing lo with
  | nil => exact Memory.read_cons (size := i) v j rfl
  | cons e rest ih =>
    obtain ⟨a, b⟩ := e
    have h' := h
    simp only [Memory.wfFrom, Bool.and_eq_true, decide_eq_true_eq] at h
    simp only [Memory.write]
    split
    · simp only [Memory.read]
      split
      · rw [if_neg (show ¬ j = i by omega)]
      · exact ih h.2
    · split
      · subst_vars
        rw [Memory.read_cons v j h.2]
        simp only [Memory.read]
        split
        · rfl
        · rename_i hj; rw [if_neg (fun e => hj e.symm)]
      · refine Memory.read_cons (size := size) v j ?_
        simp only [Memory.wfFrom, Bool.and_eq_true, decide_eq_true_eq]
        exact ⟨⟨⟨by omega, h.1.1.2⟩, h.1.2⟩, h.2⟩

/-- A read after a write: the written index gives the value, every other index what it gave. -/
theorem Memory.read_write {size : Nat} {m : Memory} (i : Nat) (v : Byte) (j : Nat) (h : Memory.wf size m = true) :
    Memory.read (Memory.write m i v) j = if j = i then v else Memory.read m j := Memory.read_write_from v j h

/-- Two canonical memories that read alike everywhere are equal. -/
theorem Memory.eq_of_read_from {size lo : Nat} {m m' : Memory} (h : Memory.wfFrom size lo m = true)
    (h' : Memory.wfFrom size lo m' = true) (hr : ∀ i, Memory.read m i = Memory.read m' i) : m = m' := by
  induction m generalizing lo m' with
  | nil =>
    cases m' with
    | nil => rfl
    | cons e rest =>
      obtain ⟨a, b⟩ := e
      simp only [Memory.wfFrom, Bool.and_eq_true, decide_eq_true_eq] at h'
      have := hr a
      simp only [Memory.read, if_true] at this
      exact absurd this.symm h'.1.2
  | cons e rest ih =>
    obtain ⟨a, b⟩ := e
    cases m' with
    | nil =>
      simp only [Memory.wfFrom, Bool.and_eq_true, decide_eq_true_eq] at h
      have := hr a
      simp only [Memory.read, if_true] at this
      exact absurd this h.1.2
    | cons e' rest' =>
      obtain ⟨a', b'⟩ := e'
      simp only [Memory.wfFrom, Bool.and_eq_true, decide_eq_true_eq] at h h'
      have haa : a = a' := by
        rcases Nat.lt_trichotomy a a' with hlt | heq | hgt
        · have := hr a
          simp only [Memory.read, if_true, if_neg (show ¬ a' = a by omega)] at this
          rw [Memory.read_of_lt h'.2 (by omega)] at this
          exact absurd this h.1.2
        · exact heq
        · have := hr a'
          simp only [Memory.read, if_true, if_neg (show ¬ a = a' by omega)] at this
          rw [Memory.read_of_lt h.2 (by omega)] at this
          exact absurd this.symm h'.1.2
      subst haa
      have hb : b = b' := by have := hr a; simpa only [Memory.read, if_true] using this
      subst hb
      congr 1
      refine ih h.2 h'.2 (fun i => ?_)
      by_cases hi : a = i
      · subst hi; rw [Memory.read_of_lt h.2 (by omega), Memory.read_of_lt h'.2 (by omega)]
      · have := hr i
        simpa only [Memory.read, if_neg hi] using this

/-- Two memories in canonical form that read alike everywhere are equal. -/
theorem Memory.eq_of_read {size : Nat} {m m' : Memory} (h : Memory.wf size m = true) (h' : Memory.wf size m' = true)
    (hr : ∀ i, Memory.read m i = Memory.read m' i) : m = m' := Memory.eq_of_read_from h h' hr

/-- A write of several bytes in range keeps the canonical form. -/
theorem Memory.wf_writeBytes {size : Nat} {m : Memory} (i : Nat) (vs : List Byte) (h : Memory.wf size m = true)
    (hs : i + vs.length ≤ size) : Memory.wf size (Memory.writeBytes m i vs) = true := by
  induction vs generalizing m i with
  | nil => exact h
  | cons v vs ih =>
    simp only [List.length_cons] at hs
    exact ih (i + 1) (Memory.wf_write v h (by omega)) (by omega)

/-- A read after a write of several bytes: the byte of the list inside it, what it gave outside. -/
theorem Memory.read_writeBytes {size : Nat} {m : Memory} (i : Nat) (vs : List Byte) (j : Nat)
    (h : Memory.wf size m = true) (hs : i + vs.length ≤ size) :
    Memory.read (Memory.writeBytes m i vs) j =
      if i ≤ j ∧ j < i + vs.length then vs.getD (j - i) 0 else Memory.read m j := by
  induction vs generalizing m i with
  | nil => simp only [Memory.writeBytes, List.length_nil]; rw [if_neg (by omega)]
  | cons v vs ih =>
    simp only [List.length_cons] at hs
    simp only [Memory.writeBytes, List.length_cons]
    rw [ih (i + 1) (Memory.wf_write v h (by omega)) (by omega), Memory.read_write i v j h]
    by_cases hj : j = i
    · subst hj
      rw [if_neg (by omega), if_pos rfl, if_pos (by omega), Nat.sub_self]; rfl
    · by_cases hr : i + 1 ≤ j ∧ j < i + 1 + vs.length
      · rw [if_pos hr, if_pos (by omega), show j - i = (j - (i + 1)) + 1 by omega]; rfl
      · rw [if_neg hr, if_neg hj, if_neg (by omega)]

/-- The length of a read of several bytes. -/
@[simp] theorem Memory.length_readBytes (m : Memory) (i n : Nat) : (Memory.readBytes m i n).length = n := by
  induction n generalizing i with
  | zero => rfl
  | succ n ih => simp only [Memory.readBytes, List.length_cons, ih]

/-- Byte `k` of a read of several bytes. -/
theorem Memory.getD_readBytes (m : Memory) (i n k : Nat) (hk : k < n) :
    (Memory.readBytes m i n).getD k 0 = Memory.read m (i + k) := by
  induction n generalizing i k with
  | zero => omega
  | succ n ih =>
    cases k with
    | zero => rfl
    | succ k =>
      have := ih (i + 1) k (by omega)
      rw [show i + (k + 1) = i + 1 + k by omega]; exact this

/-- Reading back the bytes just written gives them. -/
theorem Memory.readBytes_writeBytes {size : Nat} {m : Memory} (i : Nat) (vs : List Byte) (h : Memory.wf size m = true)
    (hs : i + vs.length ≤ size) : Memory.readBytes (Memory.writeBytes m i vs) i vs.length = vs := by
  refine List.ext_getElem (by simp) (fun k h1 h2 => ?_)
  have hk : k < vs.length := h2
  have := Memory.getD_readBytes (Memory.writeBytes m i vs) i vs.length k hk
  rw [List.getD_eq_getElem _ _ h1] at this
  rw [this, Memory.read_writeBytes i vs _ h hs, if_pos (by omega), show i + k - i = k by omega,
    List.getD_eq_getElem _ _ hk]

/-- Reads that agree on a range give the same bytes. -/
theorem Memory.readBytes_congr {m m' : Memory} (i n : Nat)
    (h : ∀ k, i ≤ k → k < i + n → Memory.read m k = Memory.read m' k) :
    Memory.readBytes m i n = Memory.readBytes m' i n := by
  induction n generalizing i with
  | zero => rfl
  | succ n ih =>
    simp only [Memory.readBytes]
    rw [h i (by omega) (by omega), ih (i + 1) (fun k h1 h2 => h k (by omega) (by omega))]

end Sys2Proof.Machine
end

