-- ==== Sys2Proof/Laws/Reply.lean ====
section
/-! SUPPORT. The reply path (42_frame_protocol.md): the transmitter, and the reply that a dispatch cycle leaves. -/

namespace Sys2Proof.Machine

/-- A frame has twelve bytes. -/
@[simp] theorem length_buildFrame (poly : Byte) (op : Half) (arg : Word) (flags : Byte) :
    (buildFrame poly op arg flags).length = 12 := rfl

/-- The bits of the status byte (10_state.md R22). -/
theorem statusByte_bits (ledOn isRunning latched lim2 lim1 : Bool) :
    let status := statusByte ledOn isRunning latched lim2 lim1
    status.getLsbD 0 = lim1 ∧ status.getLsbD 1 = lim2 ∧ status.getLsbD 2 = latched ∧ status.getLsbD 3 = isRunning ∧
    status.getLsbD 4 = ledOn ∧ status.getLsbD 5 = false ∧ status.getLsbD 6 = false ∧ status.getLsbD 7 = false := by
  cases ledOn <;> cases isRunning <;> cases latched <;> cases lim2 <;> cases lim1 <;> decide

/-- What consistency of the reply path says. -/
theorem Reply.consistent_iff {r : Reply} : r.consistent = true ↔
    r.txIdx ≤ 11 ∧ (r.valid = false → r.txIdx = 0) ∧ Memory.wf 12 r.buf = true := by
  simp only [Reply.consistent, Bool.and_eq_true, Bool.or_eq_true, decide_eq_true_eq, and_assoc]
  cases r.valid <;> simp

/-- Every outcome of the transmitter (R150): nothing taken, a byte taken, the last byte taken. -/
theorem txStep_cases (i : Input) (r : Reply) :
    ((r.valid = false ∨ i.txReady = false) ∧ txStep i r = r) ∨
    (r.valid = true ∧ i.txReady = true ∧ r.txIdx ≠ 11 ∧ txStep i r = { r with txIdx := r.txIdx + 1 }) ∨
    (r.valid = true ∧ i.txReady = true ∧ r.txIdx = 11 ∧
      txStep i r = { r with valid := false, txIdx := 0, heartbeat := !r.heartbeat }) := by
  unfold txStep
  cases hv : r.valid
  · exact Or.inl ⟨Or.inl rfl, rfl⟩
  cases ht : i.txReady
  · exact Or.inl ⟨Or.inr rfl, rfl⟩
  right
  by_cases hx : r.txIdx = 11
  · exact Or.inr ⟨rfl, rfl, hx, by simp [hx]⟩
  · exact Or.inl ⟨rfl, rfl, hx, by simp [hx]⟩

/-- The transmitter never writes the reply's bytes. -/
@[simp] theorem txStep_buf (i : Input) (r : Reply) : (txStep i r).buf = r.buf := by
  rcases txStep_cases i r with ⟨_, e⟩ | ⟨_, _, _, e⟩ | ⟨_, _, _, e⟩ <;> rw [e]

/-- The transmitter keeps the reply path consistent. -/
theorem txStep_consistent (i : Input) {r : Reply} (h : r.consistent = true) : (txStep i r).consistent = true := by
  obtain ⟨h1, h2, h3⟩ := Reply.consistent_iff.mp h
  rw [Reply.consistent_iff]
  rcases txStep_cases i r with ⟨_, e⟩ | ⟨hv, _, hx, e⟩ | ⟨_, _, _, e⟩ <;> rw [e]
  · exact ⟨h1, h2, h3⟩
  · exact ⟨by simp only; omega, fun hf => by simp [hv] at hf, h3⟩
  · exact ⟨Nat.zero_le _, fun _ => rfl, h3⟩

/-- The reply buffer after a dispatch cycle. -/
theorem dispatchCycle_buf (s : State) (op : Half) (h : Handler) : (dispatchCycle s op h).reply.buf =
    s.reply.buf.writeBytes 0 (replyFrame s.cfg op (h.res (motorCtx s h)) (replyStatus s (cycleStep s 12 h))) := by
  unfold dispatchCycle; rw [formatReply_buf]; simp

/-- A dispatch cycle leaves the reply to its command in the slot (R144). -/
theorem dispatchCycle_replies {s : State} (op : Half) (h : Handler) (hc : s.reply.consistent = true) :
    Replies s (dispatchCycle s op h) op (h.res (motorCtx s h)) := by
  obtain ⟨_, _, hw⟩ := Reply.consistent_iff.mp hc
  refine ⟨rfl, rfl, ?_⟩
  unfold replyBytes
  rw [dispatchCycle_buf]
  exact Memory.readBytes_writeBytes (size := 12) 0
    (replyFrame s.cfg op (h.res (motorCtx s h)) (replyStatus s (cycleStep s 12 h))) hw (by simp [replyFrame])

/-- A dispatch cycle leaves the reply path consistent. -/
theorem dispatchCycle_reply_consistent {s : State} (op : Half) (h : Handler) (hc : s.reply.consistent = true) :
    (dispatchCycle s op h).reply.consistent = true := by
  obtain ⟨_, _, hw⟩ := Reply.consistent_iff.mp hc
  refine Reply.consistent_iff.mpr ⟨Nat.zero_le _, fun hf => by simp at hf, ?_⟩
  rw [dispatchCycle_buf]
  exact Memory.wf_writeBytes 0 _ hw (by simp [replyFrame])

/-- What every dispatch cycle leaves of the rest of the block. -/
theorem dispatchCycle_rest (s : State) (op : Half) (h : Handler) : RestAsQuiet s (dispatchCycle s op h) :=
  ⟨rfl, rfl, rfl, rfl, rfl⟩

end Sys2Proof.Machine
end

