-- ==== Sys2Proof/Laws/Ring.lean ====
section
/-! SUPPORT. The ring buffer (40_ringbuffer.md): what each operation does to the size and to the k-th oldest byte, and
that every operation keeps the buffer consistent. -/

namespace Sys2Proof.Machine

/-! ## Index arithmetic -/

/-- The index after `x`. -/
theorem succ_mod {cap x : Nat} (hx : x < cap) : (x + 1) % cap = if x + 1 = cap then 0 else x + 1 := by
  split
  · rename_i h; rw [h, Nat.mod_self]
  · exact Nat.mod_eq_of_lt (by omega)

/-- The index `k` places after `t`. -/
theorem add_mod_cap {cap t k : Nat} (ht : t < cap) (hk : k ≤ cap) :
    (t + k) % cap = if t + k < cap then t + k else t + k - cap := by
  split
  · exact Nat.mod_eq_of_lt (by assumption)
  · rw [Nat.mod_eq_sub_mod (by omega), Nat.mod_eq_of_lt (by omega)]

/-- The distance from `t` up to `h`, round the buffer. -/
theorem dist_mod {cap h t : Nat} (hh : h < cap) (ht : t < cap) :
    (h + cap - t) % cap = if t ≤ h then h - t else h + cap - t := by
  split
  · rw [Nat.mod_eq_sub_mod (by omega), Nat.mod_eq_of_lt (by omega)]; omega
  · exact Nat.mod_eq_of_lt (by omega)

/-! ## Consistency and size -/

/-- What consistency says. -/
theorem RingBuf.consistent_iff {p : Params} {B : RingBuf} : B.consistent p = true ↔
    B.head < p.rbCap ∧ B.tail < p.rbCap ∧ (B.full = true → B.head = B.tail) ∧ Memory.wf p.rbCap B.mem = true := by
  simp only [RingBuf.consistent, Bool.and_eq_true, Bool.or_eq_true, Bool.not_eq_true', decide_eq_true_eq]
  constructor
  · rintro ⟨⟨⟨h1, h2⟩, h3⟩, h4⟩
    exact ⟨h1, h2, fun hf => by rcases h3 with h3 | h3; · simp [hf] at h3
                                · exact h3, h4⟩
  · rintro ⟨h1, h2, h3, h4⟩
    refine ⟨⟨⟨h1, h2⟩, ?_⟩, h4⟩
    cases hf : B.full
    · exact Or.inl rfl
    · exact Or.inr (h3 hf)

/-- The size of a consistent buffer, without a remainder. -/
theorem RingBuf.size_eq {p : Params} {B : RingBuf} (h : B.consistent p = true) :
    RingBuf.size p.rbCap B =
      if B.full then p.rbCap else if B.tail ≤ B.head then B.head - B.tail else B.head + p.rbCap - B.tail := by
  obtain ⟨h1, h2, _, _⟩ := RingBuf.consistent_iff.mp h
  unfold RingBuf.size
  split
  · rfl
  · exact dist_mod h1 h2

/-- The size never exceeds the capacity. -/
theorem RingBuf.size_le {p : Params} {B : RingBuf} (h : B.consistent p = true) :
    RingBuf.size p.rbCap B ≤ p.rbCap := by
  obtain ⟨h1, h2, _, _⟩ := RingBuf.consistent_iff.mp h
  rw [RingBuf.size_eq h]
  split <;> try split
  all_goals omega

/-- The buffer is full exactly when its size is the capacity (R100). -/
theorem RingBuf.full_iff {p : Params} {B : RingBuf} (h : B.consistent p = true) :
    B.full = true ↔ RingBuf.size p.rbCap B = p.rbCap := by
  obtain ⟨h1, h2, _, _⟩ := RingBuf.consistent_iff.mp h
  rw [RingBuf.size_eq h]
  cases hf : B.full
  · simp only [Bool.false_eq_true, if_false, false_iff]; split <;> omega
  · simp only [if_true]

/-- RB_HEAD stands `size` places after RB_TAIL. -/
theorem RingBuf.head_eq {p : Params} {B : RingBuf} (h : B.consistent p = true) :
    B.head = (B.tail + RingBuf.size p.rbCap B) % p.rbCap := by
  have hs := RingBuf.size_le h
  obtain ⟨h1, h2, h3, _⟩ := RingBuf.consistent_iff.mp h
  rw [add_mod_cap h2 hs, RingBuf.size_eq h]
  cases hf : B.full
  · simp only [Bool.false_eq_true, if_false]; split <;> split <;> omega
  · have := h3 hf; simp only [if_true]; split <;> omega

/-- The number of buffered bytes is the size. -/
@[simp] theorem RingBuf.length_oldest (cap : Nat) (B : RingBuf) (n : Nat) : (RingBuf.oldest cap B n).length = n := by
  simp only [RingBuf.oldest, List.length_map, List.length_range]

/-- The number of buffered bytes is the size. -/
@[simp] theorem RingBuf.length_contents (cap : Nat) (B : RingBuf) :
    (RingBuf.contents cap B).length = RingBuf.size cap B := RingBuf.length_oldest cap B _

/-- Byte `k` of the oldest `n`. -/
theorem RingBuf.getElem_oldest (cap : Nat) (B : RingBuf) (n k : Nat) (hk : k < (RingBuf.oldest cap B n).length) :
    (RingBuf.oldest cap B n)[k] = RingBuf.peekAt cap B k := by
  simp only [RingBuf.oldest, List.getElem_map, List.getElem_range]

/-- Byte `k` of the buffered bytes is what `RBPeek(k)` reads. -/
theorem RingBuf.getElem_contents (cap : Nat) (B : RingBuf) (k : Nat) (hk : k < (RingBuf.contents cap B).length) :
    (RingBuf.contents cap B)[k] = RingBuf.peekAt cap B k := RingBuf.getElem_oldest cap B _ k hk

/-- The oldest `n` bytes are the first `n` of the buffered bytes. -/
theorem RingBuf.oldest_eq_take (cap : Nat) (B : RingBuf) (n : Nat) (hn : n ≤ RingBuf.size cap B) :
    RingBuf.oldest cap B n = (RingBuf.contents cap B).take n := by
  refine List.ext_getElem (by simp; omega) (fun k h1 h2 => ?_)
  rw [List.getElem_take, RingBuf.getElem_contents, RingBuf.getElem_oldest]

/-! ## `try_put` and `put` -/

/-- `try_put` on a full buffer. -/
theorem RingBuf.tryPut_full (cap : Nat) (B : RingBuf) (b : Byte) (hf : B.full = true) :
    RingBuf.tryPut cap B b = (B, false) := by
  simp only [RingBuf.tryPut, hf, if_true]

/-- `try_put` on a buffer with room. -/
theorem RingBuf.tryPut_room (cap : Nat) (B : RingBuf) (b : Byte) (hf : B.full = false) :
    RingBuf.tryPut cap B b =
      ({ mem := B.mem.write B.head b, head := (B.head + 1) % cap, tail := B.tail,
         full := decide ((B.head + 1) % cap = B.tail) }, true) := by
  simp only [RingBuf.tryPut, hf, Bool.false_eq_true, if_false]

/-- `try_put` keeps the buffer consistent. -/
theorem RingBuf.consistent_tryPut {p : Params} {B : RingBuf} (b : Byte) (h : B.consistent p = true) :
    (RingBuf.tryPut p.rbCap B b).1.consistent p = true := by
  obtain ⟨h1, h2, _, h4⟩ := RingBuf.consistent_iff.mp h
  cases hf : B.full
  · rw [RingBuf.tryPut_room _ _ _ hf, RingBuf.consistent_iff]
    exact ⟨Nat.mod_lt _ (by omega), h2, fun e => of_decide_eq_true e, Memory.wf_write b h4 h1⟩
  · rw [RingBuf.tryPut_full _ _ _ hf]; exact h

/-- `try_put` on a buffer with room makes it one byte longer. -/
theorem RingBuf.size_tryPut {p : Params} {B : RingBuf} (b : Byte) (h : B.consistent p = true) (hf : B.full = false) :
    RingBuf.size p.rbCap (RingBuf.tryPut p.rbCap B b).1 = RingBuf.size p.rbCap B + 1 := by
  obtain ⟨h1, h2, _, _⟩ := RingBuf.consistent_iff.mp h
  rw [RingBuf.size_eq (RingBuf.consistent_tryPut b h), RingBuf.size_eq h, RingBuf.tryPut_room _ _ _ hf]
  simp only [hf, Bool.false_eq_true, if_false, succ_mod h1, decide_eq_true_eq]
  (repeat' split) <;> omega

/-- `try_put` on a buffer with room: the bytes before stay, the new one comes last. -/
theorem RingBuf.peekAt_tryPut {p : Params} {B : RingBuf} (b : Byte) (k : Nat) (h : B.consistent p = true)
    (hf : B.full = false) (hk : k ≤ RingBuf.size p.rbCap B) :
    RingBuf.peekAt p.rbCap (RingBuf.tryPut p.rbCap B b).1 k =
      if k = RingBuf.size p.rbCap B then b else RingBuf.peekAt p.rbCap B k := by
  have hh := RingBuf.head_eq h
  have hs := RingBuf.size_le h
  obtain ⟨h1, h2, _, h4⟩ := RingBuf.consistent_iff.mp h
  have hlt : RingBuf.size p.rbCap B < p.rbCap := by
    rcases Nat.lt_or_ge (RingBuf.size p.rbCap B) p.rbCap with hl | hg
    · exact hl
    · have := (RingBuf.full_iff h).mpr (by omega); simp [hf] at this
  rw [RingBuf.tryPut_room _ _ _ hf]
  simp only [RingBuf.peekAt]
  rw [Memory.read_write _ _ _ h4]
  by_cases hkk : k = RingBuf.size p.rbCap B
  · subst hkk; rw [if_pos hh.symm, if_pos rfl]
  · rw [if_neg hkk, if_neg]
    rw [hh, add_mod_cap h2 (by omega), add_mod_cap h2 hs]
    split <;> split <;> omega

/-- `put` keeps the buffer consistent. -/
theorem RingBuf.consistent_put {p : Params} {B : RingBuf} (b : Byte) (h : B.consistent p = true) :
    (RingBuf.put p.rbCap B b).consistent p = true := by
  obtain ⟨h1, h2, h3, h4⟩ := RingBuf.consistent_iff.mp h
  unfold RingBuf.put
  split
  · rename_i hf
    rw [RingBuf.consistent_iff]
    exact ⟨Nat.mod_lt _ (by omega), Nat.mod_lt _ (by omega), fun _ => by rw [h3 hf], Memory.wf_write b h4 h1⟩
  · exact RingBuf.consistent_tryPut b h

/-- The receive path keeps the buffer consistent. -/
theorem RingBuf.consistent_receive {p : Params} {B : RingBuf} (b : Byte) (h : B.consistent p = true) :
    (RingBuf.receive p B b).consistent p = true := by
  unfold RingBuf.receive
  split
  · exact RingBuf.consistent_put b h
  · exact RingBuf.consistent_tryPut b h

/-! ## `get`, `get_n`, the cycle -/

/-- `get` on an empty buffer. -/
theorem RingBuf.get_empty (cap : Nat) (B : RingBuf) (h : RingBuf.size cap B = 0) : RingBuf.get cap B = (B, none) := by
  simp only [RingBuf.get, h, if_true]

/-- `get` on a buffer that holds a byte. -/
theorem RingBuf.get_some (cap : Nat) (B : RingBuf) (h : RingBuf.size cap B ≠ 0) :
    RingBuf.get cap B = ({ B with tail := (B.tail + 1) % cap, full := false }, some (B.mem.read B.tail)) := by
  simp only [RingBuf.get, if_neg h]

/-- `get` keeps the buffer consistent. -/
theorem RingBuf.consistent_get {p : Params} {B : RingBuf} (h : B.consistent p = true) :
    (RingBuf.get p.rbCap B).1.consistent p = true := by
  obtain ⟨h1, h2, h3, h4⟩ := RingBuf.consistent_iff.mp h
  by_cases hs : RingBuf.size p.rbCap B = 0
  · rw [RingBuf.get_empty _ _ hs]; exact h
  · rw [RingBuf.get_some _ _ hs, RingBuf.consistent_iff]
    exact ⟨h1, Nat.mod_lt _ (by omega), fun e => (Bool.false_ne_true e).elim, h4⟩

/-- `get` on a buffer that holds a byte makes it one byte shorter. -/
theorem RingBuf.size_get {p : Params} {B : RingBuf} (h : B.consistent p = true) (hs : RingBuf.size p.rbCap B ≠ 0) :
    RingBuf.size p.rbCap (RingBuf.get p.rbCap B).1 + 1 = RingBuf.size p.rbCap B := by
  obtain ⟨h1, h2, h3, _⟩ := RingBuf.consistent_iff.mp h
  have hc := RingBuf.consistent_get h
  rw [RingBuf.size_eq hc, RingBuf.get_some _ _ hs]
  rw [RingBuf.size_eq h] at hs ⊢
  simp only [succ_mod h2, Bool.false_eq_true, if_false]
  cases hf : B.full
  · simp only [hf, Bool.false_eq_true, if_false] at hs ⊢
    split at hs <;> (repeat' split) <;> omega
  · have := h3 hf
    simp only [if_true]
    (repeat' split) <;> omega

/-- After `get` the k-th oldest byte is the one that was the next older. -/
theorem RingBuf.peekAt_get {p : Params} {B : RingBuf} (k : Nat) (hs : RingBuf.size p.rbCap B ≠ 0) :
    RingBuf.peekAt p.rbCap (RingBuf.get p.rbCap B).1 k = RingBuf.peekAt p.rbCap B (k + 1) := by
  rw [RingBuf.get_some _ _ hs]
  simp only [RingBuf.peekAt, Nat.mod_add_mod]
  rw [show B.tail + 1 + k = B.tail + (k + 1) by omega]

/-- `get_n` keeps the buffer consistent. -/
theorem RingBuf.consistent_getN {p : Params} (n : Nat) {B : RingBuf} (h : B.consistent p = true) :
    (RingBuf.getN p.rbCap B n).1.consistent p = true := by
  induction n generalizing B with
  | zero => exact h
  | succ n ih =>
    have hg := RingBuf.consistent_get h
    unfold RingBuf.getN
    split
    · rename_i e; rw [e] at hg; exact ih hg
    · rename_i e; rw [e] at hg; exact hg

/-- The cycle's update keeps the buffer consistent. -/
theorem RingBuf.consistent_cycle {p : Params} {B : RingBuf} (r : Nat) (i : Input) (h : B.consistent p = true) :
    (RingBuf.cycle p B r i).consistent p = true := by
  unfold RingBuf.cycle
  simp only
  split
  · exact RingBuf.consistent_receive _ (RingBuf.consistent_getN r h)
  · exact RingBuf.consistent_getN r h

/-! ## Placing bytes -/

/-- The emptied buffer that `RingBuf.place` starts from. -/
theorem RingBuf.consistent_emptied {p : Params} {B : RingBuf} (h : B.consistent p = true) :
    ({ B with head := B.tail, full := false } : RingBuf).consistent p = true := by
  obtain ⟨_, h2, _, h4⟩ := RingBuf.consistent_iff.mp h
  exact RingBuf.consistent_iff.mpr ⟨h2, h2, fun e => (Bool.false_ne_true e).elim, h4⟩

/-- Putting bytes one after another keeps the buffer consistent. -/
theorem RingBuf.consistent_foldl {p : Params} (bytes : List Byte) {B : RingBuf} (h : B.consistent p = true) :
    (bytes.foldl (fun B b => (RingBuf.tryPut p.rbCap B b).1) B).consistent p = true := by
  induction bytes generalizing B with
  | nil => exact h
  | cons b bs ih => exact ih (RingBuf.consistent_tryPut b h)

/-- A placed buffer is consistent. -/
theorem RingBuf.consistent_place {p : Params} {B : RingBuf} (bytes : List Byte) (h : B.consistent p = true) :
    (RingBuf.place p.rbCap B bytes).consistent p = true :=
  RingBuf.consistent_foldl bytes (RingBuf.consistent_emptied h)

end Sys2Proof.Machine
end

