-- ==== Sys2Proof/Laws/Switch.lean ====
section
/-! SUPPORT. The switch sampler (44_switch_monitor.md): the cases of a debounce timer and of the e-stop latch. -/

namespace Sys2Proof.Machine

/-- The debounce period fits its 64 bits (10_state.md R33). -/
theorem toNat_debouncePeriod {p : Params} (ms : Word) (h : p.fClkHz < 2 ^ 32) :
    (debouncePeriod p ms).toNat = u32 ms * (p.fClkHz / 1000) := by
  have hm : ms.toNat < 2 ^ 32 := ms.isLt
  have hc : p.fClkHz / 1000 < 2 ^ 32 := by omega
  have hp : ms.toNat * (p.fClkHz / 1000) < 2 ^ 32 * 2 ^ 32 := Nat.mul_lt_mul'' hm hc
  exact (BitVec.toNat_ofNat _ _).trans (Nat.mod_eq_of_lt hp)

/-- Every outcome of a debounce timer (R219): idle, arming, counting, firing, firing and arming again. -/
theorem debounceStep_cases (lvl : Bool) (period : DWord) (d : Debounce) :
    (d.armed = false ∧ lvl = d.prev ∧ debounceStep lvl period d = ({ d with prev := lvl }, false)) ∨
    (d.armed = false ∧ lvl ≠ d.prev ∧
      debounceStep lvl period d = ({ prev := lvl, armed := true, cnt := period }, false)) ∨
    (d.armed = true ∧ d.cnt ≠ 0 ∧
      debounceStep lvl period d = ({ prev := lvl, armed := true, cnt := d.cnt - 1 }, false)) ∨
    (d.armed = true ∧ d.cnt = 0 ∧ lvl = d.prev ∧
      debounceStep lvl period d = ({ prev := lvl, armed := false, cnt := 0 }, lvl)) ∨
    (d.armed = true ∧ d.cnt = 0 ∧ lvl ≠ d.prev ∧
      debounceStep lvl period d = ({ prev := lvl, armed := true, cnt := period }, lvl)) := by
  obtain ⟨prev, armed, cnt⟩ := d
  by_cases hc : cnt = 0#64 <;> cases armed <;> cases lvl <;> cases prev <;> simp [debounceStep, hc]

/-- The latch of the next state (R217). -/
theorem latchNext_eq_true (est set clear latched : Bool) : latchNext est set clear latched = true ↔
    est = true ∨ set = true ∨ (latched = true ∧ clear = false) := by
  cases est <;> cases set <;> cases clear <;> cases latched <;> decide

end Sys2Proof.Machine
end

