-- ==== Sys2Proof/Laws/Invariant.lean ====
section
/-! SUPPORT. The invariant of the block taken apart and put together, and what legal parameters say. -/

namespace Sys2Proof.Machine

/-- What legal parameters say, range by range (00_scope.md R6). -/
theorem Params.legal_iff {p : Params} : p.legal = true ↔
    p.windowLegal = true ∧ p.pwmLegal = true ∧ p.adcLegal = true ∧ p.ringLegal = true ∧ p.crcLegal = true ∧
    p.stepLegal = true ∧ p.settleLegal = true ∧ p.tickLegal = true ∧ p.debounceLegal = true ∧
    p.ledTickLegal = true ∧ p.lsbLegal = true ∧ p.clockLegal = true := by
  simp only [Params.legal, Bool.and_eq_true, and_assoc]

/-- The bounds that the arithmetic of the block needs. -/
theorem Params.legal_bounds {p : Params} (h : p.legal = true) :
    1 ≤ p.pidWindow ∧ 1 ≤ p.pwmPeriod ∧ 12 ≤ p.rbCap ∧ p.fClkHz < 2 ^ 32 ∧ p.adcBits ≤ 24 ∧
    p.minTickDiv ≤ p.defaultTickDiv ∧ p.defaultTickDiv < 2 ^ 32 ∧ p.crc8PolyR ≠ 0 := by
  obtain ⟨h1, h2, h3, h4, h5, _, _, h8, _, _, _, h12⟩ := Params.legal_iff.mp h
  simp only [Params.windowLegal, Params.pwmLegal, Params.adcLegal, Params.ringLegal, Params.crcLegal,
    Params.tickLegal, Params.clockLegal, Bool.and_eq_true, decide_eq_true_eq] at h1 h2 h3 h4 h5 h8 h12
  exact ⟨h1.1, h2.1, h4.1, h12.2, h3.2, h8.1, h8.2, h5.1⟩

/-- A consistent state, part by part (10_state.md R45). -/
theorem State.consistent_iff {s : State} : s.consistent = true ↔
    MotorOk s.cfg s.sw.estopLatched s.motor ∧ s.led.consistent s.cfg = true ∧ s.rb.consistent s.cfg = true ∧
    s.reply.consistent = true := by
  have hl : latchConsistent s = true ↔ (s.motor.mState = .estop ↔ s.sw.estopLatched = true) := by
    unfold latchConsistent
    cases s.sw.estopLatched <;> by_cases h : s.motor.mState = .estop <;> simp [h]
  simp only [State.consistent, MotorOk, Bool.and_eq_true, hl, and_assoc]

/-- The invariant put together, where the parameters are unchanged. -/
theorem Inv.of_parts {s t : State} (h : Inv s) (hc : t.cfg = s.cfg)
    (hm : MotorOk s.cfg t.sw.estopLatched t.motor) (hl : t.led.consistent s.cfg = true)
    (hb : t.rb.consistent s.cfg = true) (hr : t.reply.consistent = true) : Inv t := by
  refine ⟨by rw [hc]; exact h.1, State.consistent_iff.mpr ?_⟩
  rw [hc]; exact ⟨hm, hl, hb, hr⟩

end Sys2Proof.Machine
end

