-- ==== Sys2Proof/Laws/PerInstr.lean ====
section
/-! SUPPORT. The per-instruction family `FrameShape`: the shape of every command's frame as the table of
30_encoding.md R92 prints it. -/

namespace Sys2Proof.Laws

/-- The frame of a command has twelve bytes and both markers, the opcode column's two bytes of its row, and reserved
`flags` bits 4 and 7 zero (R81, R82, R86, R92, R97). -/
def FrameShape.Statement (i : Instr) : Prop :=
  ∀ poly : Byte, (encode poly i).length = 12 ∧ startOk (encode poly i) = true ∧ stopOk (encode poly i) = true ∧
    frameByte (encode poly i) 2 = BitVec.ofNat 8 (opcodeOf i).toNat ∧ frameByte (encode poly i) 3 = 0 ∧
    frameFlags (encode poly i) &&& 0x90 = 0

/-- Motion `flags` leave bits 4 and 7 zero. -/
theorem motionFlags_reserved (size : BitVec 4) (dir ign : Bool) :
    Machine.motionFlags size dir ign &&& 0x90 = 0 := by
  revert size; cases dir <;> cases ign <;> decide

/-- Size `flags` leave bits 4 and 7 zero. -/
theorem sizeFlags_reserved (size : BitVec 4) : Machine.sizeFlags size &&& 0x90 = 0 := by revert size; decide

/-- Selector `flags` leave bits 4 and 7 zero. -/
theorem selFlags_reserved (sel : BitVec 2) : Machine.selFlags sel &&& 0x90 = 0 := by revert sel; decide

/-- Zero `flags`. -/
theorem zeroFlags_reserved : (0 : Byte) &&& 0x90 = 0 := by decide

theorem FrameShape.idle : FrameShape.Statement .idle :=
  fun _ => ⟨rfl, rfl, rfl, (by decide : Machine.byteOfHalf 0 0 = BitVec.ofNat 8 0),
    (by decide : Machine.byteOfHalf 0 1 = 0), zeroFlags_reserved⟩

theorem FrameShape.relative (count : Word) (size : BitVec 4) (dir ign : Bool) : FrameShape.Statement (.relative count size dir ign) :=
  fun _ => ⟨rfl, rfl, rfl, (by decide : Machine.byteOfHalf 1 0 = BitVec.ofNat 8 1),
    (by decide : Machine.byteOfHalf 1 1 = 0), motionFlags_reserved size dir ign⟩

theorem FrameShape.absolute (target : Word) (size : BitVec 4) (ign : Bool) : FrameShape.Statement (.absolute target size ign) :=
  fun _ => ⟨rfl, rfl, rfl, (by decide : Machine.byteOfHalf 2 0 = BitVec.ofNat 8 2),
    (by decide : Machine.byteOfHalf 2 1 = 0), motionFlags_reserved size false ign⟩

theorem FrameShape.speed (hz : Word) : FrameShape.Statement (.speed hz) :=
  fun _ => ⟨rfl, rfl, rfl, (by decide : Machine.byteOfHalf 3 0 = BitVec.ofNat 8 3),
    (by decide : Machine.byteOfHalf 3 1 = 0), zeroFlags_reserved⟩

theorem FrameShape.stop : FrameShape.Statement .stop :=
  fun _ => ⟨rfl, rfl, rfl, (by decide : Machine.byteOfHalf 4 0 = BitVec.ofNat 8 4),
    (by decide : Machine.byteOfHalf 4 1 = 0), zeroFlags_reserved⟩

theorem FrameShape.setPosition (pos : Word) : FrameShape.Statement (.setPosition pos) :=
  fun _ => ⟨rfl, rfl, rfl, (by decide : Machine.byteOfHalf 5 0 = BitVec.ofNat 8 5),
    (by decide : Machine.byteOfHalf 5 1 = 0), zeroFlags_reserved⟩

theorem FrameShape.getPosition : FrameShape.Statement .getPosition :=
  fun _ => ⟨rfl, rfl, rfl, (by decide : Machine.byteOfHalf 6 0 = BitVec.ofNat 8 6),
    (by decide : Machine.byteOfHalf 6 1 = 0), zeroFlags_reserved⟩

theorem FrameShape.ledPwm (duty : Word) : FrameShape.Statement (.ledPwm duty) :=
  fun _ => ⟨rfl, rfl, rfl, (by decide : Machine.byteOfHalf 7 0 = BitVec.ofNat 8 7),
    (by decide : Machine.byteOfHalf 7 1 = 0), zeroFlags_reserved⟩

theorem FrameShape.ledVoltage (volts : Word) : FrameShape.Statement (.ledVoltage volts) :=
  fun _ => ⟨rfl, rfl, rfl, (by decide : Machine.byteOfHalf 8 0 = BitVec.ofNat 8 8),
    (by decide : Machine.byteOfHalf 8 1 = 0), zeroFlags_reserved⟩

theorem FrameShape.ledPid (value : Word) (sel : BitVec 2) : FrameShape.Statement (.ledPid value sel) :=
  fun _ => ⟨rfl, rfl, rfl, (by decide : Machine.byteOfHalf 9 0 = BitVec.ofNat 8 9),
    (by decide : Machine.byteOfHalf 9 1 = 0), selFlags_reserved sel⟩

theorem FrameShape.switchDebounce (ms : Word) : FrameShape.Statement (.switchDebounce ms) :=
  fun _ => ⟨rfl, rfl, rfl, (by decide : Machine.byteOfHalf 10 0 = BitVec.ofNat 8 10),
    (by decide : Machine.byteOfHalf 10 1 = 0), zeroFlags_reserved⟩

theorem FrameShape.emergencyStop : FrameShape.Statement .emergencyStop :=
  fun _ => ⟨rfl, rfl, rfl, (by decide : Machine.byteOfHalf 11 0 = BitVec.ofNat 8 11),
    (by decide : Machine.byteOfHalf 11 1 = 0), zeroFlags_reserved⟩

theorem FrameShape.emergencyClear : FrameShape.Statement .emergencyClear :=
  fun _ => ⟨rfl, rfl, rfl, (by decide : Machine.byteOfHalf 12 0 = BitVec.ofNat 8 12),
    (by decide : Machine.byteOfHalf 12 1 = 0), zeroFlags_reserved⟩

theorem FrameShape.limitStepOff (count : Word) (size : BitVec 4) : FrameShape.Statement (.limitStepOff count size) :=
  fun _ => ⟨rfl, rfl, rfl, (by decide : Machine.byteOfHalf 13 0 = BitVec.ofNat 8 13),
    (by decide : Machine.byteOfHalf 13 1 = 0), sizeFlags_reserved size⟩

end Sys2Proof.Laws
end

