-- ==== Sys2Proof/Tests/Slice0.lean ====
section
/-! SUPPORT. Small tests, one step each, and for every statement with hypotheses a named witness `witness_<Name>`: a
concrete case that meets them all (where the statement has several clauses, one for each). The expected values are the
spec's: each test names the place. The bytes of a frame are written as the spec writes them. -/

namespace Sys2Proof.Machine

set_option Elab.async false

/-! ## The states of the tests -/

/-- The reset state with four quiet cycles to come. -/
def testBase : State := State.resetWith Params.vector (List.replicate 4 Input.quiet) 0

/-- A motion of `n` FULL steps at the start of SETUP. -/
def testRunning (n : Word) : State :=
  { testBase with motor := { testBase.motor with mState := .setup, reqCount := n } }

/-- The e-stop state, its input inactive. -/
def testLatched : State :=
  { testBase with motor := { testBase.motor with mState := .estop }, sw := { testBase.sw with estopLatched := true } }

/-- The synchronised levels set. -/
def testLevels (lim1 lim2 est : Bool) (s : State) : State :=
  { s with sw := { s.sw with sync2 := { lim1 := lim1, lim2 := lim2, est := est } } }

/-- The state after a step of the machine, and after a command. -/
def nextOf (s : State) : Host.Outcome State Fault Refusal → State
  | .next t => t
  | .fault _ => s
  | .refused _ => s

/-- The state after the command's dispatch cycle. -/
def after (i : Instr) (s : State) : State := nextOf s (exec i s)

/-- The command where the parser accepts it next. -/
def placed (i : Instr) (s : State) : State := placeFrame s (encode 0x8C i)

/-- A ring buffer with the bytes put into it from index `start` on. -/
def testRing (cap start : Nat) (bytes : List Byte) : RingBuf :=
  RingBuf.place cap { mem := [], head := start, tail := start, full := false } bytes

/-- The reset state with these bytes received. -/
def testReceived (bytes : List Byte) : State := { testBase with rb := testRing 32 30 bytes }

/-! ## WellFormed refuses -/

/-- The vector parameters are legal (00_scope.md R6). -/
theorem test_vector_legal : Params.vector.legal = true := by decide +kernel

/-- Each check refuses a value outside its range (R6). -/
theorem test_params_refused :
    { Params.vector with fClkHz := 1500 }.clockLegal = false ∧ { Params.vector with rbCap := 11 }.ringLegal = false ∧
    { Params.vector with crc8PolyR := 0 }.crcLegal = false ∧
    { Params.vector with stepDist := { full := 16, half := 0, quarter := 4, eighth := 2, sixteenth := 1 } }.stepLegal =
      false ∧
    { Params.vector with settleCycles := 0 }.settleLegal = false ∧
    { Params.vector with settleCycles := 5 }.tickLegal = false ∧
    { Params.vector with defaultDebounceMs := 2 ^ 32 }.debounceLegal = false ∧
    { Params.vector with ledTickDiv := 0 }.ledTickLegal = false ∧
    { Params.vector with pidWindow := 257 }.windowLegal = false ∧
    { Params.vector with adcBits := 25 }.adcLegal = false ∧
    { Params.vector with adcLsbVolts := 0x7F800000 }.lsbLegal = false ∧
    { Params.vector with pwmPeriod := 0 }.pwmLegal = false := by decide +kernel

/-- A parameter out of range makes the whole illegal, and the step refuses. -/
theorem test_illegal_refused :
    { Params.vector with rbCap := 11 }.legal = false ∧
    step (State.resetWith { Params.vector with rbCap := 11 } [Input.quiet] 0) = .refused .illegalParameters :=
  ⟨by decide +kernel, rfl⟩

/-- A selector of no size and selector 3 are ill formed (30_encoding.md R87, R88). -/
theorem test_ill_formed_refused :
    (Instr.relative 1 5 false false).wellFormed = false ∧ (Instr.absolute 1 15 false).wellFormed = false ∧
    (Instr.limitStepOff 1 5).wellFormed = false ∧ (Instr.ledPid 0 3).wellFormed = false ∧
    (Instr.relative 1 4 false false).wellFormed = true ∧ (Instr.ledPid 0 2).wellFormed = true := by decide +kernel

/-- Each check of a frame refuses one, by name (42 R136 to R140; 95 §2.4). -/
theorem test_frames_refused :
    decode 0x8C [0xDE, 0xAD] = .error .length ∧
    decode 0x8C [0xDE, 0xDE, 0x06, 0x00, 0x00, 0x00, 0x00, 0x00, 0x00, 0xAB, 0xBE, 0xEF] = .error .start ∧
    decode 0x8C [0xDE, 0xAD, 0x06, 0x00, 0x00, 0x00, 0x00, 0x00, 0x00, 0xAB, 0xBE, 0xEE] = .error .stop ∧
    decode 0x8C [0xDE, 0xAD, 0x06, 0x00, 0x00, 0x00, 0x00, 0x00, 0x00, 0x2B, 0xBE, 0xEF] = .error .checksum := by
  decide +kernel

/-! ## Decoding words of the spec (95_test_vectors.md §2.1) -/

/-- IDLE, STOP, GET_POSITION, EMERGENCY_STOP, EMERGENCY_CLEAR: no operand. -/
theorem test_decode_plain :
    decode 0x8C [0xDE, 0xAD, 0x00, 0x00, 0x00, 0x00, 0x00, 0x00, 0x00, 0x25, 0xBE, 0xEF] = .ok (.known .idle) ∧
    decode 0x8C [0xDE, 0xAD, 0x04, 0x00, 0x00, 0x00, 0x00, 0x00, 0x00, 0xD1, 0xBE, 0xEF] = .ok (.known .stop) ∧
    decode 0x8C [0xDE, 0xAD, 0x06, 0x00, 0x00, 0x00, 0x00, 0x00, 0x00, 0xAB, 0xBE, 0xEF] = .ok (.known .getPosition) ∧
    decode 0x8C [0xDE, 0xAD, 0x0B, 0x00, 0x00, 0x00, 0x00, 0x00, 0x00, 0x93, 0xBE, 0xEF] =
      .ok (.known .emergencyStop) ∧
    decode 0x8C [0xDE, 0xAD, 0x0C, 0x00, 0x00, 0x00, 0x00, 0x00, 0x00, 0x20, 0xBE, 0xEF] =
      .ok (.known .emergencyClear) := by decide +kernel

/-- RELATIVE with each bit of `flags` read (and the reserved ones ignored, R94), ABSOLUTE, SPEED, SET_POSITION,
LIMIT_STEP_OFF. -/
theorem test_decode_motor :
    decode 0x8C [0xDE, 0xAD, 0x01, 0x00, 0x05, 0x00, 0x00, 0x00, 0x21, 0xB7, 0xBE, 0xEF] =
      .ok (.known (.relative 5 1 true false)) ∧
    decode 0x8C [0xDE, 0xAD, 0x01, 0x00, 0x01, 0x00, 0x00, 0x00, 0x90, 0xC4, 0xBE, 0xEF] =
      .ok (.known (.relative 1 0 false false)) ∧
    selectInstr 1 0x01020304 0x44 = some (.relative 0x01020304 4 false true) ∧
    decode 0x8C [0xDE, 0xAD, 0x02, 0x00, 0xD8, 0xFF, 0xFF, 0xFF, 0x02, 0x3B, 0xBE, 0xEF] =
      .ok (.known (.absolute 0xFFFFFFD8 2 false)) ∧
    decode 0x8C [0xDE, 0xAD, 0x03, 0x00, 0xE8, 0x03, 0x00, 0x00, 0x00, 0x0E, 0xBE, 0xEF] =
      .ok (.known (.speed 1000)) ∧
    decode 0x8C [0xDE, 0xAD, 0x05, 0x00, 0xFF, 0xFF, 0xFF, 0xFF, 0x00, 0x9D, 0xBE, 0xEF] =
      .ok (.known (.setPosition 0xFFFFFFFF)) ∧
    decode 0x8C [0xDE, 0xAD, 0x0D, 0x00, 0x05, 0x00, 0x00, 0x00, 0x01, 0x91, 0xBE, 0xEF] =
      .ok (.known (.limitStepOff 5 1)) := by decide +kernel

/-- LED_PWM, LED_VOLTAGE, LED_PID, SWITCH_DEBOUNCE. -/
theorem test_decode_led_switch :
    decode 0x8C [0xDE, 0xAD, 0x07, 0x00, 0x00, 0x00, 0x00, 0x3F, 0x00, 0xA3, 0xBE, 0xEF] =
      .ok (.known (.ledPwm 0x3F000000)) ∧
    decode 0x8C [0xDE, 0xAD, 0x08, 0x00, 0x00, 0x00, 0x80, 0x3F, 0x00, 0x83, 0xBE, 0xEF] =
      .ok (.known (.ledVoltage 0x3F800000)) ∧
    decode 0x8C [0xDE, 0xAD, 0x09, 0x00, 0x00, 0x00, 0x80, 0x3E, 0x02, 0xC6, 0xBE, 0xEF] =
      .ok (.known (.ledPid 0x3E800000 2)) ∧
    decode 0x8C [0xDE, 0xAD, 0x0A, 0x00, 0x05, 0x00, 0x00, 0x00, 0x00, 0x7C, 0xBE, 0xEF] =
      .ok (.known (.switchDebounce 5)) := by decide +kernel

/-- Opcodes 14 and 256 are unknown: `00 01` is 256, not IDLE (R84, R93). -/
theorem test_decode_unknown :
    decode 0x8C [0xDE, 0xAD, 0x0E, 0x00, 0x00, 0x00, 0x00, 0x00, 0x00, 0x5A, 0xBE, 0xEF] = .ok (.unknown 14) ∧
    decode 0x8C [0xDE, 0xAD, 0x00, 0x01, 0x00, 0x00, 0x00, 0x00, 0x00, 0x12, 0xBE, 0xEF] = .ok (.unknown 256) := by
  decide +kernel

/-- The spec's word for opcode 0xFFFF carries the checksum 04, and rule R120 gives 1B (log 23). -/
theorem test_vector_checksum :
    decode 0x8C [0xDE, 0xAD, 0xFF, 0xFF, 0x78, 0x56, 0x34, 0x12, 0xAA, 0x04, 0xBE, 0xEF] = .error .checksum ∧
    decode 0x8C [0xDE, 0xAD, 0xFF, 0xFF, 0x78, 0x56, 0x34, 0x12, 0xAA, 0x1B, 0xBE, 0xEF] = .ok (.unknown 0xFFFF) := by
  decide +kernel

/-- The encoder gives the spec's words (R97). -/
theorem test_encode :
    encode 0x8C (.relative 5 1 true false) =
      [0xDE, 0xAD, 0x01, 0x00, 0x05, 0x00, 0x00, 0x00, 0x21, 0xB7, 0xBE, 0xEF] ∧
    encode 0x8C (.ledPid 0x3E800000 2) =
      [0xDE, 0xAD, 0x09, 0x00, 0x00, 0x00, 0x80, 0x3E, 0x02, 0xC6, 0xBE, 0xEF] := by decide +kernel

/-- A table word, bit 0 first (STOP and SPEED of 1000 Hz): what the decoder reads, with or without its checksum; with
the stop marker's bits gone, none; printed as one number as R96 prints a row, the same. -/
theorem test_table_word :
    decodeTableWord 80 0xEFBED100000000000004ADDE = none ∧
    decodeTableWord 96 0xEFBED100000000000004ADDE = some .stop ∧
    decodeTableWord 96 0xEFBE0000000003E80003ADDE = some (.speed 1000) ∧
    decodeTableWord 96 0xDEAD0300E80300000000BEEF = some (.speed 1000) := by decide +kernel

/-- A table word without its checksum, placed at reset, is the next command run (log 9, log 10). -/
theorem test_fetch_word :
    parserStep (State.reset.withFetchWord 96 0xEFBE0000000003E80003ADDE) = (12, some (.known (.speed 1000))) ∧
    (nextOf State.reset (step (State.reset.withFetchWord 96 0xEFBE0000000003E80003ADDE))).motor.tickDiv = 1000 := by
  decide +kernel

/-! ## Checksum, ring buffer, binary32 -/

/-- Table entries and check values (41 R120, R122; 95 §2.3). -/
theorem test_crc8 :
    t8 0x8C 0x01 = 0x5E ∧ t8 0x8C 0x80 = 0x8C ∧ t8 0x8C 0xFF = 0x35 ∧ crc8 0x8C [] = 0 ∧
    crc8 0x8C [0x31, 0x32, 0x33, 0x34, 0x35, 0x36, 0x37, 0x38, 0x39] = 0xA1 ∧
    crc8 0x8C [0xDE, 0xAD, 0x01, 0x00, 0xC8, 0x00, 0x00, 0x00, 0x00] = 0x04 := by decide +kernel

/-- The optional mode (R125, R126). -/
theorem test_crc16 :
    t16 0xA001 0x80 = 0xA001 ∧ t16 0xA001 0xFF = 0x4040 ∧
    crc16 0xA001 [0x31, 0x32, 0x33, 0x34, 0x35, 0x36, 0x37, 0x38, 0x39] = 0xBB3D ∧
    crc16 0xA001 [0xDE, 0xAD] = 0x1D98 := by decide +kernel

/-- Rows 4 to 8 of 95 §2.2 at capacity 4: fill, refuse, get, put, overwrite. -/
theorem test_ring_put :
    let full := testRing 4 0 [0x11, 0x22, 0x33, 0x44]
    (full.head, full.tail, full.full) = (0, 0, true) ∧ RingBuf.tryPut 4 full 0x55 = (full, false) ∧
    (RingBuf.get 4 full).2 = some 0x11 ∧
    RingBuf.contents 4 (RingBuf.put 4 (RingBuf.get 4 full).1 0x55) = [0x22, 0x33, 0x44, 0x55] ∧
    RingBuf.contents 4 (RingBuf.put 4 full 0x66) = [0x22, 0x33, 0x44, 0x66] := by decide +kernel

/-- The corner cases of 95 §2.2: peek and get_n. -/
theorem test_ring_peek :
    let B := testRing 4 0 [0x11, 0x22, 0x33]
    RingBuf.peek 4 B 2 = some [0x11, 0x22] ∧ RingBuf.peek 4 B 4 = none ∧ RingBuf.peek 4 B 0 = some [] ∧
    (RingBuf.getN 4 B 5).2 = [0x11, 0x22, 0x33] ∧ RingBuf.size 4 (RingBuf.getN 4 B 5).1 = 0 ∧
    (RingBuf.get 4 (RingBuf.getN 4 B 5).1).2 = none := by decide +kernel

/-- Binary32 by hand: 2^-24 added to 1.5 and to 1 + 2^-23 is a tie, to the even one; the product of the largest by 2 is
infinite, 4095 converts exactly. -/
theorem test_float :
    F32.add 0x3FC00000 0x33800000 = 0x3FC00000 ∧ F32.add 0x3F800001 0x33800000 = 0x3F800002 ∧
    F32.mul 0x7F7FFFFF 0x40000000 = 0x7F800000 ∧ F32.ofNat 4095 = 0x457FF000 ∧
    F32.sub 0x3F800000 0x3F800000 = 0x00000000 := by decide +kernel

/-- The clamp and the duty (45 R237, R246). -/
theorem test_clamp :
    clamp01 0x7FC00000 = 0 ∧ clamp01 0x80000000 = 0 ∧ clamp01 0xBF800000 = 0 ∧ clamp01 0x40000000 = 0x3F800000 ∧
    clamp01 0x3F000000 = 0x3F000000 ∧ dutyFloor 0x3F000000 100 = 50 ∧ dutyFloor 0x3F800000 100 = 100 := by
  decide +kernel

/-! ## One step of each command: the reply bytes are the spec's words of 95 §2.1 unless a place is named -/

/-- IDLE from reset, and while a motion runs (M-j): status 08. -/
theorem test_idle :
    replyBytes (after .idle testBase) =
      [0xDE, 0xAD, 0x00, 0x00, 0x00, 0x00, 0x00, 0x00, 0x00, 0x25, 0xBE, 0xEF] ∧
    replyBytes (after .idle (testRunning 10)) =
      [0xDE, 0xAD, 0x00, 0x00, 0x00, 0x00, 0x00, 0x00, 0x08, 0xE7, 0xBE, 0xEF] := by decide +kernel

/-- RELATIVE accepted: SETUP, the request, the reply. -/
theorem test_relative_accepted :
    let t := after (.relative 5 1 true false) testBase
    t.motor.mState = .setup ∧ t.motor.reqCount = 5 ∧ t.motor.reqSize = .half ∧ t.motor.reqDir = true ∧
    replyBytes t = [0xDE, 0xAD, 0x01, 0x00, 0x00, 0x00, 0x00, 0x00, 0x08, 0xDA, 0xBE, 0xEF] := by decide +kernel

/-- RELATIVE rejected: size 5 is INVALID_SIZE; BUSY while running (§1.4); BLOCKED by a limit (M-k) and by the latch
(S-c), but not by a limit with `ign`. -/
theorem test_relative_rejected :
    replyBytes (after (.relative 1 5 false false) testBase) =
      [0xDE, 0xAD, 0x01, 0x00, 0x02, 0x00, 0x00, 0x00, 0x00, 0x9B, 0xBE, 0xEF] ∧
    replyBytes (after (.relative 5 1 true false) (testRunning 10)) =
      [0xDE, 0xAD, 0x01, 0x00, 0x01, 0x00, 0x00, 0x00, 0x08, 0x17, 0xBE, 0xEF] ∧
    replyBytes (after (.relative 2 0 false false) (testLevels true false false testBase)) =
      [0xDE, 0xAD, 0x01, 0x00, 0x03, 0x00, 0x00, 0x00, 0x01, 0x08, 0xBE, 0xEF] ∧
    replyBytes (after (.relative 1 0 false false) testLatched) =
      [0xDE, 0xAD, 0x01, 0x00, 0x03, 0x00, 0x00, 0x00, 0x04, 0x37, 0xBE, 0xEF] ∧
    (after (.relative 2 0 false true) (testLevels true false false testBase)).motor.mState = .setup := by
  decide +kernel

/-- ABSOLUTE: -40 from 32 in QUARTER steps is 18 steps back (§1.3); the remainder of 23 div 4 is dropped (M-d). -/
theorem test_absolute :
    let s := { testBase with motor := { testBase.motor with position := 32 } }
    (after (.absolute 0xFFFFFFD8 2 false) s).motor.reqCount = 18 ∧
    (after (.absolute 0xFFFFFFD8 2 false) s).motor.reqDir = true ∧
    (after (.absolute 23 2 false) testBase).motor.reqCount = 5 ∧
    replyBytes (after (.absolute 100 5 false) testBase) =
      [0xDE, 0xAD, 0x02, 0x00, 0x02, 0x00, 0x00, 0x00, 0x00, 0xDC, 0xBE, 0xEF] := by decide +kernel

/-- The difference of ABSOLUTE does not wrap: from -2^31 to 2^31-1 is 4294967295 units (R181). -/
theorem test_absolute_wide :
    let s := { testBase with motor := { testBase.motor with position := 0x80000000 } }
    (after (.absolute 0x7FFFFFFF 4 false) s).motor.reqCount = 4294967295 ∧
    (after (.absolute 0x7FFFFFFF 4 false) s).motor.reqDir = false := by decide +kernel

/-- SPEED: 3 Hz gives 333333; 0xFFFFFFFF Hz and 1000001 Hz are INVALID_ARG; 1000000 Hz gives 1. -/
theorem test_speed :
    (after (.speed 3) testBase).motor.tickDiv = 333333 ∧ (after (.speed 1000000) testBase).motor.tickDiv = 1 ∧
    (after (.speed 1000001) testBase).motor.tickDiv = 4 ∧
    replyBytes (after (.speed 0xFFFFFFFF) testBase) =
      [0xDE, 0xAD, 0x03, 0x00, 0x04, 0x00, 0x00, 0x00, 0x00, 0x7D, 0xBE, 0xEF] := by decide +kernel

/-- SPEED while a motion runs is BUSY and TICK_DIV stays (§1.4). -/
theorem test_speed_busy :
    (after (.speed 1000) (testRunning 10)).motor.tickDiv = 4 ∧
    replyBytes (after (.speed 1000) (testRunning 10)) =
      [0xDE, 0xAD, 0x03, 0x00, 0x01, 0x00, 0x00, 0x00, 0x08, 0x6D, 0xBE, 0xEF] := by decide +kernel

/-- STOP ends a motion with DONE_STOPPED and status 00 (M-i); at rest it only replies. -/
theorem test_stop :
    let t := after .stop (testRunning 10)
    t.motor.mState = .idle ∧ t.motor.doneValid = true ∧ t.motor.doneCode = .stopped ∧
    replyBytes t = [0xDE, 0xAD, 0x04, 0x00, 0x00, 0x00, 0x00, 0x00, 0x00, 0xD1, 0xBE, 0xEF] ∧
    (after .stop testBase).motor = testBase.motor := by decide +kernel

/-- SET_POSITION at rest, and in the cycle of a rising edge: the edge adds to the new value and wraps (R184, R170). -/
theorem test_setPosition :
    let s := { testBase with motor := { testBase.motor with mState := .stepRising, reqCount := 2, tickCnt := 3 } }
    (after (.setPosition 0xFFFFFFFF) testBase).motor.position = 0xFFFFFFFF ∧
    (after (.setPosition 0x7FFFFFF8) s).motor.position = 0x80000008 ∧
    replyBytes (after (.setPosition 0xFFFFFFFF) testBase) =
      [0xDE, 0xAD, 0x05, 0x00, 0x00, 0x00, 0x00, 0x00, 0x00, 0xEC, 0xBE, 0xEF] := by decide +kernel

/-- GET_POSITION at 48 with limit 2 active (§1.9). -/
theorem test_getPosition :
    replyBytes (after .getPosition
      (testLevels false true false { testBase with motor := { testBase.motor with position := 48 } })) =
      [0xDE, 0xAD, 0x06, 0x00, 0x30, 0x00, 0x00, 0x00, 0x02, 0x93, 0xBE, 0xEF] := by decide +kernel

/-- LED_PWM: 0.5 switches the stage on, a NaN off. -/
theorem test_ledPwm :
    (after (.ledPwm 0x3F000000) testBase).led.duty = 0x3F000000 ∧
    replyBytes (after (.ledPwm 0x40000000) testBase) =
      [0xDE, 0xAD, 0x07, 0x00, 0x00, 0x00, 0x00, 0x00, 0x10, 0x0B, 0xBE, 0xEF] ∧
    replyBytes (after (.ledPwm 0x7FC00000) testBase) =
      [0xDE, 0xAD, 0x07, 0x00, 0x00, 0x00, 0x00, 0x00, 0x00, 0x96, 0xBE, 0xEF] := by decide +kernel

/-- LED_VOLTAGE: CLOSED mode, the target, a cleared history (R241). -/
theorem test_ledVoltage :
    let s := { testBase with led := { testBase.led with win := [1, 2, 3, 4], idx := 2, prev := 5 } }
    let t := after (.ledVoltage 0x3F800000) s
    t.led.mode = .closed ∧ t.led.target = 0x3F800000 ∧ t.led.win = [0, 0, 0, 0] ∧ t.led.idx = 0 ∧ t.led.prev = 0 ∧
    replyBytes t = [0xDE, 0xAD, 0x08, 0x00, 0x00, 0x00, 0x00, 0x00, 0x10, 0x49, 0xBE, 0xEF] := by decide +kernel

/-- LED_PID: selector 2 writes the gain D; selector 3 is INVALID_ARG and writes none (R242). -/
theorem test_ledPid :
    (after (.ledPid 0x3E800000 2) testBase).led.d = 0x3E800000 ∧
    (after (.ledPid 0x3E800000 1) testBase).led.i = 0x3E800000 ∧
    (after (.ledPid 0x3F800000 3) testBase).led = (quietCycle testBase 12).led ∧
    replyBytes (after (.ledPid 0x3F800000 3) testBase) =
      [0xDE, 0xAD, 0x09, 0x00, 0x04, 0x00, 0x00, 0x00, 0x00, 0xF6, 0xBE, 0xEF] := by decide +kernel

/-- SWITCH_DEBOUNCE writes the period; an edge of the same cycle arms with the old one (R227). -/
theorem test_switchDebounce :
    let t := after (.switchDebounce 5) (testLevels true false false testBase)
    t.sw.debounceMs = 5 ∧ t.sw.deb1.armed = true ∧ t.sw.deb1.cnt = 1000 ∧
    replyBytes (after (.switchDebounce 5) testBase) =
      [0xDE, 0xAD, 0x0A, 0x00, 0x00, 0x00, 0x00, 0x00, 0x00, 0xAE, 0xBE, 0xEF] := by decide +kernel

/-- EMERGENCY_STOP during a motion: ESTOP and DONE_ESTOP in the same cycle (M-m). -/
theorem test_emergencyStop :
    let t := after .emergencyStop (testRunning 10)
    t.motor.mState = .estop ∧ t.sw.estopLatched = true ∧ t.motor.doneCode = .estop ∧
    replyBytes t = [0xDE, 0xAD, 0x0B, 0x00, 0x00, 0x00, 0x00, 0x00, 0x04, 0xF2, 0xBE, 0xEF] := by decide +kernel

/-- EMERGENCY_CLEAR returns to IDLE with no event; with the input active it is BLOCKED (S-b). -/
theorem test_emergencyClear :
    let t := after .emergencyClear testLatched
    t.motor.mState = .idle ∧ t.sw.estopLatched = false ∧ t.motor.doneValid = false ∧
    replyBytes t = [0xDE, 0xAD, 0x0C, 0x00, 0x00, 0x00, 0x00, 0x00, 0x00, 0x20, 0xBE, 0xEF] ∧
    replyBytes (after .emergencyClear (testLevels false false true testLatched)) =
      [0xDE, 0xAD, 0x0C, 0x00, 0x03, 0x00, 0x00, 0x00, 0x04, 0x0F, 0xBE, 0xEF] := by decide +kernel

/-- LIMIT_STEP_OFF configures, and an abort of the same cycle uses it (R187): SETUP of the reversed step-off. -/
theorem test_limitStepOff :
    let s := { testLevels true false false (testRunning 10) with
      motor := { (testRunning 10).motor with tickCnt := 3 } }
    let t := after (.limitStepOff 5 1) s
    t.motor.mState = .setup ∧ t.motor.reqSize = .half ∧ t.motor.reqCount = 5 ∧ t.motor.reqDir = true ∧
    t.motor.reqIgn = true ∧ t.motor.doneCode = .limit ∧
    replyBytes (after (.limitStepOff 5 1) testBase) =
      [0xDE, 0xAD, 0x0D, 0x00, 0x00, 0x00, 0x00, 0x00, 0x00, 0x1D, 0xBE, 0xEF] := by decide +kernel

/-- An unknown opcode: 0xFFFFFFFF, the opcode echoed. -/
theorem test_unknown :
    replyBytes (nextOf testBase (execUnknown 256 testBase)) =
      [0xDE, 0xAD, 0x00, 0x01, 0xFF, 0xFF, 0xFF, 0xFF, 0x00, 0x63, 0xBE, 0xEF] := by decide +kernel

/-- The output ports (70 R289; 60 R263): DONE_ESTOP is code 3, and the enable follows the motion. -/
theorem test_outputs :
    (out (after .emergencyStop (testRunning 10))).doneCode = 3 ∧
    (out (after .emergencyStop (testRunning 10))).doneValid = true ∧
    (out (after .stop (testRunning 10))).doneCode = 2 ∧
    (out (testRunning 10)).drvEn = true ∧ (out testLatched).drvEn = false := by decide +kernel

/-! ## Witnesses: the hypotheses of the statements are met -/

/-- A run that is as long as asked gives its last state. -/
theorem some_of_isSome {α : Type} {o : Option α} (h : o.isSome = true) : ∃ a, o = some a := Option.isSome_iff_exists.1 h

/-- Whether an outcome is a next state. -/
def isNext : Host.Outcome State Fault Refusal → Bool
  | .next _ => true
  | .fault _ => false
  | .refused _ => false

/-- Both ends of the rows, each selected by its own word. -/
theorem witness_RowSelectedIffMaskMatches :
    (encode 0x8C .idle).length = 12 ∧ selectRow (encode 0x8C .idle) = some .idle ∧
    (encode 0x8C (.limitStepOff 5 1)).length = 12 ∧
    selectRow (encode 0x8C (.limitStepOff 5 1)) = some (.limitStepOff 5 1) := by decide +kernel

/-- The fields two frames must agree on, as the statement names them. -/
def fieldsAgree (op : Half) (arg arg' : Word) (flags flags' : Byte) : Bool :=
  (decide (op.toNat ∈ [0, 4, 6, 11, 12]) || arg == arg') && (op.toNat != 1 || flags &&& 0x6F == flags' &&& 0x6F) &&
  (op.toNat != 2 || flags &&& 0x4F == flags' &&& 0x4F) && (op.toNat != 9 || flags &&& 0x03 == flags' &&& 0x03) &&
  (op.toNat != 13 || flags &&& 0x0F == flags' &&& 0x0F)

/-- STOP with any `arg` and `flags`; RELATIVE, ABSOLUTE, LED_PID and LIMIT_STEP_OFF with other unread bits; LED_PWM. -/
theorem witness_UnusedFieldsAreIgnored :
    fieldsAgree 4 0 7 0 0xFF = true ∧ fieldsAgree 1 5 5 0x21 0xB1 = true ∧ fieldsAgree 2 5 5 0x02 0xB2 = true ∧
    fieldsAgree 9 5 5 0x02 0xFE = true ∧ fieldsAgree 13 5 5 0x04 0xF4 = true ∧ fieldsAgree 7 5 5 0 0xFF = true := by
  decide +kernel

/-- Frames of twelve bytes for each outcome: a bad start, a bad stop, a bad checksum, a row, an unknown opcode. -/
theorem witness_DecodingIsTotal :
    let good := encode 0x8C .getPosition
    good.length = 12 ∧ (good.set 1 0xDE).length = 12 ∧ startOk (good.set 1 0xDE) = false ∧
    (good.set 11 0xEE).length = 12 ∧ stopOk (good.set 11 0xEE) = false ∧
    (good.set 9 0x2B).length = 12 ∧ validate 0x8C (good.set 9 0x2B) = false ∧
    frameFault 0x8C good = none ∧ frameFault 0x8C (buildFrame 0x8C 14 0 0) = none := by decide +kernel

/-- Opcode fields at the edges: 13 selects a row, 14 and 65535 do not. -/
theorem witness_OpcodeFieldIsLittleEndian :
    (frameOpcode [0, 0, 13, 0]).toNat = 13 ∧ (frameOpcode [0, 0, 14, 0]).toNat = 14 ∧
    (frameOpcode [0, 0, 0xFF, 0xFF]).toNat = 65535 ∧ selectInstr 14 0 0 = none := by decide +kernel

/-- The first and the last bit of `F[0..9]`. -/
theorem witness_CrcDetectsEverySingleBitError :
    (0x8C#8 : Byte) ≠ 0 ∧ (encode 0x8C .idle).length = 12 ∧ validate 0x8C (encode 0x8C .idle) = true ∧
    (0 < 10 ∧ 0 < 8) ∧ (9 < 10 ∧ 7 < 8) := by decide +kernel

/-- A known command and an unknown opcode, each dispatched in a step. -/
theorem witness_EveryReplyIsAValidFrame :
    let s := placed .idle testBase
    let u := placeFrame testBase (buildFrame 0x8C 14 0 0)
    (Inv s ∧ s.input.rst = false ∧ dispatched s = some (.known .idle) ∧ isNext (step s) = true) ∧
    (Inv u ∧ u.input.rst = false ∧ dispatched u = some (.unknown 14) ∧ isNext (step u) = true) := by decide +kernel

/-- A full buffer, and one with a byte of room whose head wraps. -/
theorem witness_TryPutAppendsUnlessFull :
    let full := testRing 32 7 (List.replicate 32 0x11)
    let last := testRing 32 0 (List.replicate 31 0x11)
    Params.vector.legal = true ∧ full.consistent Params.vector = true ∧ full.full = true ∧
    last.consistent Params.vector = true ∧ last.full = false ∧ last.head = 31 := by decide +kernel

/-- The same two buffers for `put`. -/
theorem witness_PutOverwritesTheOldest :
    let full := testRing 32 31 (List.replicate 32 0x11)
    let last := testRing 32 0 (List.replicate 31 0x11)
    Params.vector.legal = true ∧ full.consistent Params.vector = true ∧ full.full = true ∧ full.tail = 31 ∧
    last.consistent Params.vector = true ∧ last.full = false := by decide +kernel

/-- An empty buffer, a full one, and one whose tail wraps. -/
theorem witness_GetRemovesTheOldest :
    let full := testRing 32 31 (List.replicate 32 0x11)
    let empty := testRing 32 31 []
    Params.vector.legal = true ∧ empty.consistent Params.vector = true ∧ RingBuf.size 32 empty = 0 ∧
    full.consistent Params.vector = true ∧ RingBuf.size 32 full ≠ 0 := by decide +kernel

/-- Two puts and a get that never exceed capacity, from a buffer with one byte of room. -/
theorem witness_RingBufferIsFifo :
    let B := testRing 32 5 (List.replicate 31 0x11)
    Params.vector.legal = true ∧ B.consistent Params.vector = true ∧
    (ringRun 32 B [.put 0x22, .get, .put 0x33, .get]).2.2 = true := by decide +kernel

/-- No byte; a byte and room only by the removal; a byte and no room, without and with RB_OVERWRITE. -/
theorem witness_RemovalComesBeforeTheReceivedByte :
    let full := testRing 32 3 (List.replicate 32 0x11)
    let byte := { Input.quiet with rxValid := true, rxByte := 0x22 }
    Params.vector.legal = true ∧ full.consistent Params.vector = true ∧ Input.quiet.rxValid = false ∧
    byte.rxValid = true ∧ (RingBuf.contents 32 full).length - 1 < Params.vector.rbCap ∧
    (RingBuf.contents 32 full).length - 0 = Params.vector.rbCap ∧ Params.vector.rbOverwrite = false ∧
    { Params.vector with rbOverwrite := true }.legal = true ∧
    full.consistent { Params.vector with rbOverwrite := true } = true := by decide +kernel

/-- Buffered bytes for each clause of the parser, at the length where the next clause begins. -/
theorem witness_ParserActsOnTheBufferedBytes :
    let good := encode 0x8C .getPosition
    let pending := { testReceived good with reply := { Reply.reset with valid := true } }
    (∀ bytes ∈ [[], [0x00], [0xDE], [0xDE, 0xDE], good.take 11, good.set 11 0xEE, good, good ++ [0xDE]],
      Inv (testReceived bytes) ∧ RingBuf.contents 32 (testReceived bytes).rb = bytes) ∧
    frameFault 0x8C (good.set 11 0xEE) = some .stop ∧ frameFault 0x8C good = none ∧
    (testReceived good).reply.valid = false ∧
    Inv pending ∧ pending.reply.valid = true ∧ RingBuf.contents 32 pending.rb = good := by decide +kernel

/-- Twelve buffered bytes of a known command and of an unknown opcode. -/
theorem witness_StepRunsTheDecodedCommand :
    let s := testReceived (encode 0x8C (.speed 1000))
    let u := testReceived (buildFrame 0x8C 14 0 0)
    (Inv s ∧ s.input.rst = false ∧ s.reply.valid = false ∧ 12 ≤ (RingBuf.contents 32 s.rb).length ∧
      decode 0x8C ((RingBuf.contents 32 s.rb).take 12) = .ok (.known (.speed 1000))) ∧
    (Inv u ∧ u.input.rst = false ∧ u.reply.valid = false ∧ 12 ≤ (RingBuf.contents 32 u.rb).length ∧
      decode 0x8C ((RingBuf.contents 32 u.rb).take 12) = .ok (.unknown 14)) := by decide +kernel

/-- The reset state with listed inputs and a state with a running motion meet the invariant. -/
theorem witness_PlacedCommandRunsNext : Inv testBase ∧ Inv (testRunning 10) ∧ Inv testLatched := by decide +kernel

/-- A cycle that waits, one that drops garbage, one that drops a bad candidate's first byte. -/
theorem witness_FrameErrorsOnlyRemoveBytes :
    ∀ bytes ∈ [[0xDE], [0x00], (encode 0x8C .getPosition).set 9 0x2B],
      Inv (testReceived bytes) ∧ (testReceived bytes).input.rst = false ∧ dispatched (testReceived bytes) = none ∧
      isNext (step (testReceived bytes)) = true := by decide +kernel

/-- A pending reply and a trace with twelve ready cycles among thirteen. -/
theorem witness_ReplyGoesOutOnceInOrder :
    let r := (after .idle testBase).reply
    let is := Input.quiet :: List.replicate 12 { Input.quiet with txReady := true }
    r.valid = true ∧ r.txIdx = 0 ∧ (is.filter (fun i => i.txReady)).length = 12 := by decide +kernel

/-- Steps from a running motion and from the latch. -/
theorem witness_StepKeepsTheInvariant :
    (Inv (testRunning 10) ∧ isNext (step (testRunning 10)) = true) ∧
    (Inv testLatched ∧ isNext (step testLatched) = true) := by decide +kernel

/-- The vector parameters are a legal choice. -/
theorem witness_ResetMeetsTheInvariant : Params.vector.legal = true := by decide +kernel

/-- A state that meets the invariant with nothing but free inputs to come. -/
theorem witness_BlockNeverStops : Inv State.reset := by decide +kernel

/-- A reset in the middle of a motion. -/
theorem witness_ResetCycleGivesTheResetState :
    let s := { testRunning 10 with inputs := [{ Input.quiet with rst := true }] }
    s.cfg.legal = true ∧ s.input.rst = true := by decide +kernel

/-- Illegal parameters; EXIT; an unreachable state (the latch without ESTOP); that same state with `rst` high; a
consistent state. -/
theorem witness_StopsOnlyWhereTheSpecSays :
    let exit := { testBase with motor := { testBase.motor with mState := .exit } }
    let odd := { testBase with sw := { testBase.sw with estopLatched := true } }
    let reset := { odd with inputs := [{ Input.quiet with rst := true }] }
    { Params.vector with rbCap := 11 }.legal = false ∧
    (exit.cfg.legal = true ∧ exit.input.rst = false ∧ exit.motor.mState = .exit) ∧
    (odd.cfg.legal = true ∧ odd.input.rst = false ∧ odd.motor.mState ≠ .exit ∧ odd.consistent = false) ∧
    (reset.cfg.legal = true ∧ reset.input.rst = true) ∧ (testBase.cfg.legal = true ∧ testBase.consistent = true) := by
  decide +kernel

/-- A latched state and a run of two cycles with no EMERGENCY_CLEAR; one whose first cycle has one that is BLOCKED. -/
theorem witness_EstopHoldsUntilCleared :
    let b := placed .emergencyClear (testLevels false false true testLatched)
    (Inv testLatched ∧ testLatched.sw.estopLatched = true ∧ (runFor 2 testLatched).isSome = true ∧
      (∀ u ∈ runFor 0 testLatched, u.input.rst = false ∧ dispatched u = none) ∧
      (∀ u ∈ runFor 1 testLatched, u.input.rst = false ∧ dispatched u = none)) ∧
    (Inv b ∧ b.sw.estopLatched = true ∧ (runFor 1 b).isSome = true ∧ b.input.rst = false ∧
      dispatched b = some (.known .emergencyClear) ∧ b.sw.sync2.est = true) := by
  decide +kernel

/-- A clear with the level active, a clear with it inactive, an EMERGENCY_STOP. -/
theorem witness_LatchFollowsLevelAndCommands :
    let a := placed .emergencyClear (testLevels false false true testLatched)
    let b := placed .emergencyClear testLatched
    let c := placed .emergencyStop (testRunning 10)
    (Inv a ∧ a.input.rst = false ∧ isNext (step a) = true ∧ dispatched a = some (.known .emergencyClear) ∧
      a.sw.sync2.est = true) ∧
    (Inv b ∧ b.input.rst = false ∧ isNext (step b) = true ∧ dispatched b = some (.known .emergencyClear)) ∧
    (Inv c ∧ c.input.rst = false ∧ isNext (step c) = true ∧ dispatched c = some (.known .emergencyStop)) := by
  decide +kernel

/-- A synchronised level; a pulse of one cycle on the e-stop pin. -/
theorem witness_EstopPulseLatchesInThreeCycles :
    let u := testLevels false false true (testRunning 10)
    let i0 := { Input.quiet with estopPin := true }
    let s := { testRunning 10 with inputs := [i0, Input.quiet, Input.quiet] }
    (Inv u ∧ u.input.rst = false ∧ u.sw.sync2.est = true ∧ isNext (step u) = true) ∧
    (Inv s ∧ s.inputs = i0 :: Input.quiet :: Input.quiet :: [] ∧ i0.rst = false ∧ Input.quiet.rst = false ∧
      (i0.estopPin ^^ s.cfg.estopActiveLow) = true) := by decide +kernel

/-- The level just active during a motion, with no command and with a SET_POSITION. -/
theorem witness_EstopIsTakenInItsCycle :
    ∀ s ∈ [testLevels false false true (testRunning 10),
        placed (.setPosition 5) (testLevels false false true (testRunning 10))],
      Inv s ∧ s.input.rst = false ∧ s.sw.sync2.est = true ∧ s.sw.estopLatched = false ∧ isNext (step s) = true := by
  decide +kernel

/-- A cycle that changes TICK_DIV. -/
theorem witness_TickDivChangesOnlyBySpeedAtRest :
    let s := placed (.speed 1000) testBase
    Inv s ∧ isNext (step s) = true ∧ s.input.rst = false ∧ (nextOf s (step s)).motor.tickDiv ≠ s.motor.tickDiv := by
  decide +kernel

/-- A rising edge, alone and with a SET_POSITION in its cycle, and a SET_POSITION at rest. -/
theorem witness_PositionMovesOnlyByEdgesAndSetPosition :
    let e := { testRunning 2 with motor := { (testRunning 2).motor with mState := .stepRising, tickCnt := 3 } }
    (Inv e ∧ isNext (step e) = true ∧ e.input.rst = false ∧ dispatched e = none ∧
      (nextOf e (step e)).motor.position ≠ e.motor.position) ∧
    (Inv (placed (.setPosition 5) e) ∧ isNext (step (placed (.setPosition 5) e)) = true ∧
      dispatched (placed (.setPosition 5) e) = some (.known (.setPosition 5))) ∧
    (Inv (placed (.setPosition 5) testBase) ∧ isNext (step (placed (.setPosition 5) testBase)) = true ∧
      dispatched (placed (.setPosition 5) testBase) = some (.known (.setPosition 5))) := by decide +kernel

/-- Each failing check: a motion, size 5, the e-stop level, the latch, a limit without `ign`. -/
theorem witness_RejectedMotionHasNoEffect :
    ((testRunning 10).consistent = true ∧ running (testRunning 10).motor = true) ∧
    (testBase.consistent = true ∧ 4 < (5 : BitVec 4).toNat) ∧
    ((testLevels false false true testBase).consistent = true ∧
      (testLevels false false true testBase).sw.sync2.est = true) ∧
    (testLatched.consistent = true ∧ testLatched.sw.estopLatched = true) ∧
    ((testLevels false true false testBase).consistent = true ∧
      (testLevels false true false testBase).sw.sync2.lim2 = true) := by decide +kernel

/-- A block in ESTOP and one at rest agree on the LED side. -/
theorem witness_LedIsIndependentOfMotorAndSwitches :
    Inv testBase ∧ Inv testLatched ∧ SameLedSide testBase testLatched ∧ ∃ t, runFor 2 testBase = some t :=
  ⟨by decide +kernel, by decide +kernel, by unfold SameLedSide; decide +kernel,
    some_of_isSome (by decide +kernel)⟩

/-- Two states whose memories differ in bytes no rule reads. -/
theorem witness_UnspecifiedBytesAreNeverRead :
    let s := { testBase with rb := { RingBuf.reset with mem := [(5, 7)] }, reply := { Reply.reset with buf := [(1, 9)] } }
    Inv s ∧ Inv testBase ∧ SameVisible s testBase ∧ s ≠ testBase ∧ ∃ t, runFor 2 s = some t :=
  ⟨by decide +kernel, by decide +kernel, by unfold SameVisible; decide +kernel, by decide +kernel,
    some_of_isSome (by decide +kernel)⟩

/-- A cycle with a received byte and one without. -/
theorem witness_CommandsStoreOnlyTheReplyAndTheReceivedByte :
    let s := { testBase with inputs := [{ Input.quiet with rxValid := true, rxByte := 0x22 }] }
    (s.consistent = true ∧ s.input.rxValid = true ∧ isNext (exec .stop s) = true) ∧
    (testBase.consistent = true ∧ isNext (exec .stop testBase) = true) := by decide +kernel

/-- Consistent states at rest, in a motion and in ESTOP: what IDLE, STOP, SET_POSITION, GET_POSITION, SWITCH_DEBOUNCE,
EMERGENCY_STOP, EMERGENCY_CLEAR and the LED commands ask for. -/
theorem witness_CommandsOnConsistentStates :
    testBase.consistent = true ∧ (testRunning 10).consistent = true ∧ testLatched.consistent = true := by
  decide +kernel

/-- IDLE from any consistent state. -/
theorem witness_IdleOnlyReplies : (testRunning 10).consistent = true := by decide +kernel

/-- The first and the last unknown opcode, each in a received frame. -/
theorem witness_UnknownOpcodeOnlyReplies :
    ∀ F ∈ [buildFrame 0x8C 14 0 0, buildFrame 0x8C 0xFFFF 0x12345678 0xAA],
      Inv (testReceived F) ∧ (testReceived F).input.rst = false ∧ (testReceived F).reply.valid = false ∧
      RingBuf.contents 32 (testReceived F).rb = F ∧ F.length = 12 ∧ frameFault 0x8C F = none ∧
      13 < (frameOpcode F).toNat := by decide +kernel

/-- At rest with no limit; with a limit and `ign`; the last size. -/
theorem witness_RelativeLoadsItsRequest :
    let s := testLevels true true false testBase
    (testBase.consistent = true ∧ testBase.motor.mState = .idle ∧ testBase.sw.sync2.est = false ∧
      stepSizeOf 4 = some .sixteenth ∧ testBase.sw.sync2.lim1 = false ∧ testBase.sw.sync2.lim2 = false) ∧
    (s.consistent = true ∧ s.motor.mState = .idle ∧ s.sw.sync2.est = false ∧ stepSizeOf 0 = some .full) := by
  decide +kernel

/-- From the most negative position. -/
theorem witness_AbsoluteLoadsTheExactDifference :
    let s := { testBase with motor := { testBase.motor with position := 0x80000000 } }
    s.consistent = true ∧ s.motor.mState = .idle ∧ s.sw.sync2.est = false ∧ stepSizeOf 4 = some .sixteenth ∧
    s.sw.sync2.lim1 = false ∧ s.sw.sync2.lim2 = false := by decide +kernel

/-- Running; 0 Hz; a period of 0; the highest rate; the lowest rate. -/
theorem witness_SpeedSetsTheTickPeriod :
    (Inv (testRunning 10) ∧ running (testRunning 10).motor = true) ∧
    (Inv testBase ∧ running testBase.motor = false ∧ u32 0 = 0) ∧
    testBase.cfg.fClkHz / u32 1000001 < max 1 testBase.cfg.settleCycles ∧
    (u32 1000000 ≠ 0 ∧ max 1 testBase.cfg.settleCycles ≤ testBase.cfg.fClkHz / u32 1000000) ∧
    (u32 1 ≠ 0 ∧ max 1 testBase.cfg.settleCycles ≤ testBase.cfg.fClkHz / u32 1) := by decide +kernel

/-- A motion with the e-stop inactive; a motion with it active; rest. -/
theorem witness_StopEndsTheMotion :
    let e := testLevels false false true (testRunning 10)
    ((testRunning 10).consistent = true ∧ running (testRunning 10).motor = true ∧
      (testRunning 10).sw.sync2.est = false) ∧
    (e.consistent = true ∧ e.sw.sync2.est = true) ∧
    (testBase.consistent = true ∧ running testBase.motor = false) := by decide +kernel

/-- Rest, and the cycle of a rising edge. -/
theorem witness_SetPositionRebasesThePosition :
    let e := { testRunning 2 with motor := { (testRunning 2).motor with mState := .stepRising, tickCnt := 3 } }
    testBase.consistent = true ∧ e.consistent = true ∧ (quietCycle e 12).motor.position = 16 := by decide +kernel

/-- In a motion away from 0. -/
theorem witness_GetPositionRepliesThePosition :
    { testRunning 2 with motor := { (testRunning 2).motor with position := 48 } }.consistent = true := by
  decide +kernel

/-- The last valid selector and the first invalid one. -/
theorem witness_LimitStepOffConfiguresTheStepOff :
    (testRunning 10).consistent = true ∧ stepSizeOf 4 = some .sixteenth ∧ 4 < (5 : BitVec 4).toNat ∧
    stepSizeOf 5 = none := by decide +kernel

/-- With a timer armed. -/
theorem witness_SwitchDebounceSetsThePeriod :
    (after .idle (testLevels true false false testBase)).sw.deb1.armed = true ∧
    (after .idle (testLevels true false false testBase)).consistent = true := by decide +kernel

/-- Unlatched in a motion, and latched already. -/
theorem witness_EmergencyStopLatches :
    ((testRunning 10).consistent = true ∧ (testRunning 10).sw.estopLatched = false) ∧
    (testLatched.consistent = true ∧ testLatched.sw.estopLatched = true) := by decide +kernel

/-- Latched with the level active, latched with it inactive, not latched. -/
theorem witness_EmergencyClearReturnsFromEstop :
    let a := testLevels false false true testLatched
    (a.consistent = true ∧ a.sw.sync2.est = true) ∧
    (testLatched.consistent = true ∧ testLatched.sw.sync2.est = false ∧ testLatched.sw.estopLatched = true) ∧
    (testBase.consistent = true ∧ testBase.sw.sync2.est = false ∧ testBase.sw.estopLatched = false) := by
  decide +kernel

/-- In CLOSED mode at a tick. -/
theorem witness_LedPwmSetsTheDuty :
    { testBase with led := { testBase.led with mode := .closed, on := true, tickCnt := 9 } }.consistent = true := by
  decide +kernel

/-- With a history to clear. -/
theorem witness_LedVoltageRestartsTheLoop :
    { testBase with led := { testBase.led with win := [1, 2, 3, 4], idx := 3, prev := 5 } }.consistent = true := by
  decide +kernel

/-- Every selector from a consistent state. -/
theorem witness_LedPidSetsOneGain :
    testBase.consistent = true ∧ ∀ n < 4, (BitVec.ofNat 2 n = 0 ∨ BitVec.ofNat 2 n = 1 ∨ BitVec.ofNat 2 n = 2 ∨
      BitVec.ofNat 2 n = 3) := by decide +kernel

/-- A motor at its tick in each of the four states. -/
theorem witness_TickActionsWithoutAnEdge :
    ∀ st ∈ [MState.setup, .stepHighHold, .stepFalling, .stepLowHold],
      let m := { (testRunning 2).motor with mState := st, tickCnt := 3 }
      m.tickCnt = m.tickDiv - 1 ∧ m.mState = st := by decide +kernel

/-- A request of no steps and one of three, with a tick of four cycles. -/
theorem witness_MotionRunsItsStepsAndEnds :
    ((testRunning 0).motor.mState = .setup ∧ (testRunning 0).motor.tickCnt = 0 ∧
      1 ≤ u32 (testRunning 0).motor.tickDiv) ∧
    ((testRunning 3).motor.mState = .setup ∧ (testRunning 3).motor.tickCnt = 0 ∧
      1 ≤ u32 (testRunning 3).motor.tickDiv) := by decide +kernel

/-- An active level at a tick, and a confirmation between ticks; `ign` under both, a level alone between ticks, and a
confirmation at rest; a state whose timer 2 fires. -/
theorem witness_LimitAbortsTheMotion :
    let c := { undisturbed Params.vector { (testRunning 2).motor with tickCnt := 3 } with lim2 := true }
    let d := { undisturbed Params.vector (testRunning 2).motor with confirm1 := true }
    let i := { undisturbed Params.vector { (testRunning 2).motor with tickCnt := 3, reqIgn := true } with
      lim1 := true, confirm2 := true }
    let l := { undisturbed Params.vector (testRunning 2).motor with lim1 := true }
    let r := { undisturbed Params.vector testBase.motor with confirm1 := true }
    let s := { testRunning 2 with sw := { (testRunning 2).sw with deb2 := { prev := true, armed := true, cnt := 0 } } }
    (running c.m = true ∧ c.latched = false ∧ c.m.reqIgn = false ∧ c.lim2 = true ∧ c.m.tickCnt = c.m.tickDiv - 1 ∧
      c.m.soCount = 0) ∧
    (running d.m = true ∧ d.latched = false ∧ d.m.reqIgn = false ∧ d.confirm1 = true) ∧
    (running i.m = true ∧ i.m.reqIgn = true) ∧
    (running l.m = true ∧ l.confirm1 = false ∧ l.confirm2 = false ∧ l.m.tickCnt ≠ l.m.tickDiv - 1) ∧
    running r.m = false ∧
    (s.sw.sync2.est = false ∧ s.sw.estopLatched = false ∧ s.sw.deb2.armed = true) := by decide +kernel

/-- A period of 0 and one of 2, with the level toggling inside the window. -/
theorem witness_DebounceTimerFiresAfterItsPeriod :
    Debounce.reset.armed = false ∧ true ≠ Debounce.reset.prev ∧ ([] : List Bool).length = (0 : DWord).toNat ∧
    [false, true].length = (2 : DWord).toNat := by decide +kernel

/-- For the sampler's step: timer 1 meets an edge while timer 2 counts; timer 1 fires with no edge while timer 2 fires
with one. -/
theorem witness_DebounceTimerFiresAfterItsPeriod_step :
    let base := testLevels true false false testBase
    let a := { base with sw := { base.sw with deb2 := { prev := false, armed := true, cnt := 5 } } }
    let b := { base with sw := { base.sw with deb1 := { prev := true, armed := true, cnt := 0 },
                                              deb2 := { prev := true, armed := true, cnt := 0 } } }
    (Inv a ∧ a.input.rst = false ∧ isNext (step a) = true ∧ a.sw.deb1.armed = false ∧
      a.sw.sync2.lim1 ≠ a.sw.deb1.prev ∧ a.sw.deb2.armed = true ∧ a.sw.deb2.cnt ≠ 0) ∧
    (Inv b ∧ b.input.rst = false ∧ isNext (step b) = true ∧ b.sw.deb1.cnt = 0 ∧ b.sw.sync2.lim1 = b.sw.deb1.prev ∧
      b.sw.deb2.cnt = 0 ∧ b.sw.sync2.lim2 ≠ b.sw.deb2.prev) := by decide +kernel

/-- Two confirmations one cycle apart at period 0. -/
theorem witness_ConfirmationsAreAPeriodApart :
    let r := debounceRun 0 Debounce.reset [true, true, false, true, true]
    3 < 4 ∧ r.2[3]? = some true ∧ r.2[4]? = some true := by decide +kernel

/-- A pattern for each clause: a NaN, a negative value, a value above 1.0, -0.0, 1.0. -/
theorem witness_ClampMapsIntoZeroToOne :
    F32.isNaN 0x7FC00000 = true ∧ F32.lt 0xBF800000 0x00000000#32 = true ∧ F32.gt 0x3F800001 0x3F800000#32 = true ∧
    clamp01 0x80000000#32 = 0 ∧ (0x3F800000#32 : Word).toNat ≤ 0x3F800000 := by decide +kernel

/-- A tie (2^24 + 1), whose neighbour 2^24 + 2 is as near; a sum that overflows; an exact zero of two negative zeros and
of opposite values; a NaN operand; opposite and equal infinities. -/
theorem witness_AddRoundsToNearestEven :
    (F32.isFinite 0x4B800000 = true ∧ F32.isFinite 0x3F800000 = true ∧ F32.isFinite 0x4B800001 = true ∧
      F32.isFinite (F32.add 0x4B800000 0x3F800000) = true ∧
      (F32.value (F32.add 0x4B800000 0x3F800000) - (F32.value 0x4B800000 + F32.value 0x3F800000)).natAbs =
        (F32.value 0x4B800001 - (F32.value 0x4B800000 + F32.value 0x3F800000)).natAbs) ∧
    (F32.isFinite 0x7F7FFFFF = true ∧ F32.isInf (F32.add 0x7F7FFFFF 0x7F7FFFFF) = true) ∧
    (F32.isFinite 0x80000000 = true ∧ F32.add 0x80000000 0x80000000 = 0x80000000) ∧
    (F32.isFinite 0xBF800000 = true ∧ F32.value 0x3F800000 + F32.value 0xBF800000 = 0) ∧
    F32.isNaN 0x7FC00000 = true ∧
    (F32.isInf 0x7F800000 = true ∧ F32.isInf 0xFF800000 = true ∧ F32.sign 0x7F800000 ≠ F32.sign 0xFF800000) ∧
    F32.isNaN (F32.sub 0x3F800000 0x3F800000) = false := by decide +kernel

/-- A finite product, one below the smallest pattern, one that overflows; a NaN operand; infinity times zero, times a
finite value and times infinity. -/
theorem witness_MulRoundsToNearestEven :
    (F32.isFinite 0x3FC00000 = true ∧ F32.isFinite 0x3FC00001 = true ∧
      F32.isFinite (F32.mul 0x3FC00000 0x3FC00001) = true) ∧
    F32.mul 0x00000001 0x3F000000 = 0 ∧ F32.isInf (F32.mul 0x7F7FFFFF 0x40000000) = true ∧
    F32.isNaN (F32.mul 0x80000001 0x3F000000) = false ∧ F32.isNaN 0x7FC00000 = true ∧
    (F32.isInf 0xFF800000 = true ∧ F32.isFinite 0x80000000 = true ∧ F32.value 0x80000000 = 0 ∧
      F32.value 0x3FC00000 ≠ 0 ∧ F32.isInf 0x7F800000 = true) := by decide +kernel

/-- DIRECT mode; a CLOSED cycle one before the tick; a CLOSED-mode tick. -/
theorem witness_ClosedLoopTickComputesThePid :
    let a := { testBase with led := { testBase.led with mode := .closed, tickCnt := 8 } }
    let b := { testBase with led := { testBase.led with mode := .closed, tickCnt := 9 } }
    testBase.led.mode = .direct ∧
    (a.led.mode = .closed ∧ a.led.tickCnt.toNat ≠ a.cfg.ledTickDiv - 1) ∧
    (b.led.mode = .closed ∧ b.led.tickCnt.toNat = b.cfg.ledTickDiv - 1) := by decide +kernel

/-- The largest code that converts exactly by this statement. -/
theorem witness_SmallIntegersConvertExactly : 2 ^ 24 - 1 < 2 ^ 24 := by decide +kernel

/-- The stage off; on at duty 1.0; on at the duty just above 1/3 (33 of 100, the exact product between 33 and 34). -/
theorem witness_PwmIsHighForTheDuty :
    let l := { Led.reset Params.vector with on := true, duty := 0x3F800000 }
    let m := { Led.reset Params.vector with on := true, duty := 0x3EAAAAAB }
    (Led.reset Params.vector).on = false ∧
    (Params.vector.legal = true ∧ l.consistent Params.vector = true ∧ l.on = true ∧ l.duty = 0x3F800000) ∧
    (m.consistent Params.vector = true ∧ m.on = true ∧ dutyFloor m.duty 100 = 33) := by decide +kernel

/-- Quiescent at rest and in ESTOP, and with the e-stop just active. -/
theorem witness_QuiescentBlockStaysQuiescent :
    ∀ s ∈ [testBase, testLatched, testLevels false false true testBase],
      Inv s ∧ quiescent s = true ∧ s.input.rst = false ∧ s.input.rxValid = false ∧ isNext (step s) = true := by
  decide +kernel

end Sys2Proof.Machine
end

/-! The invariant along a run (10_state.md R45): every sub-step a command takes keeps its part, so every step keeps the
whole, and with that the block never stops. -/

namespace Sys2Proof.Machine

/-! ## What a handler must keep -/

/-- The parts of a command keep the invariant of a block with the parameters `p`: its switch write leaves the latch, its
motor sub-step leaves the motor as the latch asks, its LED writes leave the LED registers consistent. -/
structure Handler.Keeps (p : Params) (h : Handler) : Prop where
  latch : ∀ sw, (h.switches sw).estopLatched = sw.estopLatched
  motor : ∀ c, c.cfg = p → c.m.consistent p = true → MotorOk p c.latched (h.motor c)
  led : ∀ l, l.consistent p = true → (h.led l).consistent p = true

/-- The cycle without a command. -/
theorem Handler.quiet_keeps (p : Params) : Handler.quiet.Keeps p where
  latch _ := rfl
  motor _ _ hm := motorFree_ok hm
  led _ hl := hl

/-- A command with a motor sub-step of its own and no other part. -/
theorem Handler.keeps_of_motor {p : Params} {f : MotorCtx → Motor} (res : MotorCtx → Word)
    (hf : ∀ c, c.cfg = p → c.m.consistent p = true → MotorOk p c.latched (f c)) :
    ({ Handler.quiet with motor := f, res := res } : Handler).Keeps p where
  latch _ := rfl
  motor := hf
  led _ hl := hl

/-- A command with LED writes of its own and no other part. -/
theorem Handler.keeps_of_led {p : Params} {f : Led → Led} (res : MotorCtx → Word)
    (hf : ∀ l, l.consistent p = true → (f l).consistent p = true) :
    ({ Handler.quiet with led := f, res := res } : Handler).Keeps p where
  latch _ := rfl
  motor _ _ hm := motorFree_ok hm
  led := hf

/-- SET_POSITION's write keeps the motor consistent. -/
theorem positionWrite_consistent {p : Params} (pos : Word) {m : Motor} (h : m.consistent p = true) :
    (positionWrite pos m).consistent p = true :=
  Motor.consistent_iff.mpr (Motor.consistent_iff.mp h)

/-- LIMIT_STEP_OFF's write keeps the motor consistent. -/
theorem stepOffWrite_consistent {p : Params} (count : Word) (size : BitVec 4) {m : Motor}
    (h : m.consistent p = true) : (stepOffWrite count size m).consistent p = true := by
  rw [Motor.consistent_iff] at h ⊢
  rcases stepOffWrite_cases count size m with ⟨_, _, e⟩ | ⟨_, e⟩ <;> rw [e] <;> exact h

/-- SPEED's motor sub-step. -/
theorem motorConfig_speed_ok {p : Params} (hp : p.legal = true) (hz : Word) {c : MotorCtx} (hc : c.cfg = p)
    (hm : c.m.consistent p = true) : MotorOk p c.latched (motorConfig c (speedWrite c hz)) := by
  subst hc
  obtain ⟨_, _, _, hclk, _⟩ := Params.legal_bounds hp
  exact motorConfig_ok hm (fun m => (configWrite_mState c hz 0 0 0 m).1)
    (fun _ h => speedWrite_consistent hz hclk h)

/-- Each command is a dispatch cycle whose parts keep the invariant. -/
theorem exec_dispatches_keeping {s : State} (hl : s.cfg.legal = true) (i : Instr) :
    ∃ h : Handler, exec i s = .next (dispatchCycle s (opcodeOf i) h) ∧ h.Keeps s.cfg := by
  obtain ⟨hwin, _⟩ := Params.legal_bounds hl
  have hquiet := Handler.quiet_keeps s.cfg
  cases i with
  | idle => exact ⟨_, exec_idle s, hquiet⟩
  | relative count size dir ign =>
    exact ⟨_, exec_relative count size dir ign s,
      Handler.keeps_of_motor _ fun _ _ hm => motorStart_ok size ign _ hm⟩
  | absolute target size ign =>
    exact ⟨_, exec_absolute target size ign s,
      Handler.keeps_of_motor _ fun _ _ hm => motorStart_ok size ign _ hm⟩
  | speed hz =>
    exact ⟨_, exec_speed hz s, Handler.keeps_of_motor _ fun _ hc hm => motorConfig_speed_ok hl hz hc hm⟩
  | stop => exact ⟨_, exec_stop s, Handler.keeps_of_motor _ fun _ _ hm => motorStop_ok hm⟩
  | setPosition pos =>
    exact ⟨_, exec_setPosition pos s, Handler.keeps_of_motor _ fun _ _ hm =>
      motorConfig_ok hm (fun _ => rfl) fun _ h => positionWrite_consistent pos h⟩
  | getPosition => exact ⟨_, exec_getPosition s, Handler.keeps_of_motor _ hquiet.motor⟩
  | ledPwm duty =>
    exact ⟨_, exec_ledPwm duty s, Handler.keeps_of_led _ fun _ h => ledPwmWrite_consistent duty h⟩
  | ledVoltage volts =>
    exact ⟨_, exec_ledVoltage volts s, Handler.keeps_of_led _ fun _ h => ledVoltageWrite_consistent volts hwin h⟩
  | ledPid value sel =>
    exact ⟨_, exec_ledPid value sel s, Handler.keeps_of_led _ fun _ h => ledPidWrite_consistent value sel h⟩
  | switchDebounce ms => exact ⟨_, exec_switchDebounce ms s, fun _ => rfl, hquiet.motor, hquiet.led⟩
  | emergencyStop => exact ⟨_, exec_emergencyStop s, fun _ => rfl, hquiet.motor, hquiet.led⟩
  | emergencyClear => exact ⟨_, exec_emergencyClear s, fun _ => rfl, hquiet.motor, hquiet.led⟩
  | limitStepOff count size =>
    exact ⟨_, exec_limitStepOff count size s, Handler.keeps_of_motor _ fun c _ hm =>
      motorConfig_ok hm (fun m => (configWrite_mState c 0 0 count size m).2.2)
        fun _ h => stepOffWrite_consistent count size h⟩

/-! ## Every step keeps the invariant -/

/-- The sub-steps before the reply formatter keep the invariant. -/
theorem cycleStep_inv {s : State} (hi : Inv s) (removed : Nat) {h : Handler} (hk : h.Keeps s.cfg) :
    Inv (cycleStep s removed h) := by
  obtain ⟨hwin, hpwm, _⟩ := Params.legal_bounds hi.1
  obtain ⟨hmotor, hled, hring, hreply⟩ := State.consistent_iff.mp hi.2
  refine Inv.of_parts hi rfl ?_ ?_ ?_ ?_
  · simp only [cycleStep_sw, cycleStep_motor, hk.latch, switchesNext_estopLatched]
    exact hk.motor (motorCtx s h) rfl hmotor.1
  · exact hk.led _ (ledFree_consistent s.input hwin hpwm hled)
  · exact RingBuf.consistent_cycle removed s.input hring
  · exact txStep_consistent s.input hreply

/-- A dispatch cycle keeps the invariant. -/
theorem dispatchCycle_inv {s : State} (hi : Inv s) (op : Half) {h : Handler} (hk : h.Keeps s.cfg) :
    Inv (dispatchCycle s op h) := by
  obtain ⟨_, _, _, hreply⟩ := State.consistent_iff.mp hi.2
  obtain ⟨hmotor, hled, hring, _⟩ := State.consistent_iff.mp (cycleStep_inv hi 12 hk).2
  exact Inv.of_parts hi rfl hmotor hled hring (dispatchCycle_reply_consistent op h hreply)

/-- The reset state of a legal block meets the invariant (R285). -/
theorem resetWith_inv {p : Params} (hp : p.legal = true) (inputs : List Input) (n : Nat) :
    Inv (State.resetWith p inputs n) := by
  obtain ⟨hwin, hpwm, hcap, _, _, htick, htickLt, _⟩ := Params.legal_bounds hp
  refine ⟨hp, State.consistent_iff.mpr ⟨⟨Motor.consistent_iff.mpr ⟨?_, ?_, ?_⟩, ?_⟩, ?_, ?_, rfl⟩⟩
  · exact MState.noConfusion
  · exact htick.trans_eq (BitVec.toNat_ofNat _ _ |>.trans (Nat.mod_eq_of_lt htickLt)).symm
  · exact fun _ => ⟨rfl, rfl, rfl, rfl, rfl, rfl⟩
  · simp [Motor.reset, Switches.reset]
  · exact Led.consistent_iff.mpr ⟨List.length_replicate, hwin, (dutyInRange_iff 0).mpr (Nat.zero_le _), hpwm⟩
  · have hpos : 0 < p.rbCap := by omega
    exact RingBuf.consistent_iff.mpr ⟨hpos, hpos, fun _ => rfl, rfl⟩

/-- Every step from a state that meets the invariant answers a state that meets it. -/
theorem step_inv {s t : State} (hi : Inv s) (hs : step s = .next t) : Inv t := by
  obtain ⟨hl, ⟨_, rfl⟩ | ⟨_, _, ⟨i, _, he⟩ | ⟨op, _, he⟩ | ⟨_, rfl⟩⟩⟩ := step_cases hs
  · exact resetWith_inv hl _ _
  · obtain ⟨h, hd, hk⟩ := exec_dispatches_keeping hl i
    obtain rfl := Host.Outcome.next.inj (he.symm.trans hd)
    exact dispatchCycle_inv hi _ hk
  · obtain rfl := Host.Outcome.next.inj (he.symm.trans (execUnknown_eq op s))
    exact dispatchCycle_inv hi op (Handler.keeps_of_motor _ (fun _ _ hm => motorFree_ok hm))
  · exact cycleStep_inv hi _ (Handler.quiet_keeps _)

/-! ## Runs -/

/-- A run's first step. -/
theorem runFor_succ_of_step {s t : State} (hs : step s = .next t) (k : Nat) : runFor (k + 1) s = runFor k t := by
  rw [runFor, hs]

/-- Settles O21, by induction on the number of cycles. -/
theorem blockNeverStops : Obligations.BlockNeverStops := by
  intro s k
  induction k generalizing s with
  | zero => exact fun hi => ⟨s, rfl, hi⟩
  | succ k ih =>
    intro hi
    obtain ⟨t, hs⟩ := step_next hi
    rw [runFor_succ_of_step hs]
    exact ih t (step_inv hi hs)

/-! ## Where the machine stops -/

/-- Illegal parameters are refused, `rst` high or low (log 8). -/
theorem step_of_illegal {s : State} (hl : s.cfg.legal = false) : step s = .refused .illegalParameters := by
  unfold step cycle whenLegal
  rw [hl]
  cases s.input.rst <;> rfl

/-- With legal parameters and `rst` low a step is the running cycle. -/
theorem step_of_rst_low {s : State} (hl : s.cfg.legal = true) (hr : s.input.rst = false) :
    step s = runningCycle s := by
  unfold step cycle whenLegal
  rw [hr, hl]

/-- EXIT at a clock edge is a fault (R24). -/
theorem runningCycle_of_exit {s : State} (he : s.motor.mState = .exit) : runningCycle s = .fault .exitHeld :=
  if_pos he

/-- A state that breaks an invariant of R45 is a fault (log 6). -/
theorem runningCycle_of_inconsistent {s : State} (he : s.motor.mState ≠ .exit) (hc : s.consistent = false) :
    runningCycle s = .fault .unreachableState :=
  (if_neg he).trans (if_neg (Bool.eq_false_iff.mp hc))

/-- Settles O23, by the guards of the step in their order. -/
theorem stopsOnlyWhereTheSpecSays : Obligations.StopsOnlyWhereTheSpecSays := by
  intro s
  refine ⟨step_of_illegal, fun hl hr he => ?_, fun hl hr he hc => ?_, fun hl h => ?_⟩
  · rw [step_of_rst_low hl hr, runningCycle_of_exit he]
  · rw [step_of_rst_low hl hr, runningCycle_of_inconsistent he hc]
  · rcases h with hr | hc
    · exact ⟨_, step_of_rst hl hr⟩
    · exact step_next ⟨hl, hc⟩

end Sys2Proof.Machine

/-! Binary32 rounding (00_scope.md R15): a magnitude's value, the finite values as a grid, rounding as the nearest point
of that grid with ties to even, and with it addition, multiplication and the conversion of small integers. -/

namespace Sys2Proof.Machine

/-! ## The value of a magnitude -/

/-- The value of a magnitude in units of 2^-149; magnitudes from infinity's on go on as if the exponent had no bound. -/
def F32.magUnits (k : Nat) : Nat :=
  if k / 2 ^ 23 = 0 then k % 2 ^ 23 else (2 ^ 23 + k % 2 ^ 23) * 2 ^ (k / 2 ^ 23 - 1)

/-- The units of a pattern are those of its magnitude. -/
theorem F32.units_eq (a : Word) : F32.units a = F32.magUnits (F32.mag a) := rfl

/-- A magnitude as scale and significand. The significand `2^24` is the carry into the next scale. -/
theorem F32.magUnits_scale {e q : Nat} (hlo : e = 0 ∨ 2 ^ 23 ≤ q) (hhi : q ≤ 2 ^ 24) :
    F32.magUnits (e * 2 ^ 23 + q) = q * 2 ^ e := by
  unfold F32.magUnits
  obtain hq | ⟨hq, hlt⟩ | hq : q < 2 ^ 23 ∨ (2 ^ 23 ≤ q ∧ q < 2 ^ 24) ∨ q = 2 ^ 24 := by omega
  · obtain rfl : e = 0 := by omega
    rw [if_pos (by omega), Nat.pow_zero]
    omega
  · rw [show (e * 2 ^ 23 + q) / 2 ^ 23 = e + 1 by omega, if_neg (Nat.succ_ne_zero e),
      show 2 ^ 23 + (e * 2 ^ 23 + q) % 2 ^ 23 = q by omega, Nat.add_sub_cancel]
  · rw [show (e * 2 ^ 23 + q) / 2 ^ 23 = e + 1 + 1 by omega, if_neg (Nat.succ_ne_zero _),
      show 2 ^ 23 + (e * 2 ^ 23 + q) % 2 ^ 23 = 2 ^ 23 by omega, Nat.add_sub_cancel, hq]
    ring

/-- Every magnitude has a scale and a significand of at most 24 bits, all 24 but at the lowest scale. -/
theorem F32.exists_scale (k : Nat) : ∃ e q, k = e * 2 ^ 23 + q ∧ (e = 0 ∨ 2 ^ 23 ≤ q) ∧ q < 2 ^ 24 := by
  by_cases h : k < 2 ^ 23
  · exact ⟨0, k, by omega, Or.inl rfl, by omega⟩
  · exact ⟨k / 2 ^ 23 - 1, 2 ^ 23 + k % 2 ^ 23, by omega, Or.inr (by omega), by omega⟩

/-- A greater magnitude has a greater value. -/
theorem F32.magUnits_strictMono : StrictMono F32.magUnits := by
  refine strictMono_nat_of_lt_succ fun k => ?_
  obtain ⟨e, q, rfl, hlo, hhi⟩ := F32.exists_scale k
  rw [Nat.add_assoc, F32.magUnits_scale hlo hhi.le, F32.magUnits_scale (by omega) hhi]
  exact Nat.mul_lt_mul_of_pos_right (Nat.lt_succ_self q) (Nat.two_pow_pos e)

/-- A value that needs all 24 bits at scale `e` is a multiple of `2^e`. -/
theorem F32.dvd_magUnits {e k : Nat} (h : 2 ^ 23 * 2 ^ e ≤ F32.magUnits k) : 2 ^ e ∣ F32.magUnits k := by
  obtain ⟨e', q, rfl, hlo, hhi⟩ := F32.exists_scale k
  rw [F32.magUnits_scale hlo hhi.le] at h ⊢
  have hee : e ≤ e' := by
    by_contra hlt
    have hpow : 2 * 2 ^ e' ≤ 2 ^ e := by rw [← Nat.pow_succ']; exact Nat.pow_le_pow_right (by omega) (by omega)
    have hq : q * 2 ^ e' < 2 ^ 24 * 2 ^ e' := Nat.mul_lt_mul_of_pos_right hhi (Nat.two_pow_pos e')
    omega
  exact Dvd.dvd.mul_left (Nat.pow_dvd_pow 2 hee) q

/-! ## Rounding on the unbounded grid -/

/-- The scale that `F32.roundMag` rounds at: `m` units keep 24 bits, or fewer where the value is subnormal. -/
def F32.roundScale (m drop : Nat) : Nat := max drop (bitLength m - 24)

/-- The rounded magnitude before it is capped at infinity's. -/
def F32.roundFree (m drop : Nat) : Nat :=
  (F32.roundScale m drop - drop) * 2 ^ 23 + roundShift m (F32.roundScale m drop)

/-- Rounding is rounding on the unbounded grid, capped at infinity. -/
theorem F32.roundMag_eq (m drop : Nat) : F32.roundMag m drop = min F32.infMag (F32.roundFree m drop) := rfl

/-- At the scale of rounding a number has at most 24 bits. -/
theorem F32.lt_roundScale (m drop : Nat) : m < 2 ^ 24 * 2 ^ F32.roundScale m drop := by
  rw [← Nat.pow_add]
  refine (lt_two_pow_bitLength m).trans_le (Nat.pow_le_pow_right (by omega) ?_)
  unfold F32.roundScale
  omega

/-- Above the lowest scale a number has exactly 24 bits at the scale of rounding. -/
theorem F32.roundScale_le {m drop : Nat} (h : F32.roundScale m drop ≠ drop) :
    2 ^ 23 * 2 ^ F32.roundScale m drop ≤ m := by
  unfold F32.roundScale at h ⊢
  have hbits : 24 < bitLength m := by omega
  have hm : m ≠ 0 := by rintro rfl; exact absurd hbits (by decide)
  have htop := two_pow_bitLength_le hm
  rw [show bitLength m = max drop (bitLength m - 24) + 24 by omega, Nat.pow_add] at htop
  omega

/-- The quotient that `roundShift` rounds keeps the 24 bits, a carry included. -/
theorem F32.roundShift_bounds (m drop : Nat) :
    (F32.roundScale m drop - drop = 0 ∨ 2 ^ 23 ≤ roundShift m (F32.roundScale m drop)) ∧
    roundShift m (F32.roundScale m drop) ≤ 2 ^ 24 := by
  obtain ⟨hup, hdown, _⟩ := roundShift_near m (F32.roundScale m drop)
  have hlt := F32.lt_roundScale m drop
  have hge := F32.roundScale_le (m := m) (drop := drop)
  generalize F32.roundScale m drop = n at *
  generalize roundShift m n = q at *
  generalize 2 ^ n = t at *
  constructor
  · by_cases hn : n = drop
    · exact Or.inl (by omega)
    · refine Or.inr (Nat.le_of_not_lt fun hq => ?_)
      have hbelow := Nat.mul_le_mul_right t (show q + 1 ≤ 2 ^ 23 from hq)
      have habove := hge hn
      rw [Nat.add_mul] at hbelow
      omega
  · refine Nat.le_of_not_lt fun hq => ?_
    have habove := Nat.mul_le_mul_right t (show 2 ^ 24 + 1 ≤ q from hq)
    omega

/-- The value of the rounded magnitude. -/
theorem F32.magUnits_roundFree (m drop : Nat) :
    F32.magUnits (F32.roundFree m drop) * 2 ^ drop =
      roundShift m (F32.roundScale m drop) * 2 ^ F32.roundScale m drop := by
  obtain ⟨hlo, hhi⟩ := F32.roundShift_bounds m drop
  have hdrop : drop ≤ F32.roundScale m drop := Nat.le_max_left _ _
  rw [F32.roundFree, F32.magUnits_scale hlo hhi, Nat.mul_assoc, ← Nat.pow_add, Nat.sub_add_cancel hdrop]

/-- The rounded magnitude is even where the rounded quotient is. -/
theorem F32.roundFree_mod_two (m drop : Nat) :
    F32.roundFree m drop % 2 = roundShift m (F32.roundScale m drop) % 2 := by
  unfold F32.roundFree; omega

/-- Of the multiples of `2^n` none is nearer to `m` than the one `roundShift` gives, and only an even one is as near as
another. -/
theorem roundShift_nearest (m n j : Nat) :
    Nat.dist (roundShift m n * 2 ^ n) m ≤ Nat.dist (j * 2 ^ n) m ∧
    (Nat.dist (roundShift m n * 2 ^ n) m = Nat.dist (j * 2 ^ n) m → j ≠ roundShift m n →
      roundShift m n % 2 = 0) := by
  obtain ⟨hup, hdown, htie⟩ := roundShift_near m n
  simp only [Nat.dist]
  generalize roundShift m n = q at *
  generalize 2 ^ n = t at *
  rcases Nat.lt_trichotomy j q with hjq | rfl | hqj
  · have hstep := Nat.mul_le_mul_right t (show j + 1 ≤ q from hjq)
    rw [Nat.add_mul] at hstep
    exact ⟨by omega, fun _ _ => htie (by omega)⟩
  · exact ⟨le_rfl, fun _ hne => absurd rfl hne⟩
  · have hstep := Nat.mul_le_mul_right t (show q + 1 ≤ j from hqj)
    rw [Nat.add_mul] at hstep
    exact ⟨by omega, fun _ _ => htie (by omega)⟩

/-- No magnitude's value is nearer to `m` units of 2^-(149 + drop) than the rounded one, and only an even one is as near
as another. -/
theorem F32.roundFree_nearest (m drop k : Nat) :
    Nat.dist (F32.magUnits (F32.roundFree m drop) * 2 ^ drop) m ≤ Nat.dist (F32.magUnits k * 2 ^ drop) m ∧
    (Nat.dist (F32.magUnits (F32.roundFree m drop) * 2 ^ drop) m = Nat.dist (F32.magUnits k * 2 ^ drop) m →
      F32.magUnits k ≠ F32.magUnits (F32.roundFree m drop) → F32.roundFree m drop % 2 = 0) := by
  have hvalue := F32.magUnits_roundFree m drop
  have hdrop : drop ≤ F32.roundScale m drop := Nat.le_max_left _ _
  have hscale : 2 ^ F32.roundScale m drop = 2 ^ (F32.roundScale m drop - drop) * 2 ^ drop := by
    rw [← Nat.pow_add, Nat.sub_add_cancel hdrop]
  by_cases hdvd : 2 ^ (F32.roundScale m drop - drop) ∣ F32.magUnits k
  · -- the value is a multiple of the scale's unit
    obtain ⟨j, hj⟩ := hdvd
    have hk : F32.magUnits k * 2 ^ drop = j * 2 ^ F32.roundScale m drop := by rw [hj, hscale]; ring
    obtain ⟨hle, htie⟩ := roundShift_nearest m (F32.roundScale m drop) j
    rw [hvalue, hk, F32.roundFree_mod_two]
    refine ⟨hle, fun heq hne => htie heq ?_⟩
    rintro rfl
    exact hne (Nat.eq_of_mul_eq_mul_right (Nat.two_pow_pos drop) (hk.trans hvalue.symm))
  · -- a finer value lies below the least 24-bit multiple, which is nearer
    have hbelow : F32.magUnits k * 2 ^ drop < 2 ^ 23 * 2 ^ F32.roundScale m drop := by
      rw [hscale, ← Nat.mul_assoc]
      exact Nat.mul_lt_mul_of_pos_right (Nat.lt_of_not_le fun h => hdvd (F32.dvd_magUnits h)) (Nat.two_pow_pos drop)
    have hm := F32.roundScale_le (m := m) (drop := drop) fun h => hdvd (by simp [h])
    obtain ⟨hle, _⟩ := roundShift_nearest m (F32.roundScale m drop) (2 ^ 23)
    rw [hvalue]
    simp only [Nat.dist] at hle ⊢
    exact ⟨by omega, fun _ _ => by omega⟩

/-- The rounded magnitude reaches infinity's exactly from half an ulp above the largest finite value on. -/
theorem F32.infMag_le_roundFree (m drop : Nat) :
    F32.infMag ≤ F32.roundFree m drop ↔ (2 ^ 25 - 1) * 2 ^ (252 + drop) ≤ m := by
  have hmax : F32.magUnits (F32.infMag - 1) = (2 ^ 24 - 1) * 2 ^ 253 :=
    F32.magUnits_scale (e := 253) (q := 2 ^ 24 - 1) (Or.inr (by decide)) (by decide)
  have hinf : F32.magUnits F32.infMag = 2 ^ 24 * 2 ^ 253 :=
    F32.magUnits_scale (e := 253) (q := 2 ^ 24) (Or.inr (by decide)) le_rfl
  obtain ⟨hnearMax, _⟩ := F32.roundFree_nearest m drop (F32.infMag - 1)
  obtain ⟨hnearInf, htieInf⟩ := F32.roundFree_nearest m drop F32.infMag
  rw [Nat.pow_add, ← Nat.mul_assoc]
  rw [hmax] at hnearMax
  rw [hinf] at hnearInf htieInf
  simp only [Nat.dist] at hnearMax hnearInf htieInf
  constructor
  · intro hge
    have hval := Nat.mul_le_mul_right (2 ^ drop) (F32.magUnits_strictMono.monotone hge)
    rw [hinf] at hval
    omega
  · intro hm
    by_contra hlt
    have hle : F32.roundFree m drop ≤ F32.infMag - 1 := by omega
    have hval := Nat.mul_le_mul_right (2 ^ drop) (F32.magUnits_strictMono.monotone hle)
    rw [hmax] at hval
    -- the only value as near as infinity's is the largest finite one, whose magnitude is odd
    have heq : F32.magUnits (F32.roundFree m drop) * 2 ^ drop = (2 ^ 24 - 1) * 2 ^ 253 * 2 ^ drop := by omega
    have hmag : F32.roundFree m drop = F32.infMag - 1 :=
      F32.magUnits_strictMono.injective ((Nat.eq_of_mul_eq_mul_right (Nat.two_pow_pos drop) heq).trans hmax.symm)
    have hodd : (F32.infMag - 1) % 2 = 1 := by decide
    rw [hmag, hmax] at htieInf
    have heven := htieInf (by omega) (by decide)
    omega

/-! ## Signs -/

/-- A number of units with a sign; `F32.value_eq` ties it to the value of a pattern. -/
def F32.signed (neg : Bool) (n : Nat) : Int := if neg then -(n : Int) else n

/-- The value of a pattern is its units with its sign. -/
theorem F32.value_eq (a : Word) : F32.value a = F32.signed (F32.sign a) (F32.magUnits (F32.mag a)) := rfl

/-- The absolute value of a signed number. -/
@[simp] theorem F32.natAbs_signed (neg : Bool) (n : Nat) : (F32.signed neg n).natAbs = n := by
  cases neg <;> simp [F32.signed]

/-- The product of signed numbers. -/
theorem F32.signed_mul (neg neg' : Bool) (m n : Nat) :
    F32.signed neg m * F32.signed neg' n = F32.signed (neg != neg') (m * n) := by
  cases neg <;> cases neg' <;> simp [F32.signed]

/-- Scaling keeps the sign. -/
theorem F32.signed_mul_two_pow (neg : Bool) (m d : Nat) : F32.signed neg m * 2 ^ d = F32.signed neg (m * 2 ^ d) := by
  cases neg <;> simp [F32.signed]

/-- A number is its absolute value with its sign. -/
theorem F32.signed_natAbs (x : Int) : F32.signed (decide (x < 0)) x.natAbs = x := by
  unfold F32.signed
  split <;> rename_i h <;> rw [decide_eq_true_iff] at h <;> omega

/-- Only zero is the same with both signs. -/
theorem F32.signed_inj {neg neg' : Bool} {m n : Nat} :
    F32.signed neg m = F32.signed neg' n ↔ m = n ∧ (neg = neg' ∨ m = 0) := by
  cases neg <;> cases neg' <;> simp [F32.signed] <;> omega

/-- The distance of two signed numbers. -/
theorem F32.natAbs_signed_sub (neg neg' : Bool) (m n : Nat) :
    (F32.signed neg m - F32.signed neg' n).natAbs = if neg = neg' then Nat.dist m n else m + n := by
  cases neg <;> cases neg' <;> simp [F32.signed, Nat.dist] <;> omega

/-! ## Rounding of a signed number -/

/-- The value of a packed pattern. -/
theorem F32.value_pack (neg : Bool) {m : Nat} (h : m < 2 ^ 31) :
    F32.value (F32.pack neg m) = F32.signed neg (F32.magUnits m) := by
  rw [F32.value_eq, F32.sign_pack _ _ h, F32.mag_pack _ _ h]

/-- `r` is the exact number `x`, in units of 2^-(149 + drop), rounded to nearest with ties to even. -/
def F32.RoundsTo (r : Word) (x : Int) (drop : Nat) : Prop :=
  (F32.isInf r = true ↔ (2 ^ 25 - 1) * 2 ^ (252 + drop) ≤ x.natAbs) ∧ F32.isNaN r = false ∧
  (F32.isFinite r = true → ∀ c : Word,
    (F32.value r * 2 ^ drop - x).natAbs ≤ (F32.value c * 2 ^ drop - x).natAbs ∧
    ((F32.value r * 2 ^ drop - x).natAbs = (F32.value c * 2 ^ drop - x).natAbs → F32.value c ≠ F32.value r →
      r.toNat % 2 = 0))

/-- A rounded result is infinite exactly where the rounding reaches infinity's magnitude. -/
theorem F32.isInf_pack_roundMag (neg : Bool) (m drop : Nat) :
    F32.isInf (F32.pack neg (F32.roundMag m drop)) = true ↔ (2 ^ 25 - 1) * 2 ^ (252 + drop) ≤ m := by
  have hle := F32.roundMag_le m drop
  rw [← F32.infMag_le_roundFree, F32.isInf, decide_eq_true_iff, F32.mag_pack _ _ (by omega), F32.roundMag_eq]
  exact min_eq_left_iff

/-- A finite rounded result has the rounded magnitude. -/
theorem F32.roundMag_of_finite {neg : Bool} {m drop : Nat}
    (h : F32.isFinite (F32.pack neg (F32.roundMag m drop)) = true) : F32.roundMag m drop = F32.roundFree m drop := by
  have hle := F32.roundMag_le m drop
  rw [F32.isFinite, decide_eq_true_iff, F32.mag_pack _ _ (by omega)] at h
  rw [F32.roundMag_eq] at h ⊢
  omega

/-- No value of either sign is nearer than the rounded one, and only an even magnitude is as near as another value. -/
theorem F32.signed_roundFree_nearest (neg neg' : Bool) (m drop k : Nat) :
    let v := F32.signed neg (F32.magUnits (F32.roundFree m drop))
    let w := F32.signed neg' (F32.magUnits k)
    let x := F32.signed neg m
    (v * 2 ^ drop - x).natAbs ≤ (w * 2 ^ drop - x).natAbs ∧
    ((v * 2 ^ drop - x).natAbs = (w * 2 ^ drop - x).natAbs → w ≠ v → F32.roundFree m drop % 2 = 0) := by
  obtain ⟨hle, htie⟩ := F32.roundFree_nearest m drop k
  obtain ⟨hzero, _⟩ := F32.roundFree_nearest m drop 0
  have hpos := Nat.two_pow_pos drop
  simp only [F32.signed_mul_two_pow, F32.natAbs_signed_sub, if_true, ne_eq, F32.signed_inj]
  rw [show F32.magUnits 0 = 0 from rfl] at hzero
  by_cases hs : neg' = neg
  · rw [if_pos hs]
    exact ⟨hle, fun heq hne => htie heq fun h => hne ⟨h, Or.inl hs⟩⟩
  · -- on the other side of zero a value is as near only where it is zero
    rw [if_neg hs]
    simp only [Nat.dist] at hle htie hzero ⊢
    refine ⟨by omega, fun heq hne => ?_⟩
    have hk : F32.magUnits k * 2 ^ drop = 0 := by omega
    have hk0 : F32.magUnits k = 0 := (Nat.mul_eq_zero.mp hk).resolve_right hpos.ne'
    exact htie (by omega) fun h => hne ⟨h, Or.inr hk0⟩

/-- Packing a rounded magnitude rounds the signed number. -/
theorem F32.roundsTo_pack (neg : Bool) (m drop : Nat) :
    F32.RoundsTo (F32.pack neg (F32.roundMag m drop)) (F32.signed neg m) drop := by
  refine ⟨?_, F32.isNaN_pack_roundMag neg m drop, fun hfin c => ?_⟩
  · rw [F32.natAbs_signed]
    exact F32.isInf_pack_roundMag neg m drop
  · have hlt : F32.roundMag m drop < 2 ^ 31 := by have := F32.roundMag_le m drop; omega
    have hmod : (F32.pack neg (F32.roundMag m drop)).toNat % 2 = F32.roundMag m drop % 2 := by
      rw [F32.toNat_pack _ _ hlt]; split <;> omega
    rw [F32.value_pack neg hlt, F32.value_eq c, hmod, F32.roundMag_of_finite hfin]
    exact F32.signed_roundFree_nearest neg (F32.sign c) m drop (F32.mag c)

/-! ## Small integers -/

/-- Up to 24 bits times a power of two need no coarser scale than that power. -/
theorem F32.roundScale_le_of_lt {n d : Nat} (hn : n < 2 ^ 24) : F32.roundScale (n * 2 ^ d) 0 ≤ d := by
  by_cases h0 : F32.roundScale (n * 2 ^ d) 0 = 0
  · omega
  · have hlo := F32.roundScale_le h0
    have hhi : n * 2 ^ d < 2 ^ 24 * 2 ^ d := Nat.mul_lt_mul_of_pos_right hn (Nat.two_pow_pos d)
    have hpow : 2 ^ F32.roundScale (n * 2 ^ d) 0 < 2 ^ (d + 1) := by rw [Nat.pow_succ]; omega
    exact Nat.lt_succ_iff.mp ((Nat.pow_lt_pow_iff_right (by decide)).mp hpow)

/-- Up to 24 bits times a power of two round to themselves. -/
theorem F32.magUnits_roundFree_exact {n d : Nat} (hn : n < 2 ^ 24) :
    F32.magUnits (F32.roundFree (n * 2 ^ d) 0) = n * 2 ^ d := by
  have hvalue := F32.magUnits_roundFree (n * 2 ^ d) 0
  have hscale := F32.roundScale_le_of_lt (d := d) hn
  have hmul : n * 2 ^ d = n * 2 ^ (d - F32.roundScale (n * 2 ^ d) 0) * 2 ^ F32.roundScale (n * 2 ^ d) 0 := by
    rw [Nat.mul_assoc, ← Nat.pow_add, Nat.sub_add_cancel hscale]
  obtain ⟨hnear, _⟩ := roundShift_nearest (n * 2 ^ d) (F32.roundScale (n * 2 ^ d) 0)
    (n * 2 ^ (d - F32.roundScale (n * 2 ^ d) 0))
  rw [← hmul, Nat.dist_self] at hnear
  rw [pow_zero, mul_one] at hvalue
  exact hvalue.trans (Nat.eq_of_dist_eq_zero (Nat.le_zero.mp hnear))

/-- A pattern is a NaN, an infinity or finite. -/
theorem F32.isFinite_of_not {a : Word} (hn : F32.isNaN a = false) (hi : F32.isInf a = false) :
    F32.isFinite a = true := by
  simp only [F32.isNaN, F32.isInf, F32.isFinite, decide_eq_false_iff_not, decide_eq_true_eq] at hn hi ⊢
  omega

/-- Settles O58: a number of 24 bits is a point of the grid, so it rounds to itself, far below infinity. -/
theorem smallIntegersConvertExactly : Obligations.SmallIntegersConvertExactly := by
  intro n hn
  have hinf : F32.isInf (F32.ofNat n) = false :=
    Bool.eq_false_iff.mpr fun h => by have := (F32.isInf_pack_roundMag _ _ _).mp h; omega
  have hfin := F32.isFinite_of_not (F32.isNaN_pack_roundMag false (n * 2 ^ 149) 0) hinf
  have hmag : F32.roundMag (n * 2 ^ 149) 0 = F32.roundFree (n * 2 ^ 149) 0 := F32.roundMag_of_finite hfin
  have hle := F32.roundMag_le (n * 2 ^ 149) 0
  refine ⟨hfin, ?_⟩
  rw [F32.ofNat, F32.value_pack false (by omega), hmag, F32.magUnits_roundFree_exact hn]
  exact Int.natCast_mul n (2 ^ 149)

/-! ## Addition -/

/-- Addition of two finite values: the exact sum rounded, with the sum's sign or, at zero, the operands' common one. -/
theorem F32.add_of_finite {a b : Word} (ha : F32.isFinite a = true) (hb : F32.isFinite b = true) :
    F32.add a b = F32.pack (if F32.value a + F32.value b = 0 then F32.sign a && F32.sign b
      else decide (F32.value a + F32.value b < 0)) (F32.roundMag (F32.value a + F32.value b).natAbs 0) := by
  obtain ⟨hna, hia⟩ := F32.isFinite_not ha
  obtain ⟨hnb, hib⟩ := F32.isFinite_not hb
  simp only [F32.add, hna, hnb, hia, hib, Bool.or_self, Bool.false_eq_true, if_false]
  by_cases hz : F32.value a + F32.value b = 0
  · rw [if_pos hz, if_pos hz, hz]
    cases F32.sign a && F32.sign b <;> rfl
  · rw [if_neg hz, if_neg hz]

/-- A NaN operand of an addition. -/
theorem F32.add_of_isNaN {a b : Word} (h : F32.isNaN a = true ∨ F32.isNaN b = true) :
    F32.add a b = F32.nan .add a b := if_pos (by simpa using h)

/-- An infinite first operand of an addition. -/
theorem F32.add_of_isInf_left {a b : Word} (ha : F32.isInf a = true) (hb : F32.isNaN b = false) :
    F32.add a b = if F32.isInf b && (F32.sign a != F32.sign b) then F32.nan .add a b else a := by
  simp only [F32.add, (F32.isInf_not ha).1, hb, ha, Bool.or_self, Bool.false_eq_true, if_false, if_true]

/-- A finite first and an infinite second operand of an addition. -/
theorem F32.add_of_isInf_right {a b : Word} (ha : F32.isFinite a = true) (hb : F32.isInf b = true) :
    F32.add a b = b := by
  obtain ⟨hna, hia⟩ := F32.isFinite_not ha
  simp only [F32.add, hna, hia, (F32.isInf_not hb).1, hb, Bool.or_self, Bool.false_eq_true, if_false, if_true]

/-- Subtraction is addition of the negated operand, but for the pattern of a NaN. -/
theorem F32.sub_cases (a b : Word) :
    (F32.isNaN (F32.add a (F32.neg b)) = true ∧ F32.sub a b = F32.nan .sub a b) ∨
    (F32.isNaN (F32.add a (F32.neg b)) = false ∧ F32.sub a b = F32.add a (F32.neg b)) := by
  unfold F32.sub
  cases h : F32.isNaN (F32.add a (F32.neg b))
  · exact Or.inr ⟨rfl, by simp [h]⟩
  · exact Or.inl ⟨rfl, by simp [h]⟩

/-- The sum of two finite values is the exact sum rounded. -/
theorem F32.roundsTo_add {a b : Word} (ha : F32.isFinite a = true) (hb : F32.isFinite b = true) :
    F32.RoundsTo (F32.add a b) (F32.value a + F32.value b) 0 := by
  rw [F32.add_of_finite ha hb]
  generalize F32.value a + F32.value b = x
  by_cases hx : x = 0
  · subst hx
    simpa [F32.signed] using F32.roundsTo_pack (F32.sign a && F32.sign b) 0 0
  · simpa [hx, F32.signed_natAbs] using F32.roundsTo_pack (decide (x < 0)) x.natAbs 0

/-- The sign of the sum of two finite values. -/
theorem F32.sign_add {a b : Word} (ha : F32.isFinite a = true) (hb : F32.isFinite b = true) :
    F32.sign (F32.add a b) = if F32.value a + F32.value b = 0 then F32.sign a && F32.sign b
      else decide (F32.value a + F32.value b < 0) := by
  rw [F32.add_of_finite ha hb, F32.sign_pack_roundMag]

/-- Settles O55, by the classes of the operands; for finite ones from `F32.roundsTo_add`. -/
theorem addRoundsToNearestEven : Obligations.AddRoundsToNearestEven := by
  refine ⟨fun a b c ha hb _ => ?_, fun a b => ⟨fun h => ?_, fun ha hb hs => ?_, fun ha hb hs => ?_, ?_, ?_, ?_⟩⟩
  · obtain ⟨hinf, hnan, hnear⟩ := F32.roundsTo_add ha hb
    have hsign := F32.sign_add ha hb
    refine ⟨hinf, hnan, fun hfin => ?_, fun hx => ?_, fun hx => ?_⟩
    · simpa only [pow_zero, mul_one] using hnear hfin c
    · rw [hsign, if_neg hx]
    · rw [hsign, if_pos hx]
  · rw [F32.add_of_isNaN h]; exact F32.isNaN_nan _ a b
  · rw [F32.add_of_isInf_left ha (F32.isInf_not hb).1, if_pos (by simp [hb, hs])]; exact F32.isNaN_nan _ a b
  · rw [F32.add_of_isInf_left ha hb, if_neg (by simpa using hs)]
  · exact F32.add_of_isInf_right
  · rcases F32.sub_cases a b with ⟨hr, e⟩ | ⟨_, e⟩ <;> rw [e]
    · exact (F32.isNaN_nan _ a b).trans hr.symm
    · rfl
  · rcases F32.sub_cases a b with ⟨_, e⟩ | ⟨_, e⟩ <;> rw [e]
    · intro h; rw [F32.isNaN_nan] at h; cases h
    · exact fun _ => rfl

/-! ## Multiplication -/

/-- Multiplication of two finite values: the exact product rounded, with the exclusive or of the signs. -/
theorem F32.mul_of_finite {a b : Word} (ha : F32.isFinite a = true) (hb : F32.isFinite b = true) :
    F32.mul a b = F32.pack (F32.sign a != F32.sign b) (F32.roundMag (F32.units a * F32.units b) 149) := by
  obtain ⟨hna, hia⟩ := F32.isFinite_not ha
  obtain ⟨hnb, hib⟩ := F32.isFinite_not hb
  simp only [F32.mul, hna, hnb, hia, hib, Bool.or_self, Bool.false_eq_true, if_false]

/-- A NaN operand of a multiplication. -/
theorem F32.mul_of_isNaN {a b : Word} (h : F32.isNaN a = true ∨ F32.isNaN b = true) :
    F32.mul a b = F32.nan .mul a b := if_pos (by simpa using h)

/-- An infinite operand of a multiplication without a NaN operand. -/
theorem F32.mul_of_isInf {a b : Word} (ha : F32.isNaN a = false) (hb : F32.isNaN b = false)
    (h : F32.isInf a = true ∨ F32.isInf b = true) :
    F32.mul a b = if F32.mag a = 0 ∨ F32.mag b = 0 then F32.nan .mul a b
      else F32.pack (F32.sign a != F32.sign b) F32.infMag := by
  have hinf : (F32.isInf a || F32.isInf b) = true := by simpa using h
  simp only [F32.mul, ha, hb, hinf, Bool.or_self, Bool.false_eq_true, if_false, if_true, Bool.or_eq_true,
    decide_eq_true_eq]

/-- An infinity has a magnitude. -/
theorem F32.mag_ne_zero_of_isInf {a : Word} (h : F32.isInf a = true) : F32.mag a ≠ 0 := by
  rw [F32.isInf, decide_eq_true_iff] at h
  rw [h]; decide

/-- A packed infinity is an infinity. -/
theorem F32.isInf_pack_infMag (neg : Bool) : F32.isInf (F32.pack neg F32.infMag) = true := by
  cases neg <;> decide

/-- The product of two finite values is the exact product rounded. -/
theorem F32.roundsTo_mul {a b : Word} (ha : F32.isFinite a = true) (hb : F32.isFinite b = true) :
    F32.RoundsTo (F32.mul a b) (F32.value a * F32.value b) 149 := by
  rw [F32.mul_of_finite ha hb, F32.value_eq a, F32.value_eq b, F32.signed_mul]
  exact F32.roundsTo_pack _ _ _

/-- Every product is the free NaN or carries the exclusive or of the signs. -/
theorem F32.mul_cases (a b : Word) :
    F32.mul a b = F32.nan .mul a b ∨
    ∃ m, m < 2 ^ 31 ∧ F32.mul a b = F32.pack (F32.sign a != F32.sign b) m := by
  simp only [F32.mul]
  split
  · exact Or.inl rfl
  split
  · split
    · exact Or.inl rfl
    · exact Or.inr ⟨_, by decide, rfl⟩
  · exact Or.inr ⟨_, (F32.roundMag_le _ _).trans_lt (by decide), rfl⟩

/-- The sign of a product that is no NaN. -/
theorem F32.sign_mul {a b : Word} (h : F32.isNaN (F32.mul a b) = false) :
    F32.sign (F32.mul a b) = (F32.sign a ^^ F32.sign b) := by
  rcases F32.mul_cases a b with e | ⟨m, hm, e⟩
  · rw [e, F32.isNaN_nan] at h; cases h
  · rw [e, F32.sign_pack _ _ hm]

/-- A product with an infinite operand is a NaN where the other is zero, else infinite. -/
theorem F32.mul_isInf_class {a b : Word} (ha : F32.isNaN a = false) (hb : F32.isNaN b = false)
    (h : F32.isInf a = true ∨ F32.isInf b = true) :
    if F32.mag a = 0 ∨ F32.mag b = 0 then F32.isNaN (F32.mul a b) = true else F32.isInf (F32.mul a b) = true := by
  rw [F32.mul_of_isInf ha hb h]
  by_cases hz : F32.mag a = 0 ∨ F32.mag b = 0
  · rw [if_pos hz, if_pos hz]; exact F32.isNaN_nan _ a b
  · rw [if_neg hz, if_neg hz]; exact F32.isInf_pack_infMag _

/-- Settles O56, by the classes of the operands; for finite ones from `F32.roundsTo_mul`. -/
theorem mulRoundsToNearestEven : Obligations.MulRoundsToNearestEven := by
  refine ⟨fun a b c ha hb _ => ?_, fun a b => ⟨F32.sign_mul, fun h => ?_, fun ha hb => ?_, fun ha hb => ?_,
    fun ha hb => ?_⟩⟩
  · obtain ⟨hinf, hnan, hnear⟩ := F32.roundsTo_mul ha hb
    rw [show 252 + 149 = 401 from rfl] at hinf
    exact ⟨hinf, hnan, fun hfin => hnear hfin c⟩
  · rw [F32.mul_of_isNaN h]; exact F32.isNaN_nan _ a b
  · have hclass := F32.mul_isInf_class (F32.isInf_not ha).1 (F32.isFinite_not hb).1 (Or.inl ha)
    simpa only [F32.value_eq_zero, F32.mag_ne_zero_of_isInf ha, false_or] using hclass
  · have hclass := F32.mul_isInf_class (F32.isFinite_not ha).1 (F32.isInf_not hb).1 (Or.inr hb)
    simpa only [F32.value_eq_zero, F32.mag_ne_zero_of_isInf hb, or_false] using hclass
  · have hclass := F32.mul_isInf_class (F32.isInf_not ha).1 (F32.isInf_not hb).1 (Or.inl ha)
    simpa only [F32.mag_ne_zero_of_isInf ha, F32.mag_ne_zero_of_isInf hb, or_self, if_false] using hclass

end Sys2Proof.Machine

/-! One cycle with `rst` low as a function of the state, whatever the parser decides: the successor's registers are
those of one cycle with the accepted command's handler, or with the quiet one. -/

namespace Sys2Proof.Machine

-- as in the tests: proofs checked one after another stay inside the sandbox's limit on threads
set_option Elab.async false

/-! ## The handler of a cycle -/

/-- The parts a known command takes in its dispatch cycle. -/
def instrHandler : Instr → Handler
  | .idle => Handler.quiet
  | .relative count size dir ign => { Handler.quiet with
      motor := fun c => motorStart c size ign (fun _ => (count, dir))
      res := fun c => (stepCheck c size ign).code }
  | .absolute target size ign => { Handler.quiet with
      motor := fun c => motorStart c size ign (fun sz => absoluteMove target c.m.position (stepDist c.cfg sz))
      res := fun c => (stepCheck c size ign).code }
  | .speed hz => { Handler.quiet with
      motor := fun c => motorConfig c (speedWrite c hz), res := fun c => (speedCheck c hz).code }
  | .stop => { Handler.quiet with motor := motorStop }
  | .setPosition pos => { Handler.quiet with motor := fun c => motorConfig c (positionWrite pos) }
  | .getPosition => { Handler.quiet with res := fun c => c.m.position }
  | .ledPwm duty => { Handler.quiet with led := ledPwmWrite duty }
  | .ledVoltage volts => { Handler.quiet with led := ledVoltageWrite volts }
  | .ledPid value sel => { Handler.quiet with led := ledPidWrite value sel, res := fun _ => (ledPidCheck sel).code }
  | .switchDebounce ms => { Handler.quiet with switches := fun sw => { sw with debounceMs := ms } }
  | .emergencyStop => { Handler.quiet with set := true }
  | .emergencyClear => { Handler.quiet with
      clear := true, res := fun c => if c.latched then Result.blocked.code else Result.success.code }
  | .limitStepOff count size => { Handler.quiet with
      motor := fun c => motorConfig c (stepOffWrite count size), res := fun _ => (stepOffCheck size).code }

/-- The parts taken in a cycle, by what the parser accepts in it. -/
def handlerOf : Option Command → Handler
  | none => Handler.quiet
  | some (.known i) => instrHandler i
  | some (.unknown _) => { Handler.quiet with res := fun _ => Result.unknown.code }

/-- The opcode a reply echoes (R93, R144). -/
def commandOpcode : Command → Half
  | .known i => opcodeOf i
  | .unknown op => op

/-- A command is the dispatch cycle of its handler. -/
theorem exec_eq_dispatchCycle (i : Instr) (s : State) :
    exec i s = .next (dispatchCycle s (opcodeOf i) (instrHandler i)) := by
  cases i <;> rfl

/-- The state after a cycle with `rst` low. -/
def runningNext (s : State) : State :=
  match dispatched s with
  | none => quietCycle s (parserStep s).1
  | some c => dispatchCycle s (commandOpcode c) (handlerOf (some c))

/-- With `rst` low, a step from a state that meets the invariant answers `runningNext`. -/
theorem step_eq_runningNext {s : State} (hi : Inv s) (hr : s.input.rst = false) : step s = .next (runningNext s) := by
  rw [step_of_running hi hr]
  unfold runningNext dispatched
  rcases parserStep s with ⟨removed, _ | (i | op)⟩
  · rfl
  · exact exec_eq_dispatchCycle i s
  · exact execUnknown_eq op s

/-- The successor of a step with `rst` low. -/
theorem eq_runningNext_of_step {s t : State} (hi : Inv s) (hr : s.input.rst = false) (hs : step s = .next t) :
    t = runningNext s :=
  Host.Outcome.next.inj (hs.symm.trans (step_eq_runningNext hi hr))

/-- The motor after a cycle with `rst` low is the handler's motor sub-step. -/
theorem runningNext_motor (s : State) :
    (runningNext s).motor = (handlerOf (dispatched s)).motor (motorCtx s (handlerOf (dispatched s))) := by
  unfold runningNext
  cases dispatched s <;> rfl

/-- The switch sampler after a cycle with `rst` low: its own sub-steps, then the handler's write. -/
theorem runningNext_sw (s : State) :
    (runningNext s).sw = (handlerOf (dispatched s)).switches
      (switchesNext s (handlerOf (dispatched s)).set (handlerOf (dispatched s)).clear) := by
  unfold runningNext
  cases dispatched s <;> rfl

/-! ## The invariant -/

/-- Settles O19, by `step_inv`: every sub-step of every command keeps its part. -/
theorem stepKeepsTheInvariant : Obligations.StepKeepsTheInvariant :=
  fun _ _ => step_inv

/-- Settles O20, with `resetWith_inv` for any legal parameters and for the vector ones. -/
theorem resetMeetsTheInvariant : Obligations.ResetMeetsTheInvariant :=
  ⟨fun _ inputs n hp => resetWith_inv hp inputs n, resetWith_inv (p := Params.vector) (by decide) [] 0⟩

end Sys2Proof.Machine

/-! The two motor registers with few writers (10_state.md R25, R26): TICK_DIV, which only SPEED writes, and POSITION,
which rising edges and SET_POSITION write. -/

namespace Sys2Proof.Machine

-- as in the tests: proofs checked one after another stay inside the sandbox's limit on threads
set_option Elab.async false

/-! ## TICK_DIV -/

/-- The entry keeps TICK_DIV. -/
@[simp] theorem motorEntry_tickDiv (c : MotorCtx) : (motorEntry c).1.tickDiv = c.m.tickDiv := by
  rcases motorEntry_cases c with ⟨_, _, e⟩ | ⟨_, _, e⟩ | ⟨_, _, e⟩ | ⟨_, _, e⟩ <;> rw [e] <;> rfl

/-- The limit abort keeps TICK_DIV. -/
@[simp] theorem exitAction_tickDiv (s m : Motor) : (exitAction s m).1.tickDiv = m.tickDiv := by
  unfold exitAction
  dsimp only
  split <;> rfl

/-- No tick action writes TICK_DIV. -/
@[simp] theorem tickAction_tickDiv (p : Params) (s m : Motor) : (tickAction p s m).1.tickDiv = m.tickDiv := by
  cases hs : s.mState with
  | stepRising => simp only [tickAction, hs]; split <;> rfl
  | _ => simp only [tickAction, hs]

/-- The tick processing keeps TICK_DIV. -/
@[simp] theorem motorTick_tickDiv (c : MotorCtx) (q : MotorEv) : (motorTick c q).1.tickDiv = q.1.tickDiv := by
  unfold motorTick tickProcess
  (repeat' split) <;> simp

/-- After a configuration command's sub-step TICK_DIV is what its write left. -/
theorem motorConfig_tickDiv (c : MotorCtx) (f : Motor → Motor) :
    (motorConfig c f).tickDiv = (f (motorEntry c).1).tickDiv := by
  simp [motorConfig]

/-- A cycle without a motor command keeps TICK_DIV. -/
theorem motorFree_tickDiv (c : MotorCtx) : (motorFree c).tickDiv = c.m.tickDiv := by
  rw [motorFree_eq_config, motorConfig_tickDiv, motorEntry_tickDiv]

/-- STOP keeps TICK_DIV. -/
theorem motorStop_tickDiv (c : MotorCtx) : (motorStop c).tickDiv = c.m.tickDiv := by
  unfold motorStop
  (repeat' split) <;> simp

/-- A motion command keeps TICK_DIV. -/
theorem motorStart_tickDiv (c : MotorCtx) (size : BitVec 4) (ign : Bool) (req : StepSize → Word × Bool) :
    (motorStart c size ign req).tickDiv = c.m.tickDiv := by
  unfold motorStart
  split
  · rfl
  · exact motorFree_tickDiv c

/-- SPEED's write keeps POSITION. -/
theorem speedWrite_position (c : MotorCtx) (hz : Word) (m : Motor) : (speedWrite c hz m).position = m.position := by
  rcases speedWrite_cases c hz m with ⟨_, e⟩ | ⟨_, e⟩ <;> rw [e]

/-- LIMIT_STEP_OFF's write keeps TICK_DIV and POSITION. -/
theorem stepOffWrite_frame (count : Word) (size : BitVec 4) (m : Motor) :
    (stepOffWrite count size m).tickDiv = m.tickDiv ∧ (stepOffWrite count size m).position = m.position := by
  rcases stepOffWrite_cases count size m with ⟨_, _, e⟩ | ⟨_, e⟩ <;> rw [e] <;> exact ⟨rfl, rfl⟩

/-- Every command but SPEED keeps TICK_DIV. -/
theorem handlerOf_tickDiv {d : Option Command} (hd : ∀ hz, d ≠ some (.known (.speed hz))) (c : MotorCtx) :
    ((handlerOf d).motor c).tickDiv = c.m.tickDiv := by
  rcases d with _ | (i | op)
  case some.known =>
    cases i with
    | relative => exact motorStart_tickDiv ..
    | absolute => exact motorStart_tickDiv ..
    | speed hz => exact absurd rfl (hd hz)
    | stop => exact motorStop_tickDiv c
    | setPosition pos => exact (motorConfig_tickDiv c _).trans (motorEntry_tickDiv c)
    | limitStepOff count size =>
      exact (motorConfig_tickDiv c _).trans ((stepOffWrite_frame count size _).1.trans (motorEntry_tickDiv c))
    | _ => exact motorFree_tickDiv c
  all_goals exact motorFree_tickDiv c

/-- SPEED changes TICK_DIV only where its check succeeds: at rest, by a frequency that is not 0 (R182). -/
theorem motorConfig_speed_tickDiv {c : MotorCtx} {hz : Word}
    (hne : (motorConfig c (speedWrite c hz)).tickDiv ≠ c.m.tickDiv) :
    running c.m = false ∧ u32 hz ≠ 0 ∧ (motorConfig c (speedWrite c hz)).tickDiv = speedDiv c.cfg hz := by
  rw [motorConfig_tickDiv] at hne ⊢
  rcases speedWrite_cases c hz (motorEntry c).1 with ⟨hok, e⟩ | ⟨_, e⟩
  · rcases speedCheck_cases c hz with ⟨_, hbusy⟩ | ⟨_, _, hinvalid⟩ | ⟨hrest, hnz, _, _⟩
    · rw [hbusy] at hok; cases hok
    · rw [hinvalid] at hok; cases hok
    · exact ⟨hrest, hnz, by rw [e]⟩
  · exact absurd (by rw [e, motorEntry_tickDiv]) hne

/-- Settles O28, by the one command whose motor sub-step can write TICK_DIV. -/
theorem tickDivChangesOnlyBySpeedAtRest : Obligations.TickDivChangesOnlyBySpeedAtRest := by
  intro s t hi hs hr hne
  obtain rfl := eq_runningNext_of_step hi hr hs
  rw [runningNext_motor] at hne ⊢
  by_cases hd : ∃ hz, dispatched s = some (.known (.speed hz))
  · obtain ⟨hz, hd⟩ := hd
    rw [hd] at hne ⊢
    obtain ⟨hrest, hnz, hdiv⟩ := motorConfig_speed_tickDiv hne
    obtain ⟨_, _, _, hclk, _⟩ := Params.legal_bounds hi.1
    exact ⟨hrest, hz, rfl, hnz, (congrArg u32 hdiv).trans (u32_speedDiv hz hclk)⟩
  · exact absurd (handlerOf_tickDiv (fun hz e => hd ⟨hz, e⟩) _) hne

/-! ## POSITION -/

/-- The cycle raises the step pin: STEP_RISING goes to STEP_HIGH_HOLD (R170). -/
def Rises (m m' : Motor) : Prop := m.mState = .stepRising ∧ m'.mState = .stepHighHold

/-- The motor `m'` after a cycle has POSITION `x`, and on a rising edge the request's signed step distance added to
it, with steps of the request left and the step pin high. -/
def MovesByEdge (c : MotorCtx) (x : Word) (m' : Motor) : Prop :=
  (Rises c.m m' → c.m.reqCount ≠ 0 ∧ m'.stepR = true ∧
    m'.position = x + stepDelta c.cfg c.m.reqSize c.m.reqDir) ∧
  (¬ Rises c.m m' → m'.position = x)

/-- Without a rising edge only the position counts. -/
theorem MovesByEdge.of_not_rises {c : MotorCtx} {x : Word} {m' : Motor} (hr : ¬ Rises c.m m')
    (hx : m'.position = x) : MovesByEdge c x m' :=
  ⟨fun h => absurd h hr, fun _ => hx⟩

/-- The entry keeps POSITION. -/
@[simp] theorem motorEntry_position (c : MotorCtx) : (motorEntry c).1.position = c.m.position := by
  rcases motorEntry_cases c with ⟨_, _, e⟩ | ⟨_, _, e⟩ | ⟨_, _, e⟩ | ⟨_, _, e⟩ <;> rw [e] <;> rfl

/-- The entry is no rising edge. -/
theorem not_rises_motorEntry (c : MotorCtx) : ¬ Rises c.m (motorEntry c).1 := by
  rintro ⟨hs, ht⟩
  rcases motorEntry_cases c with ⟨_, _, e⟩ | ⟨_, _, e⟩ | ⟨_, _, e⟩ | ⟨_, _, e⟩ <;> rw [e] at ht <;>
    simp [hs] at ht

/-- The limit abort keeps POSITION and goes to IDLE or SETUP. -/
theorem exitAction_movesByEdge (c : MotorCtx) (m : Motor) :
    MovesByEdge c m.position (exitAction c.m m).1 := by
  unfold exitAction
  dsimp only
  split <;> exact .of_not_rises (fun h => MState.noConfusion h.2) rfl

/-- A tick action adds to POSITION in STEP_RISING with steps left, and nowhere else. -/
theorem tickAction_movesByEdge (c : MotorCtx) (m : Motor) :
    MovesByEdge c m.position (tickAction c.cfg c.m m).1 := by
  cases hs : c.m.mState with
  | stepRising =>
    simp only [tickAction, hs]
    split
    · exact .of_not_rises (fun h => MState.noConfusion h.2) rfl
    · rename_i hcount
      exact ⟨fun _ => ⟨hcount, rfl, rfl⟩, fun h => absurd ⟨hs, rfl⟩ h⟩
  | _ =>
    simp only [tickAction, hs]
    exact .of_not_rises (fun h => MState.noConfusion (hs.symm.trans h.1)) rfl

/-- The tick processing adds to POSITION on a rising edge, and otherwise keeps it. -/
theorem tickProcess_movesByEdge (c : MotorCtx) {m : Motor} (hm : m.mState = c.m.mState) :
    MovesByEdge c m.position (tickProcess c m).1 := by
  unfold tickProcess
  split
  · dsimp only
    split
    · exact exitAction_movesByEdge c _
    · exact tickAction_movesByEdge c _
  · split
    · exact exitAction_movesByEdge c m
    · refine .of_not_rises (fun h => ?_) rfl
      exact MState.noConfusion (h.1.symm.trans (hm.symm.trans h.2))

/-- A configuration command's sub-step adds the edge to the position its write left, where the write keeps the motor
state. -/
theorem motorConfig_movesByEdge (c : MotorCtx) {f : Motor → Motor} (hf : ∀ m, (f m).mState = m.mState) :
    MovesByEdge c (f (motorEntry c).1).position (motorConfig c f) := by
  by_cases hb : motorBranch c = .normal ∧ running c.m = true
  · have he : motorEntry c = (c.m, none) := by unfold motorEntry; rw [hb.1]
    unfold motorConfig
    rw [motorTick_take _ hb.1 hb.2]
    exact tickProcess_movesByEdge c ((hf _).trans (by rw [he]))
  · have hskip : motorBranch c ≠ .normal ∨ running c.m = false := by
      rwa [not_and_or, Bool.not_eq_true] at hb
    unfold motorConfig
    rw [motorTick_skip _ hskip]
    exact .of_not_rises (fun h => not_rises_motorEntry c ⟨h.1, (hf _).symm.trans h.2⟩) rfl

/-- The motor without a command. -/
theorem motorFree_movesByEdge (c : MotorCtx) : MovesByEdge c c.m.position (motorFree c) :=
  motorEntry_position c ▸ motorConfig_movesByEdge c (f := fun m => m) fun _ => rfl

/-- STOP keeps POSITION and is no rising edge. -/
theorem motorStop_movesByEdge (c : MotorCtx) : MovesByEdge c c.m.position (motorStop c) := by
  unfold motorStop
  split
  · split
    · exact .of_not_rises (fun h => MState.noConfusion h.2) rfl
    · exact .of_not_rises (fun h => MState.noConfusion (h.1.symm.trans h.2)) rfl
  all_goals exact .of_not_rises (not_rises_motorEntry c) (motorEntry_position c)

/-- An accepted motion command goes to SETUP. -/
theorem motorStart_movesByEdge (c : MotorCtx) (size : BitVec 4) (ign : Bool) (req : StepSize → Word × Bool) :
    MovesByEdge c c.m.position (motorStart c size ign req) := by
  unfold motorStart
  split
  · exact .of_not_rises (fun h => MState.noConfusion h.2) rfl
  · exact motorFree_movesByEdge c

/-- The position that a cycle's edge, if any, adds to: SET_POSITION's, or the motor's own (R184, R197). -/
def positionBase (x : Word) : Option Command → Word
  | some (.known (.setPosition pos)) => pos
  | _ => x

/-- The base of every cycle without SET_POSITION. -/
theorem positionBase_of_ne {x : Word} {d : Option Command} (hd : ∀ pos, d ≠ some (.known (.setPosition pos))) :
    positionBase x d = x := by
  unfold positionBase
  split
  · exact absurd rfl (hd _)
  · rfl

/-- Every cycle adds its rising edge to the base, and nothing else moves POSITION. -/
theorem handlerOf_movesByEdge (d : Option Command) (c : MotorCtx) :
    MovesByEdge c (positionBase c.m.position d) ((handlerOf d).motor c) := by
  rcases d with _ | (i | op)
  case some.known =>
    cases i with
    | relative => exact motorStart_movesByEdge ..
    | absolute => exact motorStart_movesByEdge ..
    | speed hz =>
      have hpos : (speedWrite c hz (motorEntry c).1).position = c.m.position :=
        (speedWrite_position c hz _).trans (motorEntry_position c)
      exact hpos ▸ motorConfig_movesByEdge c fun m => (configWrite_mState c hz 0 0 0 m).1
    | stop => exact motorStop_movesByEdge c
    | setPosition pos => exact motorConfig_movesByEdge c (f := positionWrite pos) fun _ => rfl
    | limitStepOff count size =>
      have hpos : (stepOffWrite count size (motorEntry c).1).position = c.m.position :=
        (stepOffWrite_frame count size _).2.trans (motorEntry_position c)
      exact hpos ▸ motorConfig_movesByEdge c fun m => (configWrite_mState c 0 0 count size m).2.2
    | _ => exact motorFree_movesByEdge c
  all_goals exact motorFree_movesByEdge c

/-- Adding the signed step distance is adding or subtracting the distance. -/
theorem add_stepDelta (p : Params) (size : StepSize) (dir : Bool) (x : Word) :
    x + stepDelta p size dir =
      if dir then x - BitVec.ofNat 32 (stepDist p size) else x + BitVec.ofNat 32 (stepDist p size) := by
  cases dir
  · rfl
  · exact (BitVec.sub_eq_add_neg _ _).symm

/-- Settles O29, by `MovesByEdge` of every command. -/
theorem positionMovesOnlyByEdgesAndSetPosition : Obligations.PositionMovesOnlyByEdgesAndSetPosition := by
  intro s t hi hs hr rises edge
  obtain rfl := eq_runningNext_of_step hi hr hs
  obtain ⟨hrise, hkeep⟩ := handlerOf_movesByEdge (dispatched s) (motorCtx s (handlerOf (dispatched s)))
  rw [← runningNext_motor] at hrise hkeep
  simp only [motorCtx_m, motorCtx_cfg, add_stepDelta] at hrise hkeep
  refine ⟨fun h => ⟨(hrise h).1, (hrise h).2.1⟩, fun hd => ?_, fun pos hd => ?_⟩
  · rw [positionBase_of_ne hd] at hrise hkeep
    exact ⟨fun h => (hrise h).2.2, hkeep⟩
  · rw [hd] at hrise hkeep
    exact ⟨fun h => (hrise h).2.2, hkeep⟩

end Sys2Proof.Machine

/-! The switch sampler (44_switch_monitor.md): a timer's countdown, and the sampler's registers after any command. -/

namespace Sys2Proof.Machine

-- as in the tests: proofs checked one after another stay inside the sandbox's limit on threads
set_option Elab.async false

/-- A timer's countdown: with as many cycles to go as levels come before the last, it fires at the last, whose level is
the confirmation. -/
theorem debounceRun_countdown (period : DWord) (last : Bool) {d : Debounce} (between : List Bool)
    (ha : d.armed = true) (hc : d.cnt.toNat = between.length) :
    (debounceRun period d (between ++ [last])).2 = List.replicate between.length false ++ [last] := by
  induction between generalizing d with
  | nil =>
    have h0 : d.cnt = 0 := BitVec.eq_of_toNat_eq hc
    simp [debounceRun, debounceStep, ha, h0]
  | cons lvl rest ih =>
    rw [List.length_cons] at hc
    have hne : d.cnt ≠ 0#64 := fun h => by rw [h] at hc; simp at hc
    have hstep : debounceStep lvl period d = ({ prev := lvl, armed := true, cnt := d.cnt - 1 }, false) := by
      simp [debounceStep, ha, hne]
    have hnext : (d.cnt - 1).toNat = rest.length := by bv_omega
    rw [List.cons_append, debounceRun, hstep, List.length_cons, List.replicate_succ]
    exact congrArg (false :: ·) (ih rfl hnext)

/-- An unarmed timer that sees an edge arms with its period. -/
theorem debounceStep_arms {lvl : Bool} (period : DWord) {d : Debounce} (ha : d.armed = false) (he : lvl ≠ d.prev) :
    debounceStep lvl period d = ({ prev := lvl, armed := true, cnt := period }, false) := by
  simp [debounceStep, ha, he]

/-- What a timer's cycle leaves of a timer `d` at the level `lvl`, with a period of `cycles` (R219). -/
def TimerFollows (cycles : Nat) (lvl : Bool) (d d' : Debounce) : Prop :=
  d'.prev = lvl ∧
  (d.armed = true ∧ d.cnt ≠ 0 → d'.armed = true ∧ d'.cnt.toNat = d.cnt.toNat - 1) ∧
  (¬ (d.armed = true ∧ d.cnt ≠ 0) → lvl ≠ d.prev → d'.armed = true ∧ d'.cnt.toNat = cycles) ∧
  (¬ (d.armed = true ∧ d.cnt ≠ 0) → lvl = d.prev → d'.armed = false ∧ d'.cnt = d.cnt)

/-- Every cycle of a timer, by its cases. -/
theorem debounceStep_timerFollows (lvl : Bool) (period : DWord) (d : Debounce) :
    TimerFollows period.toNat lvl d (debounceStep lvl period d).1 := by
  rcases debounceStep_cases lvl period d with
    ⟨ha, hl, e⟩ | ⟨ha, hl, e⟩ | ⟨ha, hc, e⟩ | ⟨ha, hc, hl, e⟩ | ⟨ha, hc, hl, e⟩ <;> rw [e]
  · exact ⟨rfl, fun h => by simp [ha] at h, fun _ h => absurd hl h, fun _ _ => ⟨ha, rfl⟩⟩
  · exact ⟨rfl, fun h => by simp [ha] at h, fun _ _ => ⟨rfl, rfl⟩, fun _ h => absurd h hl⟩
  · exact ⟨rfl, fun _ => ⟨rfl, by bv_omega⟩, fun h => absurd ⟨ha, hc⟩ h, fun h => absurd ⟨ha, hc⟩ h⟩
  · exact ⟨rfl, fun h => absurd hc h.2, fun _ h => absurd hl h, fun _ _ => ⟨rfl, hc.symm⟩⟩
  · exact ⟨rfl, fun h => absurd hc h.2, fun _ _ => ⟨rfl, rfl⟩, fun _ h => absurd h hl⟩

/-- A command writes no switch register but DEBOUNCE_MS. -/
theorem handlerOf_switches (d : Option Command) (sw : Switches) :
    ∃ ms, (handlerOf d).switches sw = { sw with debounceMs := ms } := by
  rcases d with _ | (i | op)
  case some.known => cases i <;> exact ⟨_, rfl⟩
  all_goals exact ⟨_, rfl⟩

/-- Settles O52: the countdown for the first part, the timer's cases for the second. -/
theorem debounceTimerFiresAfterItsPeriod : Obligations.DebounceTimerFiresAfterItsPeriod := by
  refine ⟨fun period d lvl last between ha he hlen => ?_, fun s t hi hr hs => ?_⟩
  · rw [debounceRun, debounceStep_arms period ha he, List.replicate_succ, ← hlen]
    exact congrArg (false :: ·) (debounceRun_countdown period last between rfl hlen.symm)
  · obtain rfl := eq_runningNext_of_step hi hr hs
    obtain ⟨_, _, _, hclk, _⟩ := Params.legal_bounds hi.1
    have hperiod := toNat_debouncePeriod s.sw.debounceMs hclk
    obtain ⟨ms, hsw⟩ := handlerOf_switches (dispatched s)
      (switchesNext s (handlerOf (dispatched s)).set (handlerOf (dispatched s)).clear)
    rw [runningNext_sw, hsw]
    exact ⟨rfl, rfl, rfl, rfl, hperiod ▸ debounceStep_timerFollows _ _ _, hperiod ▸ debounceStep_timerFollows _ _ _⟩

end Sys2Proof.Machine

/-! Noninterference of the bytes the spec leaves unspecified (10_state.md R45; 93_implementation_defined.md U1, U2): the
ring buffer and the reply path each keep "alike in the bytes a rule may read", so a step does, and the outputs of a run
do not depend on the rest. -/

namespace Sys2Proof.Machine

-- as in the tests: proofs checked one after another stay inside the sandbox's limit on threads
set_option Elab.async false

/-! ## Ring buffers with the same buffered bytes -/

/-- The buffers differ at most in bytes of RB_MEM outside the buffered ones. -/
structure SameRing (cap : Nat) (B B' : RingBuf) : Prop where
  head : B.head = B'.head
  tail : B.tail = B'.tail
  full : B.full = B'.full
  peek : ∀ k < RingBuf.size cap B, RingBuf.peekAt cap B k = RingBuf.peekAt cap B' k

/-- Such buffers have one size. -/
theorem SameRing.size_eq {cap : Nat} {B B' : RingBuf} (h : SameRing cap B B') :
    RingBuf.size cap B = RingBuf.size cap B' := by
  unfold RingBuf.size
  rw [h.head, h.tail, h.full]

/-- The oldest bytes of such buffers, as far as they are buffered. -/
theorem SameRing.oldest_eq {cap : Nat} {B B' : RingBuf} (h : SameRing cap B B') {n : Nat}
    (hn : n ≤ RingBuf.size cap B) : RingBuf.oldest cap B n = RingBuf.oldest cap B' n :=
  List.map_congr_left fun k hk => h.peek k (Nat.lt_of_lt_of_le (List.mem_range.mp hk) hn)

/-- The buffered bytes of such buffers are the same. -/
theorem SameRing.contents_eq {cap : Nat} {B B' : RingBuf} (h : SameRing cap B B') :
    RingBuf.contents cap B = RingBuf.contents cap B' := by
  unfold RingBuf.contents
  rw [← h.size_eq]
  exact h.oldest_eq le_rfl

/-- Buffers with the same registers and the same buffered bytes. -/
theorem SameRing.of_contents {cap : Nat} {B B' : RingBuf} (hh : B.head = B'.head) (ht : B.tail = B'.tail)
    (hf : B.full = B'.full) (hc : RingBuf.contents cap B = RingBuf.contents cap B') : SameRing cap B B' := by
  refine ⟨hh, ht, hf, fun k hk => ?_⟩
  have hk' : k < (RingBuf.contents cap B).length := by rwa [RingBuf.length_contents]
  rw [← RingBuf.getElem_contents cap B k hk', ← RingBuf.getElem_contents cap B' k (hc ▸ hk')]
  exact List.getElem_of_eq hc hk'

/-- `get` keeps the buffers alike. -/
theorem SameRing.get {p : Params} {B B' : RingBuf} (hc : B.consistent p = true) (h : SameRing p.rbCap B B') :
    SameRing p.rbCap (RingBuf.get p.rbCap B).1 (RingBuf.get p.rbCap B').1 := by
  by_cases hs : RingBuf.size p.rbCap B = 0
  · rw [RingBuf.get_empty _ _ hs, RingBuf.get_empty _ _ (h.size_eq ▸ hs)]
    exact h
  · have hs' : RingBuf.size p.rbCap B' ≠ 0 := h.size_eq ▸ hs
    have hsize := RingBuf.size_get hc hs
    have hpeek : ∀ k < RingBuf.size p.rbCap (RingBuf.get p.rbCap B).1,
        RingBuf.peekAt p.rbCap (RingBuf.get p.rbCap B).1 k = RingBuf.peekAt p.rbCap (RingBuf.get p.rbCap B').1 k := by
      intro k hk
      rw [RingBuf.peekAt_get k hs, RingBuf.peekAt_get k hs']
      exact h.peek (k + 1) (by omega)
    refine ⟨?_, ?_, ?_, hpeek⟩ <;> rw [RingBuf.get_some _ _ hs, RingBuf.get_some _ _ hs']
    · exact h.head
    · exact congrArg (fun t => (t + 1) % p.rbCap) h.tail

/-- `get_n` is `get` and then `get_n`: on an empty buffer neither does anything. -/
theorem RingBuf.getN_succ (cap : Nat) (B : RingBuf) (n : Nat) :
    (RingBuf.getN cap B (n + 1)).1 = (RingBuf.getN cap (RingBuf.get cap B).1 n).1 := by
  by_cases hs : RingBuf.size cap B = 0
  · have hget := RingBuf.get_empty cap B hs
    have hempty : ∀ m, (RingBuf.getN cap B m).1 = B := fun m => by
      cases m with
      | zero => rfl
      | succ m => rw [RingBuf.getN, hget]
    rw [hget, hempty, hempty]
  · rw [RingBuf.getN, RingBuf.get_some cap B hs]

/-- `get_n` keeps the buffers alike. -/
theorem SameRing.getN {p : Params} (n : Nat) {B B' : RingBuf} (hc : B.consistent p = true)
    (h : SameRing p.rbCap B B') : SameRing p.rbCap (RingBuf.getN p.rbCap B n).1 (RingBuf.getN p.rbCap B' n).1 := by
  induction n generalizing B B' with
  | zero => exact h
  | succ n ih =>
    rw [RingBuf.getN_succ, RingBuf.getN_succ]
    exact ih (RingBuf.consistent_get hc) (h.get hc)

/-- `try_put` keeps the buffers alike: the byte it writes is a buffered one afterwards. -/
theorem SameRing.tryPut {p : Params} {B B' : RingBuf} (b : Byte) (hc : B.consistent p = true)
    (hc' : B'.consistent p = true) (h : SameRing p.rbCap B B') :
    SameRing p.rbCap (RingBuf.tryPut p.rbCap B b).1 (RingBuf.tryPut p.rbCap B' b).1 := by
  cases hf : B.full
  · have hf' : B'.full = false := h.full ▸ hf
    have hsize := RingBuf.size_tryPut b hc hf
    have hpeek : ∀ k < RingBuf.size p.rbCap (RingBuf.tryPut p.rbCap B b).1,
        RingBuf.peekAt p.rbCap (RingBuf.tryPut p.rbCap B b).1 k =
          RingBuf.peekAt p.rbCap (RingBuf.tryPut p.rbCap B' b).1 k := by
      intro k hk
      have hle : k ≤ RingBuf.size p.rbCap B := by omega
      rw [RingBuf.peekAt_tryPut b k hc hf hle, RingBuf.peekAt_tryPut b k hc' hf' (h.size_eq ▸ hle), ← h.size_eq]
      split
      · rfl
      · exact h.peek k (by omega)
    refine ⟨?_, ?_, ?_, hpeek⟩ <;> rw [RingBuf.tryPut_room _ _ _ hf, RingBuf.tryPut_room _ _ _ hf'] <;> dsimp only
    · rw [h.head]
    · exact h.tail
    · rw [h.head, h.tail]
  · rw [RingBuf.tryPut_full _ _ _ hf, RingBuf.tryPut_full _ _ _ (h.full ▸ hf)]
    exact h

/-- `put` on a full buffer takes the oldest byte and then puts (R103). -/
theorem RingBuf.put_full {p : Params} {B : RingBuf} (b : Byte) (hc : B.consistent p = true) (hf : B.full = true) :
    RingBuf.put p.rbCap B b = (RingBuf.tryPut p.rbCap (RingBuf.get p.rbCap B).1 b).1 := by
  obtain ⟨hhead, _, heq, _⟩ := RingBuf.consistent_iff.mp hc
  have hsize : RingBuf.size p.rbCap B ≠ 0 := by
    rw [(RingBuf.full_iff hc).mp hf]
    omega
  rw [RingBuf.get_some _ _ hsize, RingBuf.tryPut_room _ _ _ rfl]
  simp [RingBuf.put, hf, heq hf]

/-- `put` keeps the buffers alike. -/
theorem SameRing.put {p : Params} {B B' : RingBuf} (b : Byte) (hc : B.consistent p = true)
    (hc' : B'.consistent p = true) (h : SameRing p.rbCap B B') :
    SameRing p.rbCap (RingBuf.put p.rbCap B b) (RingBuf.put p.rbCap B' b) := by
  cases hf : B.full
  · have hroom : ∀ C : RingBuf, C.full = false → RingBuf.put p.rbCap C b = (RingBuf.tryPut p.rbCap C b).1 :=
      fun C hC => if_neg (by simp [hC])
    rw [hroom B hf, hroom B' (h.full ▸ hf)]
    exact h.tryPut b hc hc'
  · rw [RingBuf.put_full b hc hf, RingBuf.put_full b hc' (h.full ▸ hf)]
    exact (h.get hc).tryPut b (RingBuf.consistent_get hc) (RingBuf.consistent_get hc')

/-- The cycle's update keeps the buffers alike. -/
theorem SameRing.cycle {p : Params} {B B' : RingBuf} (removed : Nat) (i : Input) (hc : B.consistent p = true)
    (hc' : B'.consistent p = true) (h : SameRing p.rbCap B B') :
    SameRing p.rbCap (RingBuf.cycle p B removed i) (RingBuf.cycle p B' removed i) := by
  have hn := h.getN removed hc
  have hcn := RingBuf.consistent_getN removed hc
  have hcn' := RingBuf.consistent_getN removed hc'
  unfold RingBuf.cycle RingBuf.receive
  dsimp only
  split
  · split
    · exact hn.put _ hcn hcn'
    · exact hn.tryPut _ hcn hcn'
  · exact hn

/-! ## Reply paths with the same pending reply -/

/-- The reply paths differ at most in bytes of REPLY_BUF while no reply is pending. -/
structure SameReply (r r' : Reply) : Prop where
  valid : r.valid = r'.valid
  txIdx : r.txIdx = r'.txIdx
  heartbeat : r.heartbeat = r'.heartbeat
  bytes : r.valid = true → r.buf.readBytes 0 12 = r'.buf.readBytes 0 12

/-- The transmitter keeps the reply paths alike. -/
theorem SameReply.txStep {r r' : Reply} (i : Input) (h : SameReply r r') : SameReply (txStep i r) (txStep i r') := by
  obtain ⟨hv, hx, hb, hbytes⟩ := h
  unfold Machine.txStep
  rw [← hv, ← hx, ← hb]
  split
  · split
    · exact ⟨rfl, rfl, rfl, fun h => nomatch h⟩
    · exact ⟨rfl, rfl, rfl, hbytes⟩
  · exact ⟨hv, hx, hb, hbytes⟩

/-- The byte offered is the same, and it is one of the pending reply's twelve (R150). -/
theorem SameReply.read_eq {r r' : Reply} (hc : r.consistent = true) (h : SameReply r r') (hv : r.valid = true) :
    r.buf.read r.txIdx = r'.buf.read r'.txIdx := by
  obtain ⟨hle, _, _⟩ := Reply.consistent_iff.mp hc
  have hlt : r.txIdx < 12 := by omega
  have hbyte (m : Memory) : m.read r.txIdx = (m.readBytes 0 12).getD r.txIdx 0 := by
    rw [Memory.getD_readBytes m 0 12 _ hlt, Nat.zero_add]
  rw [← h.txIdx, hbyte, hbyte, h.bytes hv]

/-! ## States -/

/-- `SameVisible`, sub-block by sub-block. -/
theorem sameVisible_iff {s t : State} : SameVisible s t ↔
    (s.cfg = t.cfg ∧ s.motor = t.motor ∧ s.sw = t.sw ∧ s.led = t.led ∧ s.inputs = t.inputs ∧ s.cycle = t.cycle) ∧
    SameRing s.cfg.rbCap s.rb t.rb ∧ SameReply s.reply t.reply := by
  constructor
  · rintro ⟨hcfg, hmotor, hsw, hled, hin, hcyc, hhead, htail, hfull, hbytes, hvalid, hidx, hbeat, hreply⟩
    rw [← hcfg] at hbytes
    exact ⟨⟨hcfg, hmotor, hsw, hled, hin, hcyc⟩, .of_contents hhead htail hfull hbytes,
      ⟨hvalid, hidx, hbeat, hreply⟩⟩
  · rintro ⟨⟨hcfg, hmotor, hsw, hled, hin, hcyc⟩, hring, hreply⟩
    exact ⟨hcfg, hmotor, hsw, hled, hin, hcyc, hring.head, hring.tail, hring.full, hcfg ▸ hring.contents_eq,
      hreply.valid, hreply.txIdx, hreply.heartbeat, hreply.bytes⟩

/-- The outputs read no unspecified byte. -/
theorem SameVisible.out_eq {s t : State} (hi : Inv s) (h : SameVisible s t) : out s = out t := by
  obtain ⟨_, _, _, hc⟩ := State.consistent_iff.mp hi.2
  obtain ⟨⟨hcfg, hmotor, _, hled, _, _⟩, _, hreply⟩ := sameVisible_iff.mp h
  have hbyte : (if s.reply.valid then s.reply.buf.read s.reply.txIdx else 0x00) =
      if t.reply.valid then t.reply.buf.read t.reply.txIdx else 0x00 := by
    rw [← hreply.valid]
    split
    · exact hreply.read_eq hc (by assumption)
    · rfl
  unfold out
  rw [hbyte, hcfg, hmotor, hled, hreply.valid, hreply.heartbeat]

/-- The parser reads buffered bytes alone. -/
theorem SameVisible.parserStep_eq {s t : State} (h : SameVisible s t) : parserStep s = parserStep t := by
  obtain ⟨⟨hcfg, _⟩, hring, hreply⟩ := sameVisible_iff.mp h
  simp only [parserStep]
  rw [← hcfg, ← hring.size_eq, ← hreply.valid]
  by_cases hempty : RingBuf.size s.cfg.rbCap s.rb = 0
  · rw [if_pos hempty, if_pos hempty]
  rw [if_neg hempty, if_neg hempty, ← hring.peek 0 (by omega)]
  refine if_congr Iff.rfl rfl ?_
  by_cases hlone : RingBuf.size s.cfg.rbCap s.rb < 2
  · rw [if_pos hlone, if_pos hlone]
  rw [if_neg hlone, if_neg hlone, ← hring.peek 1 (by omega)]
  refine if_congr Iff.rfl rfl ?_
  by_cases hshort : RingBuf.size s.cfg.rbCap s.rb < 12
  · rw [if_pos hshort, if_pos hshort]
  rw [if_neg hshort, if_neg hshort, ← hring.oldest_eq (n := 12) (by omega)]

/-- The inputs of the cycle are the same. -/
theorem SameVisible.input_eq {s t : State} (h : SameVisible s t) : s.input = t.input := by
  obtain ⟨⟨_, _, _, _, hin, hcyc⟩, _⟩ := sameVisible_iff.mp h
  unfold State.input
  rw [hin, hcyc]

/-- The motor sub-step reads the same context. -/
theorem SameVisible.motorCtx_eq {s t : State} (h : SameVisible s t) (hd : Handler) : motorCtx s hd = motorCtx t hd := by
  obtain ⟨⟨hcfg, hmotor, hsw, _⟩, _⟩ := sameVisible_iff.mp h
  unfold motorCtx debounce1 debounce2
  rw [hcfg, hmotor, hsw]

/-- The switch sampler's next registers are the same. -/
theorem SameVisible.switchesNext_eq {s t : State} (h : SameVisible s t) (set clear : Bool) :
    switchesNext s set clear = switchesNext t set clear := by
  obtain ⟨⟨hcfg, _, hsw, _⟩, _⟩ := sameVisible_iff.mp h
  unfold switchesNext debounce1 debounce2
  rw [hcfg, hsw, h.input_eq]

/-- Every sub-step before the reply formatter keeps the states alike. -/
theorem SameVisible.cycleStep {s t : State} (hs : Inv s) (ht : Inv t) (h : SameVisible s t) (removed : Nat)
    (hd : Handler) : SameVisible (cycleStep s removed hd) (cycleStep t removed hd) := by
  have hinput := h.input_eq
  obtain ⟨⟨hcfg, _, _, hled, hin, hcyc⟩, hring, hreply⟩ := sameVisible_iff.mp h
  obtain ⟨_, _, hcs, _⟩ := State.consistent_iff.mp hs.2
  obtain ⟨_, _, hct, _⟩ := State.consistent_iff.mp ht.2
  rw [← hcfg] at hct
  refine sameVisible_iff.mpr ⟨⟨hcfg, ?_, ?_, ?_, ?_, ?_⟩, ?_, ?_⟩
  · rw [cycleStep_motor, cycleStep_motor, h.motorCtx_eq]
  · rw [cycleStep_sw, cycleStep_sw, h.switchesNext_eq]
  · rw [cycleStep_led, cycleStep_led, hcfg, hinput, hled]
  · rw [cycleStep_inputs, cycleStep_inputs, hin]
  · rw [cycleStep_cycle, cycleStep_cycle, hcyc]
  · rw [cycleStep_rb, cycleStep_rb, cycleStep_cfg, ← hcfg, ← hinput]
    exact hring.cycle removed s.input hcs hct
  · rw [cycleStep_reply, cycleStep_reply, ← hinput]
    exact hreply.txStep s.input

/-- The reply that a dispatch cycle writes is the same from states that are alike (R144). -/
theorem SameVisible.replyBytes_dispatchCycle {s t : State} (hs : Inv s) (ht : Inv t) (h : SameVisible s t) (op : Half)
    (hd : Handler) : replyBytes (Machine.dispatchCycle s op hd) = replyBytes (Machine.dispatchCycle t op hd) := by
  obtain ⟨_, _, _, hcs⟩ := State.consistent_iff.mp hs.2
  obtain ⟨_, _, _, hct⟩ := State.consistent_iff.mp ht.2
  obtain ⟨_, _, hbytes⟩ := dispatchCycle_replies op hd hcs
  obtain ⟨_, _, hbytes'⟩ := dispatchCycle_replies op hd hct
  obtain ⟨⟨hcfg, _, hsw, hled, _⟩, _⟩ := sameVisible_iff.mp h
  rw [hbytes, hbytes']
  simp only [dispatchCycle_led, dispatchCycle_motor, dispatchCycle_sw]
  rw [h.motorCtx_eq, h.switchesNext_eq, hcfg, hsw, hled, h.input_eq]

/-- A dispatch cycle keeps the states alike. -/
theorem SameVisible.dispatchCycle {s t : State} (hs : Inv s) (ht : Inv t) (h : SameVisible s t) (op : Half)
    (hd : Handler) : SameVisible (dispatchCycle s op hd) (dispatchCycle t op hd) := by
  have hbytes := h.replyBytes_dispatchCycle hs ht op hd
  obtain ⟨hregs, hring, hreply⟩ := sameVisible_iff.mp (h.cycleStep hs ht 12 hd)
  refine sameVisible_iff.mpr ⟨hregs, hring, ?_, ?_, ?_, fun _ => hbytes⟩
  · rw [dispatchCycle_valid, dispatchCycle_valid]
  · rw [dispatchCycle_txIdx, dispatchCycle_txIdx]
  · rw [dispatchCycle_heartbeat, dispatchCycle_heartbeat]
    exact hreply.heartbeat

/-- A step keeps the states alike. -/
theorem SameVisible.step {s s' t : State} (hi : Inv s) (hi' : Inv s') (h : SameVisible s s')
    (hs : step s = .next t) : ∃ t', Machine.step s' = .next t' ∧ SameVisible t t' := by
  have hinput := h.input_eq
  cases hr : s.input.rst
  · refine ⟨_, step_eq_runningNext hi' (hinput ▸ hr), ?_⟩
    rw [eq_runningNext_of_step hi hr hs]
    unfold runningNext dispatched
    rw [← h.parserStep_eq]
    split
    · exact h.cycleStep hi hi' _ _
    · exact h.dispatchCycle hi hi' _ _
  · refine ⟨_, step_of_rst hi'.1 (hinput ▸ hr), ?_⟩
    obtain rfl := Host.Outcome.next.inj (hs.symm.trans (step_of_rst hi.1 hr))
    obtain ⟨⟨hcfg, _, _, _, hin, hcyc⟩, _⟩ := sameVisible_iff.mp h
    have hreset : resetCycle s = resetCycle s' := by unfold resetCycle; rw [hcfg, hin, hcyc]
    rw [hreset]
    exact sameVisible_iff.mpr ⟨⟨rfl, rfl, rfl, rfl, rfl, rfl⟩, ⟨rfl, rfl, rfl, fun _ _ => rfl⟩,
      ⟨rfl, rfl, rfl, fun _ => rfl⟩⟩

/-- Settles O32, by induction on the number of cycles. -/
theorem unspecifiedBytesAreNeverRead : Obligations.UnspecifiedBytesAreNeverRead := by
  intro k
  induction k with
  | zero =>
    intro s s' t hi _ h hrun
    obtain rfl := Option.some.inj hrun
    exact ⟨s', rfl, h, h.out_eq hi⟩
  | succ k ih =>
    intro s s' t hi hi' h hrun
    obtain ⟨u, hu⟩ := step_next hi
    obtain ⟨u', hu', hsame⟩ := h.step hi hi' hu
    rw [runFor_succ_of_step hu] at hrun
    rw [runFor_succ_of_step hu']
    exact ih u u' t (step_inv hi hu) (step_inv hi' hu') hsame hrun

end Sys2Proof.Machine

/-! The wire format (30_encoding.md): the fields of a frame taken apart and put together, the rows of the opcode table,
the checks in the parser's order, and the row's mask; with these every 12-byte string has its one outcome. -/

namespace Sys2Proof.Machine

/-! ## Fields and bytes -/

/-- A 16-bit field is put together from its two bytes (R60). -/
@[simp] theorem le16_byteOfHalf (h : Half) : le16 (byteOfHalf h 0) (byteOfHalf h 1) = h := by
  unfold le16 byteOfHalf
  ext i hi
  simp only [BitVec.getElem_append, BitVec.getElem_extractLsb']
  split
  · rw [Nat.mul_zero, Nat.zero_add, BitVec.getLsbD_eq_getElem]
  · rw [show 8 * 1 + (i - 8) = i by omega, BitVec.getLsbD_eq_getElem]

/-- A 32-bit field is put together from its four bytes (R60). -/
@[simp] theorem le32_byteOfWord (w : Word) :
    le32 (byteOfWord w 0) (byteOfWord w 1) (byteOfWord w 2) (byteOfWord w 3) = w := by
  unfold le32 byteOfWord
  rw [BitVec.extractLsb'_append_extractLsb'_eq_extractLsb' (by rfl),
    BitVec.extractLsb'_append_extractLsb'_eq_extractLsb' (by rfl),
    BitVec.extractLsb'_append_extractLsb'_eq_extractLsb' (by rfl)]
  exact BitVec.extractLsb'_eq_self

/-- The number of a 16-bit field (R60, R84). -/
theorem toNat_le16 (b0 b1 : Byte) : (le16 b0 b1).toNat = b0.toNat + 256 * b1.toNat := by
  unfold le16
  rw [BitVec.toNat_append, ← Nat.shiftLeft_add_eq_or_of_lt b0.isLt, Nat.shiftLeft_eq]
  omega

/-! ## The sub-fields of `flags` (R86, R88, R89) -/

@[simp] theorem sizeField_motionFlags (size : BitVec 4) (dir ign : Bool) :
    sizeField (motionFlags size dir ign) = size := by
  revert size; cases dir <;> cases ign <;> decide

@[simp] theorem dirField_motionFlags (size : BitVec 4) (dir ign : Bool) :
    dirField (motionFlags size dir ign) = dir := by
  revert size; cases dir <;> cases ign <;> decide

@[simp] theorem ignField_motionFlags (size : BitVec 4) (dir ign : Bool) :
    ignField (motionFlags size dir ign) = ign := by
  revert size; cases dir <;> cases ign <;> decide

@[simp] theorem sizeField_sizeFlags (size : BitVec 4) : sizeField (sizeFlags size) = size := by
  revert size; decide

@[simp] theorem selField_selFlags (sel : BitVec 2) : selField (selFlags sel) = sel := by
  revert sel; decide

/-- SIZE depends on the bits under any mask that covers it. -/
theorem sizeField_eq_of_and_eq {flags flags' mask : Byte} (hm : sizeField mask = BitVec.allOnes 4)
    (h : flags &&& mask = flags' &&& mask) : sizeField flags = sizeField flags' := by
  have hand (f : Byte) : sizeField (f &&& mask) = sizeField f := by
    unfold sizeField at *
    rw [BitVec.extractLsb'_and, hm, BitVec.and_allOnes]
  rw [← hand flags, h, hand]

/-- SEL depends on the bits under any mask that covers it. -/
theorem selField_eq_of_and_eq {flags flags' mask : Byte} (hm : selField mask = BitVec.allOnes 2)
    (h : flags &&& mask = flags' &&& mask) : selField flags = selField flags' := by
  have hand (f : Byte) : selField (f &&& mask) = selField f := by
    unfold selField at *
    rw [BitVec.extractLsb'_and, hm, BitVec.and_allOnes]
  rw [← hand flags, h, hand]

/-- A bit of `flags` depends on the bits under any mask that covers it. -/
theorem getLsbD_eq_of_and_eq {flags flags' mask : Byte} {k : Nat} (hm : mask.getLsbD k = true)
    (h : flags &&& mask = flags' &&& mask) : flags.getLsbD k = flags'.getLsbD k := by
  have hand (f : Byte) : (f &&& mask).getLsbD k = f.getLsbD k := by rw [BitVec.getLsbD_and, hm, Bool.and_true]
  rw [← hand flags, h, hand]

/-! ## The rows of the opcode table (R92) -/

/-- The row of a command's own opcode, with its own operands, is the command. -/
@[simp] theorem selectInstr_opcodeOf (i : Instr) : selectInstr (opcodeOf i) (argOf i) (flagsOf i) = some i := by
  cases i with
  | relative | absolute | ledPid | limitStepOff => simp [selectInstr, opcodeOf, argOf, flagsOf]
  | _ => rfl

/-- Every outcome of the row selection: a row with the opcode asked for, which is at most 13, or none above 13. -/
theorem selectInstr_cases (op : Half) (arg : Word) (flags : Byte) :
    (op.toNat ≤ 13 ∧ ∃ i, selectInstr op arg flags = some i ∧ opcodeOf i = op) ∨
    (13 < op.toNat ∧ selectInstr op arg flags = none) := by
  unfold selectInstr
  generalize hop : op.toNat = n
  match n, hop with
  | 0, hop | 1, hop | 2, hop | 3, hop | 4, hop | 5, hop | 6, hop | 7, hop | 8, hop | 9, hop | 10, hop | 11, hop
  | 12, hop | 13, hop => exact Or.inl ⟨by decide, _, rfl, BitVec.eq_of_toNat_eq hop.symm⟩
  | n + 14, _ => exact Or.inr ⟨by omega, rfl⟩

/-- An opcode selects a row exactly when it is 0 to 13 (R84). -/
theorem exists_selectInstr_iff (op : Half) (arg : Word) (flags : Byte) :
    (∃ i, selectInstr op arg flags = some i) ↔ op.toNat ≤ 13 := by
  rcases selectInstr_cases op arg flags with ⟨hle, i, hsel, _⟩ | ⟨hgt, hsel⟩
  · exact ⟨fun _ => hle, fun _ => ⟨i, hsel⟩⟩
  · rw [hsel]
    exact ⟨fun ⟨_, hsome⟩ => (nomatch hsome), fun hle => by omega⟩

/-- Every outcome of decoding an accepted frame's fields: a row with the frame's opcode, or the unknown handler. -/
theorem decodeFields_cases (F : List Byte) :
    ((frameOpcode F).toNat ≤ 13 ∧ ∃ i, decodeFields F = .known i ∧ opcodeOf i = frameOpcode F) ∨
    (13 < (frameOpcode F).toNat ∧ decodeFields F = .unknown (frameOpcode F)) := by
  unfold decodeFields
  rcases selectInstr_cases (frameOpcode F) (frameArg F) (frameFlags F) with ⟨hle, i, hsel, hop⟩ | ⟨hgt, hsel⟩
  · exact Or.inl ⟨hle, i, by rw [hsel], hop⟩
  · exact Or.inr ⟨hgt, by rw [hsel]⟩

/-- An opcode above every row's decodes to the unknown handler with the opcode it echoes. -/
theorem decodeFields_of_unknown {F : List Byte} (hop : 13 < (frameOpcode F).toNat) :
    decodeFields F = .unknown (frameOpcode F) := by
  rcases decodeFields_cases F with ⟨hle, _⟩ | ⟨_, hdec⟩
  · omega
  · exact hdec

/-! ## The checks of a frame (R136) -/

/-- Every outcome of the checks of a 12-byte string: the first one that fails, or none. -/
theorem frameFault_cases (poly : Byte) {F : List Byte} (hlen : F.length = 12) :
    (frameFault poly F = some .start ∧ startOk F = false) ∨
    (frameFault poly F = some .stop ∧ startOk F = true ∧ stopOk F = false) ∨
    (frameFault poly F = some .checksum ∧ startOk F = true ∧ stopOk F = true ∧ validate poly F = false) ∨
    (frameFault poly F = none ∧ startOk F = true ∧ stopOk F = true ∧ validate poly F = true) := by
  unfold frameFault
  rw [if_neg (not_not.mpr hlen)]
  cases startOk F
  · exact Or.inl ⟨rfl, rfl⟩
  cases stopOk F
  · exact Or.inr (Or.inl ⟨rfl, rfl, rfl⟩)
  cases validate poly F
  · exact Or.inr (Or.inr (Or.inl ⟨rfl, rfl, rfl, rfl⟩))
  · exact Or.inr (Or.inr (Or.inr ⟨rfl, rfl, rfl, rfl⟩))

/-- A 12-byte string with no failing check has both markers and its checksum. -/
theorem frameFault_eq_none_iff (poly : Byte) {F : List Byte} (hlen : F.length = 12) :
    frameFault poly F = none ↔ startOk F = true ∧ stopOk F = true ∧ validate poly F = true := by
  rcases frameFault_cases poly hlen with ⟨hf, h⟩ | ⟨hf, _, h⟩ | ⟨hf, _, _, h⟩ | ⟨hf, h⟩ <;> simp [hf, h]

/-- A failing check is the decoder's answer. -/
theorem decode_of_fault {poly : Byte} {F : List Byte} {e : FrameFault} (h : frameFault poly F = some e) :
    decode poly F = .error e := by
  unfold decode
  rw [h]

/-- With no failing check the decoder answers the command of the fields. -/
theorem decode_of_no_fault {poly : Byte} {F : List Byte} (h : frameFault poly F = none) :
    decode poly F = .ok (decodeFields F) := by
  unfold decode
  rw [h]

/-! ## The frame of given fields (R81 to R83) -/

@[simp] theorem frameOpcode_buildFrame (poly : Byte) (op : Half) (arg : Word) (flags : Byte) :
    frameOpcode (buildFrame poly op arg flags) = op := le16_byteOfHalf op

@[simp] theorem frameArg_buildFrame (poly : Byte) (op : Half) (arg : Word) (flags : Byte) :
    frameArg (buildFrame poly op arg flags) = arg := le32_byteOfWord arg

@[simp] theorem frameFlags_buildFrame (poly : Byte) (op : Half) (arg : Word) (flags : Byte) :
    frameFlags (buildFrame poly op arg flags) = flags := rfl

/-- Nine bytes followed by their checksum satisfy `validate` (R123). -/
theorem validate_append_crc8 (poly : Byte) {body : List Byte} (hlen : body.length = 9) (rest : List Byte) :
    validate poly (body ++ crc8 poly body :: rest) = true := by
  unfold validate
  rw [List.take_left' hlen, List.getD_append_right _ _ _ _ hlen.le, hlen, Nat.sub_self, List.getD_cons_zero]
  exact decide_eq_true rfl

/-- A built frame carries the checksum that the parser asks for (R83, R140). -/
@[simp] theorem validate_buildFrame (poly : Byte) (op : Half) (arg : Word) (flags : Byte) :
    validate poly (buildFrame poly op arg flags) = true := validate_append_crc8 poly rfl _

/-- A built frame passes every check. -/
@[simp] theorem frameFault_buildFrame (poly : Byte) (op : Half) (arg : Word) (flags : Byte) :
    frameFault poly (buildFrame poly op arg flags) = none :=
  (frameFault_eq_none_iff poly (length_buildFrame poly op arg flags)).mpr
    ⟨rfl, rfl, validate_buildFrame poly op arg flags⟩

/-- The fields of an encoded command are the command's. -/
@[simp] theorem decodeFields_encode (poly : Byte) (i : Instr) : decodeFields (encode poly i) = .known i := by
  unfold decodeFields encode
  rw [frameOpcode_buildFrame, frameArg_buildFrame, frameFlags_buildFrame, selectInstr_opcodeOf]

/-- An encoded command passes every check. -/
@[simp] theorem frameFault_encode (poly : Byte) (i : Instr) : frameFault poly (encode poly i) = none :=
  frameFault_buildFrame poly (opcodeOf i) (argOf i) (flagsOf i)

/-- Settles O1: the frame passes every check, and its fields select the command's own row. -/
theorem decodeOfEncodeIsIdentity : Obligations.DecodeOfEncodeIsIdentity := by
  intro poly i
  rw [decode_of_no_fault (frameFault_encode poly i), decodeFields_encode]

/-! ## The outcomes of decoding -/

/-- Settles O4, by the outcomes of the checks and, past them, of the row selection. -/
theorem decodingIsTotal : Obligations.DecodingIsTotal := by
  intro poly F hlen
  rcases frameFault_cases poly hlen with ⟨hf, h⟩ | ⟨hf, h⟩ | ⟨hf, h⟩ | ⟨hf, hstart, hstop, hcrc⟩
  · exact Or.inl ⟨decode_of_fault hf, h⟩
  · exact Or.inr (Or.inl ⟨decode_of_fault hf, h⟩)
  · exact Or.inr (Or.inr (Or.inl ⟨decode_of_fault hf, h⟩))
  · refine Or.inr (Or.inr (Or.inr ⟨hstart, hstop, hcrc, ?_⟩))
    rw [decode_of_no_fault hf]
    rcases decodeFields_cases F with ⟨_, i, hdec, hop⟩ | ⟨hgt, hdec⟩
    · exact Or.inl ⟨i, congrArg _ hdec, hop⟩
    · exact Or.inr ⟨congrArg _ hdec, hgt⟩

/-- The number of the opcode field (R84). -/
theorem toNat_frameOpcode (F : List Byte) :
    (frameOpcode F).toNat = (frameByte F 2).toNat + 256 * (frameByte F 3).toNat := toNat_le16 _ _

/-- Settles O5. -/
theorem opcodeFieldIsLittleEndian : Obligations.OpcodeFieldIsLittleEndian := fun F =>
  ⟨toNat_frameOpcode F, Nat.le_of_lt_succ (frameOpcode F).isLt, exists_selectInstr_iff _ _ _⟩

/-- A frame built with an opcode of no row decodes to the unknown handler (R93). -/
theorem decode_buildFrame_of_unknown (poly : Byte) {op : Half} (hop : 13 < op.toNat) (arg : Word) (flags : Byte) :
    decode poly (buildFrame poly op arg flags) = .ok (.unknown op) := by
  rw [decode_of_no_fault (frameFault_buildFrame poly op arg flags), decodeFields_of_unknown, frameOpcode_buildFrame]
  rwa [frameOpcode_buildFrame]

/-- A word that is a command's encoding decodes to the command. -/
theorem decode_of_encode_eq {poly : Byte} {i : Instr} {F : List Byte} (h : encode poly i = F) :
    decode poly F = .ok (.known i) := h ▸ decodeOfEncodeIsIdentity poly i

/-- Settles O6: four words are the encodings of their commands, the fifth is built with the opcode 256. -/
theorem specWordsDecode : Obligations.SpecWordsDecode := by
  have hunknown : buildFrame 0x8C 256 0 0 =
      [0xDE, 0xAD, 0x00, 0x01, 0x00, 0x00, 0x00, 0x00, 0x00, 0x12, 0xBE, 0xEF] := by decide +kernel
  exact ⟨decode_of_encode_eq (by decide +kernel), decode_of_encode_eq (by decide +kernel),
    decode_of_encode_eq (by decide +kernel), decode_of_encode_eq (by decide +kernel),
    hunknown ▸ decode_buildFrame_of_unknown 0x8C (by decide) 0 0⟩

/-! ## Fields that do not matter (R94) -/

/-- Settles O3, opcode by opcode: each row reads `flags` only under the mask that its sub-fields cover. -/
theorem unusedFieldsAreIgnored : Obligations.UnusedFieldsAreIgnored := by
  intro op arg arg' flags flags' harg hrelative habsolute hpid hstepOff
  unfold selectInstr
  generalize op.toNat = n at *
  match n with
  | 0 | 4 | 6 | 11 | 12 => rfl
  | 1 =>
    have hflags := hrelative rfl
    have hdir : dirField flags = dirField flags' := getLsbD_eq_of_and_eq (by decide) hflags
    have hign : ignField flags = ignField flags' := getLsbD_eq_of_and_eq (by decide) hflags
    simp only [harg (by decide), sizeField_eq_of_and_eq (by decide) hflags, hdir, hign]
  | 2 =>
    have hflags := habsolute rfl
    have hign : ignField flags = ignField flags' := getLsbD_eq_of_and_eq (by decide) hflags
    simp only [harg (by decide), sizeField_eq_of_and_eq (by decide) hflags, hign]
  | 3 | 5 | 7 | 8 | 10 => simp only [harg (by decide)]
  | 9 => simp only [harg (by decide), selField_eq_of_and_eq (by decide) (hpid rfl)]
  | 13 => simp only [harg (by decide), sizeField_eq_of_and_eq (by decide) (hstepOff rfl)]
  | _ + 14 => rfl

/-! ## The mask and the match of a row (R96) -/

/-- The mask of every row: the markers and the opcode. -/
def rowMask : List Byte := [0xFF, 0xFF, 0xFF, 0xFF, 0, 0, 0, 0, 0, 0, 0xFF, 0xFF]

/-- The match of row `n`. -/
def rowMatch (n : Nat) : List Byte := [0xDE, 0xAD, BitVec.ofNat 8 n, 0, 0, 0, 0, 0, 0, 0, 0xBE, 0xEF]

/-- A string that matches under the mask is one with both markers and the opcode bytes `n, 0`. -/
theorem rowMatch_iff (F : List Byte) (n : Nat) :
    (∀ k, k < 12 → frameByte F k &&& frameByte rowMask k = frameByte (rowMatch n) k) ↔
      startOk F = true ∧ stopOk F = true ∧ frameByte F 2 = BitVec.ofNat 8 n ∧ frameByte F 3 = 0 := by
  have hmasked (b : Byte) : b &&& 0xFF#8 = b := BitVec.and_allOnes
  have hclear (b : Byte) : b &&& 0#8 = 0#8 := BitVec.and_zero
  simp only [startOk, stopOk, Bool.and_eq_true, decide_eq_true_eq]
  constructor
  · intro h
    have hbyte (k : Nat) (hk : k < 12) (hm : frameByte rowMask k = 0xFF#8) :
        frameByte F k = frameByte (rowMatch n) k := by rw [← h k hk, hm, hmasked]
    exact ⟨⟨hbyte 0 (by omega) rfl, hbyte 1 (by omega) rfl⟩, ⟨hbyte 10 (by omega) rfl, hbyte 11 (by omega) rfl⟩,
      hbyte 2 (by omega) rfl, hbyte 3 (by omega) rfl⟩
  · rintro ⟨⟨h0, h1⟩, ⟨h10, h11⟩, h2, h3⟩ k hk
    match k with
    | 0 => exact (hmasked _).trans h0
    | 1 => exact (hmasked _).trans h1
    | 2 => exact (hmasked _).trans h2
    | 3 => exact (hmasked _).trans h3
    | 4 | 5 | 6 | 7 | 8 | 9 => exact hclear _
    | 10 => exact (hmasked _).trans h10
    | 11 => exact (hmasked _).trans h11

/-- The opcode bytes of a row's number. -/
theorem toNat_frameOpcode_eq_iff (F : List Byte) {n : Nat} (hn : n < 256) :
    (frameOpcode F).toNat = n ↔ frameByte F 2 = BitVec.ofNat 8 n ∧ frameByte F 3 = 0 := by
  rw [toNat_frameOpcode, ← BitVec.toNat_inj, ← BitVec.toNat_inj, BitVec.toNat_ofNat, Nat.mod_eq_of_lt hn]
  change _ ↔ _ ∧ (frameByte F 3).toNat = 0
  omega

/-- A row selects the 12-byte strings with both markers and its opcode. -/
theorem selectRow_opcode_iff {F : List Byte} (hlen : F.length = 12) {n : Nat} (hn : n ≤ 13) :
    (∃ i, selectRow F = some i ∧ (opcodeOf i).toNat = n) ↔
      startOk F = true ∧ stopOk F = true ∧ (frameOpcode F).toNat = n := by
  unfold selectRow
  split
  case isTrue h =>
    obtain ⟨_, hstart, hstop⟩ := h
    rcases selectInstr_cases (frameOpcode F) (frameArg F) (frameFlags F) with ⟨_, i, hsel, hop⟩ | ⟨hgt, hsel⟩
    · simp [hsel, hop, hstart, hstop]
    · simp only [hsel, reduceCtorEq, false_and, exists_false, false_iff]
      omega
  case isFalse h =>
    exact ⟨fun ⟨_, hsome, _⟩ => (nomatch hsome), fun ⟨hstart, hstop, _⟩ => (h ⟨hlen, hstart, hstop⟩).elim⟩

/-- Settles O2: both sides say that both markers stand and that the opcode is `n`. -/
theorem rowSelectedIffMaskMatches : Obligations.RowSelectedIffMaskMatches := by
  intro F n hlen hn
  rw [selectRow_opcode_iff hlen hn, toNat_frameOpcode_eq_iff F (by omega)]
  exact rowMatch_iff F n

/-! ## The unknown opcode (R93) -/

/-- Byte `k` of the oldest `n`. -/
theorem RingBuf.frameByte_oldest (cap : Nat) (B : RingBuf) {n k : Nat} (hk : k < n) :
    frameByte (RingBuf.oldest cap B n) k = RingBuf.peekAt cap B k := by
  have hlt : k < (RingBuf.oldest cap B n).length := (RingBuf.length_oldest cap B n).symm ▸ hk
  exact (List.getD_eq_getElem _ _ hlt).trans (RingBuf.getElem_oldest cap B n k hlt)

/-- The parser accepts the twelve oldest bytes when they pass every check and the reply slot is free (R136). -/
theorem parserStep_of_accepted {s : State} (hsize : 12 ≤ RingBuf.size s.cfg.rbCap s.rb)
    (hfault : frameFault s.cfg.crc8PolyR (RingBuf.oldest s.cfg.rbCap s.rb 12) = none) (hfree : s.reply.valid = false) :
    parserStep s = (12, some (decodeFields (RingBuf.oldest s.cfg.rbCap s.rb 12))) := by
  obtain ⟨hstart, hstop, hcrc⟩ :=
    (frameFault_eq_none_iff s.cfg.crc8PolyR (RingBuf.length_oldest s.cfg.rbCap s.rb 12)).mp hfault
  simp only [startOk, Bool.and_eq_true, decide_eq_true_eq] at hstart
  obtain ⟨hfirst, hsecond⟩ := hstart
  rw [RingBuf.frameByte_oldest _ _ (by omega)] at hfirst hsecond
  simp only [parserStep]
  rw [if_neg (by omega), if_neg (not_not.mpr hfirst), if_neg (by omega), if_neg (not_not.mpr hsecond),
    if_neg (by omega), if_neg (by simp [hstop]), if_neg (by simp [hcrc]), if_neg (by simp [hfree])]

/-- Settles O35: the parser accepts the frame, its opcode is above every row, and the handler is the quiet one with the
result value of R93. -/
theorem unknownOpcodeOnlyReplies : Obligations.UnknownOpcodeOnlyReplies := by
  intro s hi hrst hfree hlen F hfault hop
  rw [RingBuf.length_contents] at hlen
  have hF : RingBuf.oldest s.cfg.rbCap s.rb 12 = F := RingBuf.oldest_eq_take _ _ _ hlen
  have hparse := parserStep_of_accepted hlen (hF ▸ hfault) hfree
  rw [hF, decodeFields_of_unknown hop] at hparse
  obtain ⟨_, _, _, hreply⟩ := State.consistent_iff.mp hi.2
  have hstep := step_of_running hi hrst
  rw [hparse] at hstep
  exact ⟨_, hstep.trans (execUnknown_eq _ s), dispatchCycle_replies _ _ hreply, rfl, rfl, rfl,
    dispatchCycle_rest s _ _⟩

end Sys2Proof.Machine

/-! The ring buffer as a queue (40_ringbuffer.md): what each operation, the cycle's update and a sequence of operations
do to the buffered bytes, oldest first, and which byte of RB_MEM they write. -/

namespace Sys2Proof.Machine

-- as in the tests: proofs checked one after another stay inside the sandbox's limit on threads
set_option Elab.async false

/-! ## `put` and the receive path, by whether the buffer has room -/

/-- `put` on a buffer with room is `try_put` (R103). -/
theorem RingBuf.put_room (cap : Nat) {B : RingBuf} (b : Byte) (hf : B.full = false) :
    RingBuf.put cap B b = (RingBuf.tryPut cap B b).1 :=
  if_neg (by simp [hf])

/-- `put` on a full buffer moves both indices on (R103). -/
theorem RingBuf.put_full_eq (cap : Nat) {B : RingBuf} (b : Byte) (hf : B.full = true) :
    RingBuf.put cap B b =
      { mem := B.mem.write B.head b, head := (B.head + 1) % cap, tail := (B.tail + 1) % cap, full := true } :=
  if_pos hf

/-- A received byte that meets room is appended, whatever RB_OVERWRITE says (R107). -/
theorem RingBuf.receive_room (p : Params) {B : RingBuf} (b : Byte) (hf : B.full = false) :
    RingBuf.receive p B b = (RingBuf.tryPut p.rbCap B b).1 := by
  unfold RingBuf.receive
  split
  · exact RingBuf.put_room _ b hf
  · rfl

/-- A received byte that meets a full buffer is dropped without RB_OVERWRITE (R107). -/
theorem RingBuf.receive_dropped {p : Params} {B : RingBuf} (b : Byte) (hf : B.full = true)
    (ho : p.rbOverwrite = false) : RingBuf.receive p B b = B := by
  unfold RingBuf.receive
  rw [if_neg (by simp [ho]), RingBuf.tryPut_full _ _ _ hf]

/-- With RB_OVERWRITE the receive path is `put` (R107). -/
theorem RingBuf.receive_overwrite {p : Params} (B : RingBuf) (b : Byte) (ho : p.rbOverwrite = true) :
    RingBuf.receive p B b = RingBuf.put p.rbCap B b :=
  if_pos ho

/-! ## The byte of RB_MEM that an operation writes -/

/-- A byte stored at RB_HEAD is read back there; every other byte reads as before. -/
theorem RingBuf.read_write_head {p : Params} {B : RingBuf} (b : Byte) (a : Nat) (h : B.consistent p = true) :
    (B.mem.write B.head b).read a = if a = B.head then b else B.mem.read a := by
  obtain ⟨_, _, _, hmem⟩ := RingBuf.consistent_iff.mp h
  exact Memory.read_write _ _ _ hmem

/-- The receive path writes no byte, or the one at RB_HEAD. -/
theorem RingBuf.mem_receive (p : Params) (B : RingBuf) (b : Byte) :
    (RingBuf.receive p B b).mem = B.mem ∨ (RingBuf.receive p B b).mem = B.mem.write B.head b := by
  cases hf : B.full
  · rw [RingBuf.receive_room p b hf, RingBuf.tryPut_room _ _ _ hf]
    exact .inr rfl
  · cases ho : p.rbOverwrite
    · exact .inl (by rw [RingBuf.receive_dropped b hf ho])
    · exact .inr (by rw [RingBuf.receive_overwrite B b ho, RingBuf.put_full_eq _ b hf])

/-- The receive path leaves every byte but the one at RB_HEAD. -/
theorem RingBuf.read_receive_of_ne {p : Params} {B : RingBuf} (b : Byte) {a : Nat} (h : B.consistent p = true)
    (ha : a ≠ B.head) : (RingBuf.receive p B b).mem.read a = B.mem.read a := by
  rcases RingBuf.mem_receive p B b with e | e <;> rw [e]
  rw [RingBuf.read_write_head b a h, if_neg ha]

/-- `get` writes neither RB_MEM nor RB_HEAD. -/
theorem RingBuf.get_frame (cap : Nat) (B : RingBuf) :
    (RingBuf.get cap B).1.mem = B.mem ∧ (RingBuf.get cap B).1.head = B.head := by
  by_cases hs : RingBuf.size cap B = 0
  · rw [RingBuf.get_empty _ _ hs]
    exact ⟨rfl, rfl⟩
  · rw [RingBuf.get_some _ _ hs]
    exact ⟨rfl, rfl⟩

/-- `get_n` writes neither RB_MEM nor RB_HEAD. -/
theorem RingBuf.getN_frame (cap : Nat) (B : RingBuf) (n : Nat) :
    (RingBuf.getN cap B n).1.mem = B.mem ∧ (RingBuf.getN cap B n).1.head = B.head := by
  induction n generalizing B with
  | zero => exact ⟨rfl, rfl⟩
  | succ n ih =>
    obtain ⟨hmem, hhead⟩ := RingBuf.get_frame cap B
    obtain ⟨hmem', hhead'⟩ := ih (RingBuf.get cap B).1
    rw [RingBuf.getN_succ]
    exact ⟨hmem'.trans hmem, hhead'.trans hhead⟩

/-! ## The buffered bytes after each operation -/

/-- `try_put` on a buffer with room appends the byte (R102). -/
theorem RingBuf.contents_tryPut {p : Params} {B : RingBuf} (b : Byte) (h : B.consistent p = true)
    (hf : B.full = false) :
    RingBuf.contents p.rbCap (RingBuf.tryPut p.rbCap B b).1 = RingBuf.contents p.rbCap B ++ [b] := by
  have hsize := RingBuf.size_tryPut b h hf
  refine List.ext_getElem (by simp [hsize]) fun k hk _ => ?_
  rw [RingBuf.length_contents, hsize] at hk
  rw [RingBuf.getElem_contents, RingBuf.peekAt_tryPut b k h hf (by omega)]
  by_cases hlast : k = RingBuf.size p.rbCap B
  · rw [if_pos hlast, List.getElem_append_right (by rw [RingBuf.length_contents]; omega), List.getElem_singleton]
  · rw [if_neg hlast, List.getElem_append_left (by rw [RingBuf.length_contents]; omega), RingBuf.getElem_contents]

/-- The oldest byte stands at RB_TAIL, and `get` leaves the bytes after it (R104). -/
theorem RingBuf.contents_eq_cons {p : Params} {B : RingBuf} (h : B.consistent p = true)
    (hs : RingBuf.size p.rbCap B ≠ 0) :
    RingBuf.contents p.rbCap B = B.mem.read B.tail :: RingBuf.contents p.rbCap (RingBuf.get p.rbCap B).1 := by
  obtain ⟨_, htail, _, _⟩ := RingBuf.consistent_iff.mp h
  have hsize := RingBuf.size_get h hs
  refine List.ext_getElem (by simp [hsize]) fun k _ _ => ?_
  rw [RingBuf.getElem_contents]
  cases k with
  | zero => simp only [RingBuf.peekAt, Nat.add_zero, Nat.mod_eq_of_lt htail, List.getElem_cons_zero]
  | succ k => rw [List.getElem_cons_succ, RingBuf.getElem_contents, RingBuf.peekAt_get k hs]

/-- An empty buffer holds no byte. -/
theorem RingBuf.contents_eq_nil {cap : Nat} {B : RingBuf} (hs : RingBuf.size cap B = 0) :
    RingBuf.contents cap B = [] :=
  List.length_eq_zero_iff.mp ((RingBuf.length_contents cap B).trans hs)

/-- The byte `get` returns, if any, and then the bytes it leaves are the bytes there before (R104). -/
theorem RingBuf.get_append_contents {p : Params} {B : RingBuf} (h : B.consistent p = true) :
    (RingBuf.get p.rbCap B).2.toList ++ RingBuf.contents p.rbCap (RingBuf.get p.rbCap B).1 =
      RingBuf.contents p.rbCap B := by
  by_cases hs : RingBuf.size p.rbCap B = 0
  · rw [RingBuf.get_empty _ _ hs]
    rfl
  · rw [RingBuf.contents_eq_cons h hs, RingBuf.get_some _ _ hs]
    rfl

/-- `get` removes the oldest byte, if there is one (R104). -/
theorem RingBuf.contents_get {p : Params} {B : RingBuf} (h : B.consistent p = true) :
    RingBuf.contents p.rbCap (RingBuf.get p.rbCap B).1 = (RingBuf.contents p.rbCap B).tail := by
  by_cases hs : RingBuf.size p.rbCap B = 0
  · rw [RingBuf.get_empty _ _ hs, RingBuf.contents_eq_nil hs]
    rfl
  · rw [RingBuf.contents_eq_cons h hs, List.tail_cons]

/-- `put` on a full buffer loses the oldest byte and appends the new one (R103). -/
theorem RingBuf.contents_put_full {p : Params} {B : RingBuf} (b : Byte) (h : B.consistent p = true)
    (hf : B.full = true) :
    RingBuf.contents p.rbCap (RingBuf.put p.rbCap B b) = (RingBuf.contents p.rbCap B).tail ++ [b] := by
  obtain ⟨hhead, _, _, _⟩ := RingBuf.consistent_iff.mp h
  have hs : RingBuf.size p.rbCap B ≠ 0 := by
    rw [(RingBuf.full_iff h).mp hf]
    omega
  have hroom : (RingBuf.get p.rbCap B).1.full = false := by rw [RingBuf.get_some _ _ hs]
  rw [RingBuf.put_full b h hf, RingBuf.contents_tryPut b (RingBuf.consistent_get h) hroom, RingBuf.contents_get h]

/-- `get_n` removes the `n` oldest bytes, or all there are (R105). -/
theorem RingBuf.contents_getN {p : Params} (n : Nat) {B : RingBuf} (h : B.consistent p = true) :
    RingBuf.contents p.rbCap (RingBuf.getN p.rbCap B n).1 = (RingBuf.contents p.rbCap B).drop n := by
  induction n generalizing B with
  | zero => rfl
  | succ n ih =>
    rw [RingBuf.getN_succ, ih (RingBuf.consistent_get h), RingBuf.contents_get h, List.drop_tail]

/-- After a removal the buffer is full exactly when what is left of the buffered bytes fills it (R100). -/
theorem RingBuf.full_getN_iff {p : Params} (n : Nat) {B : RingBuf} (h : B.consistent p = true) :
    (RingBuf.getN p.rbCap B n).1.full = true ↔ (RingBuf.contents p.rbCap B).length - n = p.rbCap := by
  rw [RingBuf.full_iff (RingBuf.consistent_getN n h), ← RingBuf.length_contents, RingBuf.contents_getN n h,
    List.length_drop]

/-! ## The single operations -/

/-- Settles O9, from the two branches of `try_put`. -/
theorem tryPutAppendsUnlessFull : Obligations.TryPutAppendsUnlessFull := by
  intro p B b _ hc
  refine ⟨RingBuf.tryPut_full _ B b, fun hf => ?_⟩
  have hcontents := RingBuf.contents_tryPut b hc hf
  rw [RingBuf.tryPut_room _ _ _ hf] at hcontents ⊢
  exact ⟨rfl, hcontents, fun a => RingBuf.read_write_head b a hc, rfl, rfl, rfl⟩

/-- Settles O10: on a full buffer the bytes are those of a `get` and a `try_put`. -/
theorem putOverwritesTheOldest : Obligations.PutOverwritesTheOldest := by
  intro p B b _ hc
  refine ⟨RingBuf.put_room _ b, fun hf => ?_⟩
  have hcontents := RingBuf.contents_put_full b hc hf
  rw [RingBuf.put_full_eq _ b hf] at hcontents ⊢
  exact ⟨hcontents, rfl, fun a => RingBuf.read_write_head b a hc, rfl, rfl, rfl⟩

/-- Settles O11, from the two branches of `get`. -/
theorem getRemovesTheOldest : Obligations.GetRemovesTheOldest := fun p B _ hc =>
  ⟨RingBuf.get_empty p.rbCap B, fun hs => ⟨RingBuf.contents_eq_cons hc hs, RingBuf.get_some p.rbCap B hs⟩⟩

/-! ## Sequences of operations (R110) -/

/-- A sequence that never exceeds capacity returns, and then leaves, the bytes there at first and then the bytes put. -/
theorem ringRun_append_contents {p : Params} (ops : List RingOp) {B : RingBuf} (hc : B.consistent p = true)
    (hok : (ringRun p.rbCap B ops).2.2 = true) :
    (ringRun p.rbCap B ops).2.1 ++ RingBuf.contents p.rbCap (ringRun p.rbCap B ops).1 =
      RingBuf.contents p.rbCap B ++ putBytes ops := by
  induction ops generalizing B with
  | nil => exact (List.append_nil _).symm
  | cons op ops ih =>
    cases op with
    | put b =>
      simp only [ringRun, Bool.and_eq_true, Bool.not_eq_true'] at hok
      obtain ⟨hroom, hok⟩ := hok
      simp only [ringRun, putBytes]
      rw [ih (RingBuf.consistent_put b hc) hok, RingBuf.put_room _ b hroom, RingBuf.contents_tryPut b hc hroom,
        List.append_assoc, List.singleton_append]
    | get =>
      simp only [ringRun] at hok
      simp only [ringRun, putBytes]
      rw [List.append_assoc, ih (RingBuf.consistent_get hc) hok, ← List.append_assoc, RingBuf.get_append_contents hc]

/-- Settles O12: the order is `ringRun_append_contents`, by induction on the sequence; the size is its length. -/
theorem ringBufferIsFifo : Obligations.RingBufferIsFifo := by
  intro p B ops _ hc hok
  have horder := ringRun_append_contents ops hc hok
  have hlength := congrArg List.length horder
  simp only [List.length_append, RingBuf.length_contents] at hlength
  exact ⟨horder, by omega⟩

/-! ## The cycle's update (R108) -/

/-- The update of a cycle that receives no byte. -/
theorem RingBuf.cycle_of_no_byte {p : Params} (B : RingBuf) (removed : Nat) {i : Input} (hv : i.rxValid = false) :
    RingBuf.cycle p B removed i = (RingBuf.getN p.rbCap B removed).1 :=
  if_neg (by simp [hv])

/-- The update of a cycle that receives a byte. -/
theorem RingBuf.cycle_of_byte {p : Params} (B : RingBuf) (removed : Nat) {i : Input} (hv : i.rxValid = true) :
    RingBuf.cycle p B removed i = RingBuf.receive p (RingBuf.getN p.rbCap B removed).1 i.rxByte :=
  if_pos hv

/-- The update leaves every byte of RB_MEM but, in a cycle that receives a byte, the one at RB_HEAD. -/
theorem RingBuf.read_cycle {p : Params} {B : RingBuf} (removed : Nat) {i : Input} {a : Nat}
    (hc : B.consistent p = true) (ha : ¬ (i.rxValid = true ∧ a = B.head)) :
    (RingBuf.cycle p B removed i).mem.read a = B.mem.read a := by
  obtain ⟨hmem, hhead⟩ := RingBuf.getN_frame p.rbCap B removed
  cases hv : i.rxValid
  · rw [RingBuf.cycle_of_no_byte B removed hv, hmem]
  · have hne : a ≠ (RingBuf.getN p.rbCap B removed).1.head := fun e => ha ⟨hv, e.trans hhead⟩
    rw [RingBuf.cycle_of_byte B removed hv, RingBuf.read_receive_of_ne _ (RingBuf.consistent_getN removed hc) hne, hmem]

/-- A buffer that is full after a removal has lost nothing by it. -/
theorem RingBuf.drop_contents_of_full {p : Params} {B : RingBuf} {r : Nat} (hc : B.consistent p = true)
    (hlen : (RingBuf.contents p.rbCap B).length - r = p.rbCap) :
    (RingBuf.contents p.rbCap B).drop r = RingBuf.contents p.rbCap B := by
  obtain ⟨hhead, _, _, _⟩ := RingBuf.consistent_iff.mp hc
  have hsize := RingBuf.size_le hc
  rw [RingBuf.length_contents] at hlen
  obtain rfl : r = 0 := by omega
  rfl

/-- Settles O13: the removal drops the oldest bytes, and the received byte meets room, or a buffer still full. -/
theorem removalComesBeforeTheReceivedByte : Obligations.RemovalComesBeforeTheReceivedByte := by
  intro p B r i _ hc
  have hremoved := RingBuf.contents_getN r hc
  have hc' := RingBuf.consistent_getN r hc
  have hfull := RingBuf.full_getN_iff r hc
  refine ⟨fun hv => ?_, fun hv hlen => ?_, fun hv hlen ho => ?_, fun hv hlen ho => ?_⟩
  · rw [RingBuf.cycle_of_no_byte B r hv, hremoved]
  · have hroom : (RingBuf.getN p.rbCap B r).1.full = false :=
      Bool.eq_false_iff.mpr fun hf => Nat.ne_of_lt hlen (hfull.mp hf)
    rw [RingBuf.cycle_of_byte B r hv, RingBuf.receive_room p _ hroom, RingBuf.contents_tryPut _ hc' hroom, hremoved]
  · rw [RingBuf.cycle_of_byte B r hv, RingBuf.receive_dropped _ (hfull.mpr hlen) ho, hremoved,
      RingBuf.drop_contents_of_full hc hlen]
  · rw [RingBuf.cycle_of_byte B r hv, RingBuf.receive_overwrite _ _ ho,
      RingBuf.contents_put_full _ hc' (hfull.mpr hlen), hremoved, RingBuf.drop_contents_of_full hc hlen]

/-! ## The memory frame of a command -/

/-- A dispatch cycle leaves every byte of REPLY_BUF past the reply's twelve (R144). -/
theorem dispatchCycle_buf_read {s : State} (op : Half) (h : Handler) {a : Nat} (hc : s.reply.consistent = true)
    (ha : 12 ≤ a) : (dispatchCycle s op h).reply.buf.read a = s.reply.buf.read a := by
  obtain ⟨_, _, hwf⟩ := Reply.consistent_iff.mp hc
  have hlen : ∀ res status, (replyFrame s.cfg op res status).length = 12 := fun _ _ => rfl
  rw [dispatchCycle_buf, Memory.read_writeBytes 0 _ a hwf (by rw [hlen]), if_neg (by rw [hlen]; omega)]

/-- Settles O33: every command is a dispatch cycle, whose ring buffer is the cycle's update with twelve bytes removed. -/
theorem commandsStoreOnlyTheReplyAndTheReceivedByte : Obligations.CommandsStoreOnlyTheReplyAndTheReceivedByte := by
  intro i s t hc ht
  obtain ⟨_, _, hring, hreply⟩ := State.consistent_iff.mp hc
  obtain rfl := Host.Outcome.next.inj ((exec_eq_dispatchCycle i s).symm.trans ht)
  refine ⟨fun a ha => ?_, fun a ha => dispatchCycle_buf_read _ _ hreply ha, dispatchCycle_rest s _ _⟩
  rw [dispatchCycle_rb]
  exact RingBuf.read_cycle 12 hring ha

end Sys2Proof.Machine

/-! The checksum (41_checksum.md): what one flipped bit does to the running CRC and to `validate` (R128), and that every
reply is a frame that satisfies it (R124). -/

namespace Sys2Proof.Machine

/-! ## The trace of one flipped bit through the shifts -/

/-- What one flipped bit can have become after some shifts: the bit itself, not yet shifted out, or a nonzero word no
longer than the polynomial. In general a shift is not injective (a polynomial may have its top bit clear), but none
takes a word of this form to zero. -/
def IsBitTrace {w : Nat} (poly c : BitVec w) : Prop :=
  (∃ k, c.toNat = 2 ^ k) ∨ (0 < c.toNat ∧ c.toNat < 2 ^ (poly.toNat.log2 + 1))

/-- A single bit is its own trace. -/
theorem isBitTrace_bit {w k : Nat} (poly : BitVec w) (hk : k < w) : IsBitTrace poly (1#w <<< k) :=
  Or.inl ⟨k, BitVec.toNat_twoPow_of_lt hk⟩

/-- The trace of a flipped bit never vanishes. -/
theorem IsBitTrace.ne_zero {w : Nat} {poly c : BitVec w} (h : IsBitTrace poly c) : c ≠ 0 := by
  rintro rfl
  rcases h with ⟨k, hk⟩ | ⟨hpos, _⟩
  · exact absurd hk.symm (Nat.two_pow_pos k).ne'
  · exact Nat.lt_irrefl 0 hpos

/-- A shift that drops a 0 halves the number (R121). -/
theorem toNat_crcShift_of_even {w : Nat} (poly : BitVec w) {c : BitVec w} (h : c.toNat % 2 = 0) :
    (crcShift poly c).toNat = c.toNat / 2 := by
  have hbit : c.getLsbD 0 = false := by simp [BitVec.getLsbD, Nat.testBit_zero, h]
  simp [crcShift, hbit, Nat.shiftRight_eq_div_pow]

/-- A shift that drops a 1 halves the number and adds the polynomial bit by bit (R121). -/
theorem toNat_crcShift_of_odd {w : Nat} (poly : BitVec w) {c : BitVec w} (h : c.toNat % 2 = 1) :
    (crcShift poly c).toNat = c.toNat / 2 ^^^ poly.toNat := by
  have hbit : c.getLsbD 0 = true := by simp [BitVec.getLsbD, Nat.testBit_zero, h]
  simp [crcShift, hbit, Nat.shiftRight_eq_div_pow]

/-- A nonzero word no longer than the polynomial stays one under a shift: halved it is shorter than the polynomial, so
the XOR leaves the polynomial's highest bit set. -/
theorem crcShift_short {w : Nat} {poly c : BitVec w} (hpoly : poly ≠ 0) (hpos : 0 < c.toNat)
    (hlt : c.toNat < 2 ^ (poly.toNat.log2 + 1)) :
    0 < (crcShift poly c).toNat ∧ (crcShift poly c).toNat < 2 ^ (poly.toNat.log2 + 1) := by
  have htop : 2 ^ poly.toNat.log2 ≤ poly.toNat :=
    Nat.log2_self_le fun h => hpoly (BitVec.eq_of_toNat_eq (h.trans BitVec.toNat_zero.symm))
  have hhalf : c.toNat / 2 < 2 ^ poly.toNat.log2 := by rw [Nat.pow_succ] at hlt; omega
  rcases Nat.mod_two_eq_zero_or_one c.toNat with heven | hodd
  · rw [toNat_crcShift_of_even poly heven]
    omega
  · rw [toNat_crcShift_of_odd poly hodd]
    exact ⟨Nat.pos_of_ne_zero fun h => absurd (Nat.xor_eq_zero_iff.mp h) (by omega),
      Nat.xor_lt_two_pow (by omega) Nat.lt_log2_self⟩

/-- A shift keeps the form. -/
theorem IsBitTrace.crcShift {w : Nat} {poly c : BitVec w} (hpoly : poly ≠ 0) (h : IsBitTrace poly c) :
    IsBitTrace poly (crcShift poly c) := by
  rcases h with ⟨k, hk⟩ | ⟨hpos, hlt⟩
  · cases k with
    | zero => exact Or.inr (crcShift_short hpoly (by omega) (hk ▸ Nat.pow_lt_pow_right (by omega) (by omega)))
    | succ k =>
      rw [Nat.pow_succ] at hk
      exact Or.inl ⟨k, by rw [toNat_crcShift_of_even poly (by omega)]; omega⟩
  · exact Or.inr (crcShift_short hpoly hpos hlt)

/-- Several shifts keep the form. -/
theorem IsBitTrace.crcShifts {w : Nat} {poly c : BitVec w} (hpoly : poly ≠ 0) (n : Nat) (h : IsBitTrace poly c) :
    IsBitTrace poly (crcShifts poly n c) := by
  induction n generalizing c with
  | zero => exact h
  | succ n ih => exact ih (h.crcShift hpoly)

/-- The running CRC over zero bytes keeps the form: each byte is eight shifts. -/
theorem IsBitTrace.crc8From_zeros {poly c : Byte} (hpoly : poly ≠ 0) (n : Nat) (h : IsBitTrace poly c) :
    IsBitTrace poly (crc8From poly c (List.replicate n 0)) := by
  induction n generalizing c with
  | zero => exact h
  | succ n ih =>
    rw [List.replicate_succ, crc8From_cons]
    exact ih (BitVec.xor_zero.symm ▸ h.crcShifts hpoly 8)

/-! ## A change of one byte -/

/-- A difference in one byte goes through the rest of the bytes on its own. -/
theorem crc8From_set_xor (poly c e : Byte) {bytes : List Byte} {j : Nat} (hj : j < bytes.length) :
    crc8From poly c (bytes.set j (frameByte bytes j ^^^ e)) =
      crc8From poly c bytes ^^^ crc8From poly e (List.replicate (bytes.length - j) 0) := by
  induction bytes generalizing c j with
  | nil => exact absurd hj (Nat.not_lt_zero j)
  | cons b bs ih =>
    cases j with
    | zero =>
      calc crc8From poly c ((b ^^^ e) :: bs)
        _ = crc8From poly (c ^^^ e) (b :: bs) := by
          rw [crc8From_cons, crc8From_cons, BitVec.xor_comm b e, BitVec.xor_assoc]
        _ = _ := crc8From_xor poly c e (b :: bs)
    | succ j =>
      rw [List.length_cons, Nat.add_sub_add_right]
      exact ih (t8 poly (c ^^^ b)) (Nat.lt_of_succ_lt_succ hj)

/-- `validate` compares the CRC-8 of the first nine bytes with the tenth (R123). -/
theorem validate_eq_true_iff (poly : Byte) (F : List Byte) :
    validate poly F = true ↔ crc8 poly (F.take 9) = frameByte F 9 := decide_eq_true_iff

/-- A nonzero change of the checksum byte fails the check. -/
theorem validate_set_checksum {poly e : Byte} {F : List Byte} (hlen : 9 < F.length) (hF : validate poly F = true)
    (he : e ≠ 0) : validate poly (F.set 9 (frameByte F 9 ^^^ e)) = false := by
  rw [validate_eq_true_iff] at hF
  refine Bool.eq_false_iff.mpr fun h => he ?_
  have hbyte : frameByte (F.set 9 (frameByte F 9 ^^^ e)) 9 = frameByte F 9 ^^^ e := by simp [frameByte, hlen]
  rw [validate_eq_true_iff, List.take_set_of_le (Nat.le_refl 9), hF, hbyte] at h
  exact (BitVec.xor_right_inj (frameByte F 9)).mp (h.symm.trans BitVec.xor_zero.symm)

/-- A change of one of the nine bytes before the checksum that the CRC does not lose fails the check. -/
theorem validate_set_body {poly e : Byte} {F : List Byte} {j : Nat} (hj : j < 9) (hlen : 9 < F.length)
    (hF : validate poly F = true) (he : crc8From poly e (List.replicate (9 - j) 0) ≠ 0) :
    validate poly (F.set j (frameByte F j ^^^ e)) = false := by
  rw [validate_eq_true_iff] at hF
  refine Bool.eq_false_iff.mpr fun h => he ?_
  have hbody : (F.take 9).length = 9 := List.length_take_of_le hlen.le
  have hsame : frameByte F j = frameByte (F.take 9) j := by simp [frameByte, hj]
  have hchecksum : frameByte (F.set j (frameByte F j ^^^ e)) 9 = frameByte F 9 := by
    simp [frameByte, Nat.ne_of_lt hj]
  have hcrc := crc8From_set_xor poly 0 e (hbody.symm ▸ hj)
  rw [hbody, ← hsame, ← List.take_set] at hcrc
  rw [validate_eq_true_iff, hchecksum, ← hF] at h
  exact (BitVec.xor_right_inj _).mp ((hcrc.symm.trans h).trans BitVec.xor_zero.symm)

/-- Settles O7: in the checksum byte the flip shows at once; before it, the bit's trace reaches the checksum. -/
theorem crcDetectsEverySingleBitError : Obligations.CrcDetectsEverySingleBitError := by
  intro poly F j k hpoly hlen hF hj hk
  have hbit : IsBitTrace poly (1#8 <<< k) := isBitTrace_bit poly hk
  rcases Nat.lt_succ_iff_lt_or_eq.mp hj with hbody | rfl
  · exact validate_set_body hbody (by omega) hF (hbit.crc8From_zeros hpoly (9 - j)).ne_zero
  · exact validate_set_checksum (by omega) hF hbit.ne_zero

/-! ## Every reply is a frame -/

/-- A dispatched command leaves its reply in the slot, offered from its first byte (R144, R155). -/
theorem replies_of_dispatched {s t : State} {c : Command} (hi : Inv s) (hr : s.input.rst = false)
    (hd : dispatched s = some c) (hs : step s = .next t) : ∃ res, Replies s t (commandOpcode c) res := by
  obtain ⟨_, _, _, hreply⟩ := State.consistent_iff.mp hi.2
  have ht : t = dispatchCycle s (commandOpcode c) (handlerOf (some c)) := by
    rw [eq_runningNext_of_step hi hr hs, runningNext, hd]
  exact ⟨_, ht ▸ dispatchCycle_replies _ _ hreply⟩

/-- The byte offered with a reply not yet sent is the reply's first. -/
theorem out_of_replies {s t : State} {op : Half} {res : Word} (h : Replies s t op res) :
    (out t).txValid = true ∧ (out t).txByte = frameByte (replyBytes t) 0 := by
  obtain ⟨hvalid, hidx, _⟩ := h
  refine ⟨hvalid, ?_⟩
  simp only [out, hvalid, hidx, if_true]
  rfl

/-- Settles O8: the reply is a built frame (`replies_of_dispatched`), whose fields and checks are known. -/
theorem everyReplyIsAValidFrame : Obligations.EveryReplyIsAValidFrame := by
  intro s t c hi hr hd hs
  obtain ⟨res, hreplies⟩ := replies_of_dispatched hi hr hd hs
  obtain ⟨hvalid, hbyte⟩ := out_of_replies hreplies
  obtain ⟨_, _, hbytes⟩ := hreplies
  rw [hbytes] at hbyte ⊢
  have hcrc := validate_buildFrame s.cfg.crc8PolyR (commandOpcode c) res
    (statusByte t.led.on (running t.motor) t.sw.estopLatched s.sw.sync2.lim2 s.sw.sync2.lim1)
  refine ⟨length_buildFrame _ _ _ _, hcrc, (validate_eq_true_iff _ _).mp hcrc, rfl, rfl, ?_, ?_,
    statusByte_bits _ _ _ _ _, hvalid, hbyte⟩
  · rintro i rfl
    exact frameOpcode_buildFrame _ _ _ _
  · rintro op rfl
    exact frameOpcode_buildFrame _ _ _ _

end Sys2Proof.Machine

/-! The frame path (42_frame_protocol.md): the parser as a function of the buffered bytes, the command that a placed or
received frame runs, what a cycle without a command leaves, and the transmitter over a whole reply. -/

namespace Sys2Proof.Machine

-- as in the tests: proofs checked one after another stay inside the sandbox's limit on threads
set_option Elab.async false

/-! ## The parser, by what it finds at the head of the buffer (R136) -/

/-- A buffered byte is what `RBPeek` reads at its place. -/
theorem RingBuf.peekAt_of_contents {cap : Nat} {B : RingBuf} {k : Nat} {b : Byte}
    (h : (RingBuf.contents cap B)[k]? = some b) : RingBuf.peekAt cap B k = b := by
  obtain ⟨hk, hb⟩ := List.getElem?_eq_some_iff.mp h
  exact (RingBuf.getElem_contents cap B k hk).symm.trans hb

section
variable {s : State}

/-- An empty buffer: the parser waits (R138). -/
theorem parserStep_of_empty (hsize : RingBuf.size s.cfg.rbCap s.rb = 0) : parserStep s = (0, none) := by
  simp only [parserStep]
  rw [if_pos hsize]

/-- Garbage in the first place is dropped (R137). -/
theorem parserStep_of_first_ne (hsize : 1 ≤ RingBuf.size s.cfg.rbCap s.rb)
    (hfirst : RingBuf.peekAt s.cfg.rbCap s.rb 0 ≠ 0xDE#8) : parserStep s = (1, none) := by
  simp only [parserStep]
  rw [if_neg (by omega), if_pos hfirst]

/-- A lone first marker byte: the parser waits for the second (R138). -/
theorem parserStep_of_lone (hsize : RingBuf.size s.cfg.rbCap s.rb = 1)
    (hfirst : RingBuf.peekAt s.cfg.rbCap s.rb 0 = 0xDE#8) : parserStep s = (0, none) := by
  simp only [parserStep]
  rw [if_neg (by omega), if_neg (not_not.mpr hfirst), if_pos (by omega)]

/-- A first marker byte without the second is dropped (R137). -/
theorem parserStep_of_second_ne (hsize : 2 ≤ RingBuf.size s.cfg.rbCap s.rb)
    (hfirst : RingBuf.peekAt s.cfg.rbCap s.rb 0 = 0xDE#8) (hsecond : RingBuf.peekAt s.cfg.rbCap s.rb 1 ≠ 0xAD#8) :
    parserStep s = (1, none) := by
  simp only [parserStep]
  rw [if_neg (by omega), if_neg (not_not.mpr hfirst), if_neg (by omega), if_pos hsecond]

/-- A start marker with fewer than twelve bytes: the parser waits for the rest (R138). -/
theorem parserStep_of_short (hsize : 2 ≤ RingBuf.size s.cfg.rbCap s.rb) (hshort : RingBuf.size s.cfg.rbCap s.rb < 12)
    (hfirst : RingBuf.peekAt s.cfg.rbCap s.rb 0 = 0xDE#8) (hsecond : RingBuf.peekAt s.cfg.rbCap s.rb 1 = 0xAD#8) :
    parserStep s = (0, none) := by
  simp only [parserStep]
  rw [if_neg (by omega), if_neg (not_not.mpr hfirst), if_neg (by omega), if_neg (not_not.mpr hsecond), if_pos hshort]

/-- The start marker stands at the head of the twelve oldest bytes when the two oldest are `DE AD` (R82). -/
theorem startOk_oldest_iff :
    startOk (RingBuf.oldest s.cfg.rbCap s.rb 12) = true ↔
      RingBuf.peekAt s.cfg.rbCap s.rb 0 = 0xDE#8 ∧ RingBuf.peekAt s.cfg.rbCap s.rb 1 = 0xAD#8 := by
  simp [startOk, RingBuf.frameByte_oldest]

/-- Twelve bytes behind a start marker: the parser looks at the stop marker, the checksum and the reply slot, in this
order (R139 to R141, R152). -/
theorem parserStep_of_candidate (hsize : 12 ≤ RingBuf.size s.cfg.rbCap s.rb)
    (hstart : startOk (RingBuf.oldest s.cfg.rbCap s.rb 12) = true) :
    parserStep s =
      if stopOk (RingBuf.oldest s.cfg.rbCap s.rb 12) = false then (1, none)
      else if validate s.cfg.crc8PolyR (RingBuf.oldest s.cfg.rbCap s.rb 12) = false then (1, none)
      else if s.reply.valid = true then (0, none)
      else (12, some (decodeFields (RingBuf.oldest s.cfg.rbCap s.rb 12))) := by
  obtain ⟨hfirst, hsecond⟩ := startOk_oldest_iff.mp hstart
  simp only [parserStep, Bool.not_eq_true']
  rw [if_neg (by omega), if_neg (not_not.mpr hfirst), if_neg (by omega), if_neg (not_not.mpr hsecond),
    if_neg (by omega)]

/-- The first byte of twelve that fail a check is dropped, whichever check it is (R137, R139, R140). -/
theorem parserStep_of_fault {e : FrameFault} (hsize : 12 ≤ RingBuf.size s.cfg.rbCap s.rb)
    (hfault : frameFault s.cfg.crc8PolyR (RingBuf.oldest s.cfg.rbCap s.rb 12) = some e) :
    parserStep s = (1, none) := by
  rcases frameFault_cases s.cfg.crc8PolyR (RingBuf.length_oldest s.cfg.rbCap s.rb 12) with
    ⟨_, hstart⟩ | ⟨_, hstart, hstop⟩ | ⟨_, hstart, hstop, hcrc⟩ | ⟨hnone, _⟩
  · by_cases hfirst : RingBuf.peekAt s.cfg.rbCap s.rb 0 = 0xDE#8
    · refine parserStep_of_second_ne (by omega) hfirst fun hsecond => ?_
      exact Bool.eq_false_iff.mp hstart (startOk_oldest_iff.mpr ⟨hfirst, hsecond⟩)
    · exact parserStep_of_first_ne (by omega) hfirst
  · rw [parserStep_of_candidate hsize hstart, if_pos hstop]
  · rw [parserStep_of_candidate hsize hstart, if_neg (by simp [hstop]), if_pos hcrc]
  · simp [hnone] at hfault

/-- A frame that passes every check waits while a reply is pending (R152). -/
theorem parserStep_of_busy (hsize : 12 ≤ RingBuf.size s.cfg.rbCap s.rb)
    (hfault : frameFault s.cfg.crc8PolyR (RingBuf.oldest s.cfg.rbCap s.rb 12) = none) (hbusy : s.reply.valid = true) :
    parserStep s = (0, none) := by
  obtain ⟨hstart, hstop, hcrc⟩ :=
    (frameFault_eq_none_iff s.cfg.crc8PolyR (RingBuf.length_oldest s.cfg.rbCap s.rb 12)).mp hfault
  rw [parserStep_of_candidate hsize hstart, if_neg (by simp [hstop]), if_neg (by simp [hcrc]), if_pos hbusy]

end

/-- The decoder rejects a byte string by its failing check. -/
theorem decode_eq_error_iff {poly : Byte} {F : List Byte} {e : FrameFault} :
    decode poly F = .error e ↔ frameFault poly F = some e := by
  cases h : frameFault poly F with
  | none => simp [decode_of_no_fault h]
  | some e' => simp [decode_of_fault h]

/-- The decoder accepts a byte string that passes every check, and answers the command of its fields. -/
theorem decode_eq_ok_iff {poly : Byte} {F : List Byte} {c : Command} :
    decode poly F = .ok c ↔ frameFault poly F = none ∧ decodeFields F = c := by
  cases h : frameFault poly F with
  | none => simp [decode_of_no_fault h]
  | some e => simp [decode_of_fault h]

/-- With the reply slot free the parser takes twelve buffered bytes that decode to a command (R141). -/
theorem parserStep_of_decode {s : State} {c : Command} (hfree : s.reply.valid = false)
    (hlen : 12 ≤ (RingBuf.contents s.cfg.rbCap s.rb).length)
    (hdec : decode s.cfg.crc8PolyR ((RingBuf.contents s.cfg.rbCap s.rb).take 12) = .ok c) :
    parserStep s = (12, some c) := by
  rw [RingBuf.length_contents] at hlen
  rw [← RingBuf.oldest_eq_take _ _ _ hlen] at hdec
  obtain ⟨hfault, rfl⟩ := decode_eq_ok_iff.mp hdec
  exact parserStep_of_accepted hlen hfault hfree

/-- Settles O14: each clause gives the bytes at the head of the buffer, which decide the branch of the parser. -/
theorem parserActsOnTheBufferedBytes : Obligations.ParserActsOnTheBufferedBytes := by
  intro s _ bytes
  have hsize : bytes.length = RingBuf.size s.cfg.rbCap s.rb := RingBuf.length_contents _ _
  have hpeek : ∀ {k b}, bytes[k]? = some b → RingBuf.peekAt s.cfg.rbCap s.rb k = b :=
    fun h => RingBuf.peekAt_of_contents h
  have htake : 12 ≤ bytes.length → bytes.take 12 = RingBuf.oldest s.cfg.rbCap s.rb 12 :=
    fun h => (RingBuf.oldest_eq_take _ _ _ (hsize ▸ h)).symm
  refine ⟨fun h => ?empty, fun b rest h hb => ?first, fun h => ?lone, fun b rest h hb => ?second,
    fun rest h hlen => ?short, fun e hlen h => ?fault, fun c hlen h hbusy => ?busy,
    fun c hlen h hfree => parserStep_of_decode hfree hlen h⟩
  case empty => exact parserStep_of_empty (by simp [← hsize, h])
  case first => exact parserStep_of_first_ne (by simp [← hsize, h]) (by rwa [hpeek (b := b) (by simp [h])])
  case lone => exact parserStep_of_lone (by simp [← hsize, h]) (hpeek (by simp [h]))
  case second =>
    exact parserStep_of_second_ne (by simp [← hsize, h]) (hpeek (by simp [h])) (by rwa [hpeek (b := b) (by simp [h])])
  case short =>
    exact parserStep_of_short (by simp [← hsize, h]) (hsize ▸ hlen) (hpeek (by simp [h])) (hpeek (by simp [h]))
  case fault =>
    rw [htake hlen] at h
    exact parserStep_of_fault (hsize ▸ hlen) (decode_eq_error_iff.mp h)
  case busy =>
    rw [htake hlen] at h
    exact parserStep_of_busy (hsize ▸ hlen) (decode_eq_ok_iff.mp h).1 hbusy

/-! ## The step that runs a command (R141 to R143) -/

/-- Settles O15, for known and unknown commands alike: the parser takes the frame, and the step is what it decides. -/
theorem stepRunsTheDecodedCommand : Obligations.StepRunsTheDecodedCommand := by
  intro s c hi hr hfree hlen hdec
  have hstep := step_of_running hi hr
  rw [parserStep_of_decode hfree hlen hdec] at hstep
  constructor
  · rintro i rfl
    exact hstep
  · rintro op rfl
    exact hstep

/-! ## Placing a frame where the parser looks (log 10) -/

/-- Bytes put one after another while they fit are appended in their order. -/
theorem RingBuf.contents_foldl_tryPut {p : Params} (bytes : List Byte) {B : RingBuf} (hc : B.consistent p = true)
    (hfit : RingBuf.size p.rbCap B + bytes.length ≤ p.rbCap) :
    RingBuf.contents p.rbCap (bytes.foldl (fun B b => (RingBuf.tryPut p.rbCap B b).1) B) =
      RingBuf.contents p.rbCap B ++ bytes := by
  induction bytes generalizing B with
  | nil => exact (List.append_nil _).symm
  | cons b bs ih =>
    rw [List.length_cons] at hfit
    have hroom : B.full = false := Bool.eq_false_iff.mpr fun hf => by
      rw [(RingBuf.full_iff hc).mp hf] at hfit
      omega
    rw [List.foldl_cons, ih (RingBuf.consistent_tryPut b hc) (by rw [RingBuf.size_tryPut b hc hroom]; omega),
      RingBuf.contents_tryPut b hc hroom, List.append_assoc, List.singleton_append]

/-- An emptied buffer has size 0. -/
theorem RingBuf.size_emptied (cap : Nat) (B : RingBuf) :
    RingBuf.size cap { B with head := B.tail, full := false } = 0 := by
  simp [RingBuf.size]

/-- A placed buffer holds exactly the bytes placed, if they fit. -/
theorem RingBuf.contents_place {p : Params} {B : RingBuf} {bytes : List Byte} (hc : B.consistent p = true)
    (hfit : bytes.length ≤ p.rbCap) : RingBuf.contents p.rbCap (RingBuf.place p.rbCap B bytes) = bytes := by
  have hempty := RingBuf.size_emptied p.rbCap B
  unfold RingBuf.place
  rw [RingBuf.contents_foldl_tryPut bytes (RingBuf.consistent_emptied hc) (by omega),
    RingBuf.contents_eq_nil hempty, List.nil_append]

/-- A placed frame's cycle has `rst` low. -/
theorem placeFrame_rst (s : State) (bytes : List Byte) : (placeFrame s bytes).input.rst = false := by
  unfold State.input
  rw [placeFrame_inputs]
  cases s.inputs <;> rfl

/-- Placing a frame keeps the invariant. -/
theorem placeFrame_inv {s : State} (hi : Inv s) (bytes : List Byte) : Inv (placeFrame s bytes) := by
  obtain ⟨hmotor, hled, hring, hreply⟩ := State.consistent_iff.mp hi.2
  obtain ⟨_, _, hbuf⟩ := Reply.consistent_iff.mp hreply
  exact Inv.of_parts hi rfl hmotor hled (RingBuf.consistent_place bytes hring)
    (Reply.consistent_iff.mpr ⟨Nat.zero_le _, fun _ => rfl, hbuf⟩)

/-- Settles O16: the placed bytes are the buffer's only ones and decode to the command (O1), so the step runs it
(O15). -/
theorem placedCommandRunsNext : Obligations.PlacedCommandRunsNext := by
  intro s i hi
  obtain ⟨_, _, hcap, _⟩ := Params.legal_bounds hi.1
  obtain ⟨_, _, hring, _⟩ := State.consistent_iff.mp hi.2
  have hlen : (encode s.cfg.crc8PolyR i).length = 12 := length_buildFrame _ _ _ _
  have hbytes : RingBuf.contents s.cfg.rbCap (placeFrame s (encode s.cfg.crc8PolyR i)).rb = encode s.cfg.crc8PolyR i :=
    RingBuf.contents_place hring (hlen.trans_le hcap)
  refine (stepRunsTheDecodedCommand _ (.known i) (placeFrame_inv hi _) (placeFrame_rst s _) rfl ?_ ?_).1 i rfl
  · rw [placeFrame_cfg, hbytes, hlen]
  · rw [placeFrame_cfg, hbytes, List.take_of_length_le hlen.le]
    exact decodeOfEncodeIsIdentity _ i

/-! ## A cycle in which the parser accepts nothing (R154) -/

/-- A parser that accepts no command removes no byte or one. -/
theorem removed_of_not_dispatched {s : State} (hd : dispatched s = none) :
    (parserStep s).1 = 0 ∨ (parserStep s).1 = 1 := by
  unfold dispatched at hd
  rcases parserStep_cases s with e | e | ⟨e, _⟩ <;> rw [e] at hd ⊢
  · exact Or.inl rfl
  · exact Or.inr rfl
  · cases hd

/-- A step in which the parser accepts nothing is the cycle without a command. -/
theorem eq_quietCycle_of_not_dispatched {s t : State} (hi : Inv s) (hr : s.input.rst = false)
    (hd : dispatched s = none) (hs : step s = .next t) : t = quietCycle s (parserStep s).1 := by
  rw [eq_runningNext_of_step hi hr hs, runningNext, hd]

/-- Settles O17: in the cycle without a command only the ring buffer's update reads the count of removed bytes. -/
theorem frameErrorsOnlyRemoveBytes : Obligations.FrameErrorsOnlyRemoveBytes := by
  intro s t hi hr hd hs
  rw [eq_quietCycle_of_not_dispatched hi hr hd hs]
  exact ⟨rfl, rfl, rfl, rfl, rfl, removed_of_not_dispatched hd, rfl⟩

/-! ## The transmitter over a whole reply (R150, R151) -/

/-- With no reply pending the transmitter sends nothing and stays as it is. -/
theorem txRun_of_free {r : Reply} (is : List Input) (hv : r.valid = false) : txRun r is = (r, []) := by
  induction is with
  | nil => rfl
  | cons i is ih =>
    have hstay : txStep i r = r := by simp [txStep, hv]
    simp [txRun, hstay, ih, hv]

/-- A cycle without `tx_ready` sends nothing. -/
theorem txRun_cons_of_not_ready {i : Input} (r : Reply) (is : List Input) (ht : i.txReady = false) :
    txRun r (i :: is) = txRun r is := by
  have hstay : txStep i r = r := by simp [txStep, ht]
  simp [txRun, hstay, ht]

/-- A cycle with `tx_ready` sends the byte at `TX_IDX` of a pending reply. -/
theorem txRun_cons_of_ready {i : Input} {r : Reply} (is : List Input) (hv : r.valid = true) (ht : i.txReady = true) :
    txRun r (i :: is) =
      ((txRun (txStep i r) is).1, r.buf.read r.txIdx :: (txRun (txStep i r) is).2) := by
  simp [txRun, hv, ht]

/-- From byte `TX_IDX` on, the `n` bytes left of a pending reply go out in `n` ready cycles, and then the slot is free
and the heartbeat toggled. -/
theorem txRun_of_pending (is : List Input) {r : Reply} {n : Nat} (hv : r.valid = true)
    (hready : (is.filter (fun i => i.txReady)).length = n) (hidx : r.txIdx ≤ 11) (hleft : r.txIdx + n = 12) :
    txRun r is = ({ r with valid := false, txIdx := 0, heartbeat := !r.heartbeat }, r.buf.readBytes r.txIdx n) := by
  induction is generalizing r n with
  | nil =>
    rw [List.filter_nil, List.length_nil] at hready
    omega
  | cons i is ih =>
    cases ht : i.txReady with
    | false =>
      rw [List.filter_cons_of_neg (by simp [ht])] at hready
      rw [txRun_cons_of_not_ready r is ht, ih hv hready hidx hleft]
    | true =>
      rw [List.filter_cons_of_pos ht, List.length_cons] at hready
      obtain ⟨m, rfl⟩ : ∃ m, n = m + 1 := ⟨_, hready.symm⟩
      rw [txRun_cons_of_ready is hv ht, Memory.readBytes]
      rcases txStep_cases i r with ⟨hno, _⟩ | ⟨_, _, hmid, e⟩ | ⟨_, _, hlast, e⟩
      · simp [hv, ht] at hno
      · rw [e, ih (r := { r with txIdx := r.txIdx + 1 }) hv (Nat.succ.inj hready) (by simp only; omega)
          (by simp only; omega)]
      · obtain rfl : m = 0 := by omega
        rw [e, txRun_of_free is rfl, Memory.readBytes]

/-- Settles O18: the whole reply is what goes out from byte 0 on (`txRun_of_pending`). -/
theorem replyGoesOutOnceInOrder : Obligations.ReplyGoesOutOnceInOrder := by
  intro r is hv hidx hready
  have hrun := txRun_of_pending is hv hready (by omega) (by omega)
  rw [hidx] at hrun
  rw [hrun]
  exact ⟨rfl, rfl⟩

/-! ## IDLE (R148) -/

/-- Settles O34: IDLE is the dispatch cycle of the quiet handler, whose result is SUCCESS. -/
theorem idleOnlyReplies : Obligations.IdleOnlyReplies := by
  intro s hc
  obtain ⟨_, _, _, hreply⟩ := State.consistent_iff.mp hc
  exact ⟨_, exec_idle s, dispatchCycle_replies 0 Handler.quiet hreply, rfl, rfl, rfl, dispatchCycle_rest s 0 _⟩

end Sys2Proof.Machine

/-! The motor sequencer's cycle (43_motor_sequencer.md R165 to R185): the sub-step by its branch, the outcomes of the tick
processing, and the commands RELATIVE, ABSOLUTE, SPEED, STOP and GET_POSITION. -/

namespace Sys2Proof.Machine

-- as in the tests: proofs checked one after another stay inside the sandbox's limit on threads
set_option Elab.async false

/-! ## The branches of the sub-step (R168) -/

/-- A running motor is not in ESTOP (R166). -/
theorem ne_estop_of_running {m : Motor} (hr : running m = true) : m.mState ≠ .estop :=
  fun he => by simp [running, he, MState.isMotion] at hr

/-- A motion under a clear latch is in branch C. -/
theorem motorBranch_of_running {c : MotorCtx} (hl : c.latched = false) (hr : running c.m = true) :
    motorBranch c = .normal :=
  motorBranch_normal.mpr ⟨hl, ne_estop_of_running hr⟩

/-- While the latch is set the cycle is in branch A. -/
theorem motorBranch_of_latched {c : MotorCtx} (hl : c.latched = true) : motorBranch c = .latched :=
  if_pos hl

/-- Branch C enters with the motor as it stands. -/
theorem motorEntry_of_normal {c : MotorCtx} (hb : motorBranch c = .normal) : motorEntry c = (c.m, none) := by
  unfold motorEntry; rw [hb]

/-- A configuration command while a motion runs under a clear latch: its write, then the tick processing. -/
theorem motorConfig_of_running {c : MotorCtx} (f : Motor → Motor) (hl : c.latched = false)
    (hr : running c.m = true) : motorConfig c f = motorDone (tickProcess c (f c.m)) := by
  have hb := motorBranch_of_running hl hr
  unfold motorConfig
  rw [motorTick_take _ hb hr, motorEntry_of_normal hb]

/-- A configuration command in a cycle without tick processing: the entry, then its write. -/
theorem motorConfig_of_no_tick {c : MotorCtx} (f : Motor → Motor) (h : c.latched = true ∨ running c.m = false) :
    motorConfig c f = motorDone (f (motorEntry c).1, (motorEntry c).2) := by
  unfold motorConfig
  rw [motorTick_skip]
  refine h.imp_left fun hl hb => ?_
  rw [(motorBranch_normal.mp hb).1] at hl
  cases hl

/-- A motion under a clear latch takes the tick processing. -/
theorem motorFree_of_running {c : MotorCtx} (hl : c.latched = false) (hr : running c.m = true) :
    motorFree c = motorDone (tickProcess c c.m) :=
  motorConfig_of_running (fun m => m) hl hr

/-- Without tick processing the motor takes the entry alone. -/
theorem motorFree_of_no_tick {c : MotorCtx} (h : c.latched = true ∨ running c.m = false) :
    motorFree c = motorDone (motorEntry c) :=
  motorConfig_of_no_tick (fun m => m) h

/-- Either a motion runs under a clear latch, or no tick is processed. -/
theorem ticks_or_not (c : MotorCtx) :
    (c.latched = false ∧ running c.m = true) ∨ (c.latched = true ∨ running c.m = false) := by
  cases c.latched <;> cases running c.m <;> simp

/-! ## The tick processing, by its three outcomes (R167, R168, R177) -/

/-- The limits abort the motion of this cycle: no `ign`, and an active level at a tick or a confirmation. -/
def Aborts (c : MotorCtx) : Prop :=
  c.m.reqIgn = false ∧ (limitActive c = true ∧ motorTickNow c.m = true ∨ confirmed c = true)

/-- Where the limits abort, the tick processing is the abort, at a tick or between ticks. -/
theorem tickProcess_of_aborts {c : MotorCtx} (m : Motor) (h : Aborts c) : tickProcess c m = exitAction c.m m := by
  obtain ⟨hign, hlim⟩ := h
  unfold tickProcess
  cases ht : motorTickNow c.m
  · have hconf : confirmed c = true := by simpa [ht] using hlim
    exact (if_neg Bool.false_ne_true).trans (if_pos (by rw [hconf, hign]; rfl))
  · have hany : (limitActive c || confirmed c) = true := by simpa [ht] using hlim
    exact (if_pos rfl).trans (if_pos (by rw [hany, hign]; rfl))

/-- At a tick without an abort it is the tick action. -/
theorem tickProcess_of_tick {c : MotorCtx} (m : Motor) (h : ¬ Aborts c) (ht : motorTickNow c.m = true) :
    tickProcess c m = tickAction c.cfg c.m { m with tickCnt := 0 } := by
  unfold tickProcess
  exact (if_pos ht).trans (if_neg fun hlim => h (by simpa [Aborts, ht, and_comm] using hlim))

/-- Between ticks without an abort it counts the cycle. -/
theorem tickProcess_of_count {c : MotorCtx} (m : Motor) (h : ¬ Aborts c) (ht : motorTickNow c.m = false) :
    tickProcess c m = ({ m with tickCnt := c.m.tickCnt + 1 }, none) := by
  unfold tickProcess
  exact (if_neg (by simp [ht])).trans (if_neg fun hconf => h (by simpa [Aborts, ht, and_comm] using hconf))

/-- With no level and no confirmation nothing aborts. -/
theorem not_aborts_undisturbed (p : Params) (m : Motor) (latched : Bool) :
    ¬ Aborts { undisturbed p m with latched := latched } := by
  simp [Aborts, undisturbed, limitActive, confirmed]

/-- A motion's tick, by the count (R167). -/
theorem motorTickNow_iff {m : Motor} (hr : running m = true) :
    motorTickNow m = true ↔ m.tickCnt = m.tickDiv - 1 := by
  rw [motorTickNow, hr, Bool.true_and, decide_eq_true_iff]

/-! ## The check of a motion command (R179) -/

/-- A check of `StepCheck` fails. -/
def StepFails (c : MotorCtx) (size : BitVec 4) (ign : Bool) : Prop :=
  running c.m = true ∨ 4 < size.toNat ∨ c.latched = true ∨ (limitActive c = true ∧ ign = false)

/-- A selector above 4 names no size. -/
theorem selectorValid_eq_false {size : BitVec 4} : selectorValid size = false ↔ 4 < size.toNat := by
  simp [selectorValid]

/-- `StepCheck` answers SUCCESS exactly where no check fails. -/
theorem stepCheck_eq_success_iff {c : MotorCtx} {size : BitVec 4} {ign : Bool} :
    stepCheck c size ign = .success ↔ ¬ StepFails c size ign := by
  unfold stepCheck StepFails
  rw [← selectorValid_eq_false]
  cases running c.m <;> cases selectorValid size <;> cases c.latched <;> cases limitActive c <;> cases ign <;> simp

/-- The code of the first failing check: BUSY, then INVALID_SIZE, then BLOCKED. -/
theorem stepCheck_code_of_fails {c : MotorCtx} {size : BitVec 4} {ign : Bool} (h : StepFails c size ign) :
    (stepCheck c size ign).code = if running c.m then 1 else if 4 < size.toNat then 2 else 3 := by
  unfold StepFails at h
  unfold stepCheck
  cases hr : running c.m
  case true => rfl
  case false =>
    by_cases hsize : 4 < size.toNat
    · simp [hsize, selectorValid_eq_false.mpr hsize, Result.code]
    · have hblocked : c.latched = true ∨ (limitActive c && !ign) = true := by simpa [hr, hsize] using h
      have hvalid : selectorValid size = true := by
        rwa [← selectorValid_eq_false, Bool.not_eq_false] at hsize
      rcases hblocked with hb | hb <;> simp [hb, hvalid, hsize, Result.code]

/-! ## The dispatch cycle of a motor command -/

/-- A command whose only part is a motor sub-step answers a state with its reply and that sub-step's motor; the other
sub-blocks are as in the cycle without it. -/
theorem motorCommand_next {s : State} {i : Instr} {op : Half} {f : MotorCtx → Motor} {r : MotorCtx → Word}
    (hc : s.consistent = true)
    (he : exec i s = .next (dispatchCycle s op { Handler.quiet with motor := f, res := r })) :
    ∃ t, exec i s = .next t ∧ Replies s t op (r (motorCtx s Handler.quiet)) ∧
      t.motor = f (motorCtx s Handler.quiet) ∧ SwitchesAsQuiet s t ∧ LedAsQuiet s t ∧ RestAsQuiet s t := by
  obtain ⟨_, _, _, hreply⟩ := State.consistent_iff.mp hc
  exact ⟨_, he, dispatchCycle_replies op _ hreply, rfl, rfl, rfl, dispatchCycle_rest s op _⟩

/-- The latch that a command without a part in it meets: the e-stop level or the latch of the state (R217). -/
theorem quiet_latched (s : State) :
    (motorCtx s Handler.quiet).latched = (s.sw.sync2.est || s.sw.estopLatched) := by
  simp [latchNext, Handler.quiet]

/-- Out of ESTOP, with the level inactive, such a command meets a clear latch (R45). -/
theorem quiet_latched_eq_false {s : State} (hc : s.consistent = true) (he : s.motor.mState ≠ .estop)
    (hest : s.sw.sync2.est = false) : (motorCtx s Handler.quiet).latched = false := by
  obtain ⟨⟨_, hlatch⟩, _⟩ := State.consistent_iff.mp hc
  rw [quiet_latched, hest, Bool.false_or]
  exact Bool.eq_false_iff.mpr fun hl => he (hlatch.mpr hl)

/-! ## The motion commands (R179 to R181, R193) -/

/-- A motion command with a failing check leaves the motor as the cycle without it. -/
theorem motorStart_of_fails {c : MotorCtx} {size : BitVec 4} {ign : Bool} (req : StepSize → Word × Bool)
    (h : StepFails c size ign) : motorStart c size ign req = motorFree c :=
  motorStart_reject size ign req fun e => stepCheck_eq_success_iff.mp e h

/-- Settles O30, by the first failing check of either motion command. -/
theorem rejectedMotionHasNoEffect : Obligations.RejectedMotionHasNoEffect := by
  intro s count target size dir ign hc hfails res
  have hf : StepFails (motorCtx s Handler.quiet) size ign := by
    unfold StepFails
    rw [quiet_latched]
    simpa [limitActive, or_assoc] using hfails
  have hcode : (stepCheck (motorCtx s Handler.quiet) size ign).code = res := stepCheck_code_of_fails hf
  constructor
  · obtain ⟨t, he, hrep, hmotor, hframe⟩ := motorCommand_next hc (exec_relative count size dir ign s)
    exact ⟨t, he, hcode ▸ hrep, hmotor.trans (motorStart_of_fails _ hf), hframe⟩
  · obtain ⟨t, he, hrep, hmotor, hframe⟩ := motorCommand_next hc (exec_absolute target size ign s)
    exact ⟨t, he, hcode ▸ hrep, hmotor.trans (motorStart_of_fails _ hf), hframe⟩

/-- What an accepted motion command meets: no check fails, and branch C loads the request. -/
theorem motionAccepted {s : State} {size : BitVec 4} {ign : Bool} {sz : StepSize} (req : StepSize → Word × Bool)
    (hc : s.consistent = true) (hidle : s.motor.mState = .idle) (hest : s.sw.sync2.est = false)
    (hsize : stepSizeOf size = some sz)
    (hlim : ign = true ∨ (s.sw.sync2.lim1 = false ∧ s.sw.sync2.lim2 = false)) :
    stepCheck (motorCtx s Handler.quiet) size ign = .success ∧
    motorStart (motorCtx s Handler.quiet) size ign req =
      motorDone (s.motor.load sz (req sz).1 (req sz).2 ign, none) := by
  have hne : s.motor.mState ≠ .estop := by simp [hidle]
  have hlatched := quiet_latched_eq_false hc hne hest
  have hvalid : ¬ 4 < size.toNat := by
    rw [← selectorValid_eq_false, ← stepSizeOf_isSome, hsize]; simp
  have hrest : running s.motor = false := not_running_iff.mpr (.inl hidle)
  have hok : ¬ StepFails (motorCtx s Handler.quiet) size ign := by
    rintro (h | h | h | ⟨h, hign⟩)
    · exact absurd (hrest.symm.trans h) Bool.false_ne_true
    · exact hvalid h
    · exact absurd (hlatched.symm.trans h) Bool.false_ne_true
    · rcases hlim with hi | ⟨h1, h2⟩
      · exact absurd (hign.symm.trans hi) Bool.false_ne_true
      · simp [limitActive, h1, h2] at h
  have hcheck := stepCheck_eq_success_iff.mpr hok
  exact ⟨hcheck, motorStart_accept req (motorBranch_normal.mpr ⟨hlatched, hne⟩) hcheck hsize⟩

/-- Settles O36: an accepted RELATIVE loads its operands. -/
theorem relativeLoadsItsRequest : Obligations.RelativeLoadsItsRequest := by
  intro s count size dir ign sz hc hidle hest hsize hlim
  obtain ⟨hcheck, hload⟩ := motionAccepted (fun _ => (count, dir)) hc hidle hest hsize hlim
  obtain ⟨t, he, hrep, hmotor, hframe⟩ := motorCommand_next hc (exec_relative count size dir ign s)
  rw [hcheck] at hrep
  exact ⟨t, he, hrep, hmotor.trans hload, hframe⟩

/-- The count of an ABSOLUTE move is the exact quotient: no difference of two positions leaves 32 bits (R181). -/
theorem u32_absoluteMove (target position : Word) (dist : Nat) :
    u32 (absoluteMove target position dist).1 = (s32 target - s32 position).natAbs / dist := by
  have hdiff : (s32 target - s32 position).natAbs < 2 ^ 32 := by
    have := target.toInt_lt; have := target.le_toInt; have := position.toInt_lt; have := position.le_toInt
    unfold s32; omega
  simp only [u32, absoluteMove, BitVec.toNat_ofNat]
  exact Nat.mod_eq_of_lt ((Nat.div_le_self _ _).trans_lt hdiff)

/-- The direction of an ABSOLUTE move is the sign of the difference (R181). -/
theorem absoluteMove_dir (target position : Word) (dist : Nat) :
    (absoluteMove target position dist).2 = true ↔ s32 target < s32 position := by
  simp [absoluteMove]

/-- Settles O37: an accepted ABSOLUTE loads `absoluteMove` from the position at the start of the cycle. -/
theorem absoluteLoadsTheExactDifference : Obligations.AbsoluteLoadsTheExactDifference := by
  intro s target size ign sz hc hidle hest hsize hlim
  obtain ⟨hcheck, hload⟩ := motionAccepted
    (fun sz => absoluteMove target s.motor.position (stepDist s.cfg sz)) hc hidle hest hsize hlim
  obtain ⟨t, he, hrep, hmotor, hframe⟩ := motorCommand_next hc (exec_absolute target size ign s)
  rw [hcheck] at hrep
  have hm := hmotor.trans hload
  refine ⟨t, he, hrep, ?_, ?_, ?_, hframe⟩ <;> rw [hm]
  · exact u32_absoluteMove target s.motor.position (stepDist s.cfg sz)
  · exact absoluteMove_dir target s.motor.position (stepDist s.cfg sz)
  · rfl

/-! ## SPEED, STOP and GET_POSITION (R182, R183, R185) -/

/-- A SPEED that its check rejects leaves the motor as the cycle without it. -/
theorem motorConfig_speed_of_fails {c : MotorCtx} {hz : Word} (h : speedCheck c hz ≠ .success) :
    motorConfig c (speedWrite c hz) = motorFree c :=
  congrArg (motorConfig c) (funext fun _ => if_neg h)

/-- An accepted SPEED writes TICK_DIV over the cycle without it. -/
theorem motorConfig_speed_of_success {c : MotorCtx} {hz : Word} (hrest : running c.m = false)
    (h : speedCheck c hz = .success) :
    motorConfig c (speedWrite c hz) = { motorFree c with tickDiv := speedDiv c.cfg hz } := by
  rw [motorConfig_of_no_tick _ (.inr hrest), motorFree_of_no_tick (.inr hrest), speedWrite, if_pos h]
  rfl

/-- Settles O38, by the outcomes of SPEED's check. -/
theorem speedSetsTheTickPeriod : Obligations.SpeedSetsTheTickPeriod := by
  intro s hz hi
  obtain ⟨_, _, _, hclk, _⟩ := Params.legal_bounds hi.1
  obtain ⟨t, he, hrep, hmotor, hsw, hled, hrest⟩ := motorCommand_next hi.2 (exec_speed hz s)
  refine ⟨t, he, hsw, hled, hrest, ?_⟩
  rcases speedCheck_cases (motorCtx s Handler.quiet) hz with
    ⟨hrun, hcheck⟩ | ⟨hrun, hbad, hcheck⟩ | ⟨hrun, hnz, hperiod, hcheck⟩
  all_goals rw [hcheck] at hrep; rw [motorCtx_m] at hrun
  · have hquiet : MotorAsQuiet s t := hmotor.trans (motorConfig_speed_of_fails (by simp [hcheck]))
    have hmoves : running s.motor ≠ false := by simp [hrun]
    exact ⟨fun _ => ⟨hrep, hquiet⟩, fun h => absurd h hmoves, fun h => absurd h hmoves⟩
  · have hquiet : MotorAsQuiet s t := hmotor.trans (motorConfig_speed_of_fails (by simp [hcheck]))
    refine ⟨fun h => by simp [hrun] at h, fun _ _ => ⟨hrep, hquiet⟩, fun _ hnz hperiod => ?_⟩
    exact absurd hbad (not_or.mpr ⟨hnz, Nat.not_lt.mpr hperiod⟩)
  · have hm := hmotor.trans (motorConfig_speed_of_success hrun hcheck)
    refine ⟨fun h => by simp [hrun] at h, fun _ hbad => ?_, fun _ _ _ => ⟨hrep, ?_, ?_⟩⟩
    · exact absurd hbad (not_or.mpr ⟨hnz, Nat.not_lt.mpr hperiod⟩)
    · rw [hm]; exact u32_speedDiv hz hclk
    · rw [hm]; rfl

/-- STOP of a motion under a clear latch: cleared, with DONE_STOPPED, and no tick. -/
theorem motorStop_of_running {c : MotorCtx} (hl : c.latched = false) (hr : running c.m = true) :
    motorStop c = motorDone (c.m.clear, some .stopped) := by
  unfold motorStop
  rw [motorBranch_of_running hl hr, hr]
  rfl

/-- STOP with no motion, or with the latch set, does what the cycle without it does. -/
theorem motorStop_of_no_tick {c : MotorCtx} (h : c.latched = true ∨ running c.m = false) :
    motorStop c = motorFree c := by
  rw [motorFree_of_no_tick h]
  unfold motorStop
  split
  case h_1 hb =>
    have hrest : running c.m = false := h.resolve_left (by simp [(motorBranch_normal.mp hb).1])
    rw [hrest, motorEntry_of_normal hb]
    rfl
  all_goals rfl

/-- Settles O39: STOP acts on a motion under a clear latch, and on nothing else. -/
theorem stopEndsTheMotion : Obligations.StopEndsTheMotion := by
  intro s hc
  obtain ⟨t, he, hrep, hmotor, hsw, hled, hrest⟩ := motorCommand_next hc (exec_stop s)
  refine ⟨t, he, hrep, hsw, hled, hrest, fun hr hest => ?_, fun h => ?_⟩
  · have hlatched := quiet_latched_eq_false hc (ne_estop_of_running hr) hest
    exact hmotor.trans (motorStop_of_running hlatched hr)
  · refine hmotor.trans (motorStop_of_no_tick (h.symm.imp_left fun hest => ?_))
    rw [quiet_latched, hest, Bool.true_or]

/-- Settles O41: GET_POSITION has no part in the motor sub-step, and its result is the position at the cycle's start. -/
theorem getPositionRepliesThePosition : Obligations.GetPositionRepliesThePosition := by
  intro s hc
  exact motorCommand_next (f := motorFree) (r := fun c => c.m.position) hc (exec_getPosition s)

end Sys2Proof.Machine

/-! The configuration commands SET_POSITION and LIMIT_STEP_OFF (43_motor_sequencer.md R184, R187), taking the e-stop
(R175) and the limits (R172, R177). -/

namespace Sys2Proof.Machine

-- as in the tests: proofs checked one after another stay inside the sandbox's limit on threads
set_option Elab.async false

/-! ## The limit abort, by the step-off configuration (R172) -/

/-- With no step-off configured the abort clears the request. -/
theorem exitAction_of_none (s : Motor) {m : Motor} (h : m.soCount = 0) :
    exitAction s m = (m.clear, some .limit) := by
  simp [exitAction, h]

/-- A configured step-off is loaded in the reverse direction, with `ign`. -/
theorem exitAction_of_stepOff (s : Motor) {m : Motor} (h : m.soCount ≠ 0) :
    exitAction s m = (m.clear.load m.soSize m.soCount (!s.reqDir) true, some .limit) := by
  exact congrArg (·, some DoneCode.limit) (if_neg h)

/-! ## SET_POSITION: the sub-step commutes with a shift of POSITION (R184) -/

/-- The motor with POSITION moved by `d`. -/
def Motor.shift (d : Word) (m : Motor) : Motor := { m with position := m.position + d }

/-- An outcome with POSITION moved by `d`. -/
def MotorEv.shift (d : Word) (q : MotorEv) : MotorEv := (q.1.shift d, q.2)

/-- Writing POSITION is a shift by the difference. -/
theorem positionWrite_eq_shift (pos : Word) (m : Motor) : positionWrite pos m = m.shift (pos - m.position) := by
  simp [positionWrite, Motor.shift]

/-- The limit abort commutes with a shift. -/
theorem exitAction_shift (d : Word) (s m : Motor) :
    exitAction s (m.shift d) = MotorEv.shift d (exitAction s m) := by
  by_cases h : m.soCount = 0
  · rw [exitAction_of_none s h, exitAction_of_none s (m := m.shift d) h]
    rfl
  · rw [exitAction_of_stepOff s h, exitAction_of_stepOff s (m := m.shift d) h]
    rfl

/-- A tick action commutes with a shift: its edge adds to POSITION. -/
theorem tickAction_shift (p : Params) (d : Word) (s m : Motor) :
    tickAction p s (m.shift d) = MotorEv.shift d (tickAction p s m) := by
  cases hs : s.mState with
  | stepRising =>
    simp only [tickAction, hs]
    split
    · rfl
    · have hcomm (x y : Word) : x + d + y = x + y + d := by ac_rfl
      simp only [MotorEv.shift, Motor.shift, hcomm]
  | _ => simp only [tickAction, hs]; rfl

/-- The tick processing commutes with a shift. -/
theorem tickProcess_shift (c : MotorCtx) (d : Word) (m : Motor) :
    tickProcess c (m.shift d) = MotorEv.shift d (tickProcess c m) := by
  by_cases ha : Aborts c
  · rw [tickProcess_of_aborts _ ha, tickProcess_of_aborts _ ha, exitAction_shift]
  · cases ht : motorTickNow c.m
    · rw [tickProcess_of_count _ ha ht, tickProcess_of_count _ ha ht]; rfl
    · rw [tickProcess_of_tick _ ha ht, tickProcess_of_tick _ ha ht]
      exact tickAction_shift c.cfg d c.m { m with tickCnt := 0 }

/-- SET_POSITION shifts the motor of the cycle without it. -/
theorem motorConfig_positionWrite (c : MotorCtx) (pos : Word) :
    motorConfig c (positionWrite pos) = (motorFree c).shift (pos - c.m.position) := by
  rcases ticks_or_not c with ⟨hl, hr⟩ | h
  · rw [motorConfig_of_running _ hl hr, motorFree_of_running hl hr, positionWrite_eq_shift, tickProcess_shift]
    rfl
  · rw [motorConfig_of_no_tick _ h, motorFree_of_no_tick h, positionWrite_eq_shift, motorEntry_position]
    rfl

/-- Settles O40: SET_POSITION shifts POSITION by what it overwrites. -/
theorem setPositionRebasesThePosition : Obligations.SetPositionRebasesThePosition := by
  intro s pos hc
  obtain ⟨t, he, hrep, hmotor, hframe⟩ := motorCommand_next hc (exec_setPosition pos s)
  refine ⟨t, he, hrep, hmotor.trans ?_, hframe⟩
  have hsum (q p : Word) : q + (pos - p) = pos + (q - p) := by
    simp only [BitVec.sub_eq_add_neg]; ac_rfl
  rw [motorConfig_positionWrite, Motor.shift, hsum]
  rfl

/-! ## LIMIT_STEP_OFF: the sub-step reads the step-off that the cycle's command left (R187) -/

/-- The motor with a step-off configuration. -/
def Motor.withStepOff (size : StepSize) (count : Word) (m : Motor) : Motor :=
  { m with soSize := size, soCount := count }

/-- The write of a valid LIMIT_STEP_OFF. -/
theorem stepOffWrite_of_valid {size : BitVec 4} {sz : StepSize} (count : Word) (h : stepSizeOf size = some sz) :
    stepOffWrite count size = Motor.withStepOff sz count := by
  funext m; unfold stepOffWrite; rw [h]; rfl

/-- The write of an invalid LIMIT_STEP_OFF. -/
theorem stepOffWrite_of_invalid {size : BitVec 4} (count : Word) (h : stepSizeOf size = none) :
    stepOffWrite count size = fun m => m := by
  funext m; unfold stepOffWrite; rw [h]

/-- The entry moves no step-off register and reads none. -/
theorem motorEntry_withStepOff (c : MotorCtx) (size : StepSize) (count : Word) :
    motorEntry { c with m := c.m.withStepOff size count } =
      ((motorEntry c).1.withStepOff size count, (motorEntry c).2) := by
  unfold motorEntry motorBranch
  cases c.latched <;> by_cases he : c.m.mState = .estop <;> simp [he, Motor.withStepOff] <;> rfl

/-- A configuration written in the cycle is used as if it had stood before it. -/
theorem motorConfig_withStepOff (c : MotorCtx) (size : StepSize) (count : Word) :
    motorConfig c (Motor.withStepOff size count) = motorFree { c with m := c.m.withStepOff size count } := by
  rcases ticks_or_not c with ⟨hl, hr⟩ | h
  · exact (motorConfig_of_running _ hl hr).trans
      (motorFree_of_running (c := { c with m := c.m.withStepOff size count }) hl hr).symm
  · refine (motorConfig_of_no_tick _ h).trans
      (Eq.trans ?_ (motorFree_of_no_tick (c := { c with m := c.m.withStepOff size count }) h).symm)
    rw [motorEntry_withStepOff]

/-- `m'` has the step-off configuration of `m`. -/
def SameStepOff (m m' : Motor) : Prop := m'.soSize = m.soSize ∧ m'.soCount = m.soCount

/-- The entry keeps the step-off configuration. -/
theorem motorEntry_sameStepOff (c : MotorCtx) : SameStepOff c.m (motorEntry c).1 := by
  rcases motorEntry_cases c with ⟨_, _, e⟩ | ⟨_, _, e⟩ | ⟨_, _, e⟩ | ⟨_, _, e⟩ <;> rw [e] <;> exact ⟨rfl, rfl⟩

/-- The limit abort keeps the step-off configuration. -/
theorem exitAction_sameStepOff (s m : Motor) : SameStepOff m (exitAction s m).1 := by
  by_cases h : m.soCount = 0
  · rw [exitAction_of_none s h]; exact ⟨rfl, rfl⟩
  · rw [exitAction_of_stepOff s h]; exact ⟨rfl, rfl⟩

/-- No tick action writes the step-off configuration. -/
theorem tickAction_sameStepOff (p : Params) (s m : Motor) : SameStepOff m (tickAction p s m).1 := by
  cases hs : s.mState with
  | stepRising => simp only [tickAction, hs]; split <;> exact ⟨rfl, rfl⟩
  | _ => simp only [tickAction, hs]; exact ⟨rfl, rfl⟩

/-- A cycle without LIMIT_STEP_OFF keeps the step-off configuration. -/
theorem motorFree_sameStepOff (c : MotorCtx) : SameStepOff c.m (motorFree c) := by
  rcases ticks_or_not c with ⟨hl, hr⟩ | h
  · rw [motorFree_of_running hl hr]
    by_cases ha : Aborts c
    · rw [tickProcess_of_aborts _ ha]; exact exitAction_sameStepOff c.m c.m
    · cases ht : motorTickNow c.m
      · rw [tickProcess_of_count _ ha ht]; exact ⟨rfl, rfl⟩
      · rw [tickProcess_of_tick _ ha ht]; exact tickAction_sameStepOff c.cfg c.m { c.m with tickCnt := 0 }
  · rw [motorFree_of_no_tick h]
    exact motorEntry_sameStepOff c

/-- Settles O42, by the selector. -/
theorem limitStepOffConfiguresTheStepOff : Obligations.LimitStepOffConfiguresTheStepOff := by
  intro s count size hc
  obtain ⟨t, he, hrep, hmotor, hsw, hled, hrest⟩ := motorCommand_next hc (exec_limitStepOff count size s)
  refine ⟨t, he, hsw, hled, hrest, fun hbad => ?_, fun sz hsz => ?_⟩
  · have hinvalid := selectorValid_eq_false.mpr hbad
    have hnone : stepSizeOf size = none := by
      rw [← Option.not_isSome_iff_eq_none, stepSizeOf_isSome, hinvalid]; exact Bool.false_ne_true
    rw [stepOffWrite_of_invalid count hnone] at hmotor
    rw [stepOffCheck, hinvalid] at hrep
    exact ⟨hrep, hmotor⟩
  · have hvalid : selectorValid size = true := by rw [← stepSizeOf_isSome, hsz]; rfl
    rw [stepOffWrite_of_valid count hsz, motorConfig_withStepOff] at hmotor
    rw [stepOffCheck, hvalid] at hrep
    have hkeep := motorFree_sameStepOff
      { motorCtx s Handler.quiet with m := (motorCtx s Handler.quiet).m.withStepOff sz count }
    rw [← hmotor] at hkeep
    exact ⟨hrep, hkeep.1, hkeep.2, hmotor⟩

/-! ## Taking the e-stop (R175, R270) -/

/-- While the latch is set out of ESTOP, every command leaves the motor as taking the e-stop does, with the position
of a SET_POSITION; it may write TICK_DIV and the step-off configuration besides. -/
theorem handlerOf_takesEstop (d : Option Command) {c : MotorCtx} (hl : c.latched = true) (he : c.m.mState ≠ .estop) :
    ∃ div size count, (handlerOf d).motor c = motorDone
      ({ (takeEstop c.m).1 with
          position := positionBase c.m.position d, tickDiv := div, soSize := size, soCount := count },
        (takeEstop c.m).2) := by
  have hentry : motorEntry c = takeEstop c.m := by
    unfold motorEntry; rw [motorBranch_of_latched hl]; exact if_neg he
  have hfree : motorFree c = motorDone (takeEstop c.m) := by
    rw [motorFree_of_no_tick (.inl hl), hentry]
  have hconfig (f : Motor → Motor) : motorConfig c f = motorDone (f (takeEstop c.m).1, (takeEstop c.m).2) := by
    rw [motorConfig_of_no_tick f (.inl hl), hentry]
  have hstart (size ign req) : motorStart c size ign req = motorFree c :=
    motorStart_of_fails req (.inr (.inr (.inl hl)))
  rcases d with _ | (i | op)
  case some.known =>
    cases i with
    | relative => exact ⟨_, _, _, (hstart _ _ _).trans hfree⟩
    | absolute => exact ⟨_, _, _, (hstart _ _ _).trans hfree⟩
    | speed hz =>
      rcases speedWrite_cases c hz (takeEstop c.m).1 with ⟨_, e⟩ | ⟨_, e⟩
      all_goals exact ⟨_, _, _, (hconfig _).trans (congrArg (fun m => motorDone (m, (takeEstop c.m).2)) e)⟩
    | stop => exact ⟨_, _, _, (motorStop_of_no_tick (.inl hl)).trans hfree⟩
    | setPosition pos => exact ⟨_, _, _, hconfig _⟩
    | limitStepOff count size =>
      rcases stepOffWrite_cases count size (takeEstop c.m).1 with ⟨_, _, e⟩ | ⟨_, e⟩
      all_goals exact ⟨_, _, _, (hconfig _).trans (congrArg (fun m => motorDone (m, (takeEstop c.m).2)) e)⟩
    | _ => exact ⟨_, _, _, hfree⟩
  all_goals exact ⟨_, _, _, hfree⟩

/-- Settles O27: an active level sets the latch whatever the command, and the motor takes the e-stop. -/
theorem estopIsTakenInItsCycle : Obligations.EstopIsTakenInItsCycle := by
  intro s t hi hr hest hclear hs
  have hlatched (set clear : Bool) : latchNext s.sw.sync2.est set clear s.sw.estopLatched = true :=
    (latchNext_eq_true _ _ _ _).mpr (.inl hest)
  obtain ⟨⟨_, hlatch⟩, _⟩ := State.consistent_iff.mp hi.2
  have hne : s.motor.mState ≠ .estop := fun e => by simp [hlatch.mp e] at hclear
  obtain rfl := eq_runningNext_of_step hi hr hs
  obtain ⟨div, size, count, hmotor⟩ := handlerOf_takesEstop (dispatched s)
    (c := motorCtx s (handlerOf (dispatched s))) (hlatched _ _) hne
  obtain ⟨ms, hsw⟩ := handlerOf_switches (dispatched s)
    (switchesNext s (handlerOf (dispatched s)).set (handlerOf (dispatched s)).clear)
  rw [← runningNext_motor] at hmotor
  rw [runningNext_sw, hsw, hmotor]
  refine ⟨hlatched _ _, rfl, rfl, rfl, rfl, rfl, rfl, rfl, ?_, ?_, rfl, rfl, positionBase_of_ne, ?_⟩
  · cases hrun : running s.motor <;> simp [hrun]
  · cases hrun : running s.motor <;> simp [hrun]
  · intro pos hd
    simp [hd, positionBase]

/-! ## The limits (R172, R177, R178, R224) -/

/-- Where the limits do not abort, the tick processing is that of an undisturbed motion. -/
theorem tickProcess_of_not_aborts {c : MotorCtx} (m : Motor) (h : ¬ Aborts c) (latched : Bool) :
    tickProcess c m = tickProcess { undisturbed c.cfg c.m with latched := latched } m := by
  have hu := not_aborts_undisturbed c.cfg c.m latched
  cases ht : motorTickNow c.m
  · rw [tickProcess_of_count m h ht, tickProcess_of_count m hu ht]; rfl
  · rw [tickProcess_of_tick m h ht, tickProcess_of_tick m hu ht]; rfl

/-- Settles O51: the abort, the undisturbed rest, and the context of a cycle with no command. -/
theorem limitAbortsTheMotion : Obligations.LimitAbortsTheMotion := by
  refine ⟨fun c hr hl hign hlim => ?_, fun c h => ?_, fun s r hest hlatch => ?_⟩
  · have hcause : limitActive c = true ∧ motorTickNow c.m = true ∨ confirmed c = true := by
      simpa [limitActive, motorTickNow, confirmed, hr] using hlim
    rw [motorFree_of_running hl hr, tickProcess_of_aborts c.m ⟨hign, hcause⟩]
    by_cases hso : c.m.soCount = 0
    · rw [exitAction_of_none c.m hso, if_pos hso]; rfl
    · rw [exitAction_of_stepOff c.m hso, if_neg hso]; rfl
  · rcases ticks_or_not c with ⟨hl, hr⟩ | hno
    · have hnot : ¬ Aborts c := by
        rintro ⟨hign, hcause⟩
        rcases h hr hl with hset | ⟨hc1, hc2, hlevel⟩
        · exact absurd (hign.symm.trans hset) Bool.false_ne_true
        · rcases hcause with ⟨hactive, htick⟩ | hconf
          · rcases hlevel with ⟨hl1, hl2⟩ | hcount
            · simp [limitActive, hl1, hl2] at hactive
            · exact hcount ((motorTickNow_iff hr).mp htick)
          · simp [confirmed, hc1, hc2] at hconf
      rw [motorFree_of_running hl hr, tickProcess_of_not_aborts c.m hnot c.latched]
      exact (motorFree_of_running (c := { undisturbed c.cfg c.m with latched := c.latched }) hl hr).symm
    · rw [motorFree_of_no_tick hno]
      exact (motorFree_of_no_tick (c := { undisturbed c.cfg c.m with latched := c.latched }) hno).symm
  · have hlatched : (motorCtx s Handler.quiet).latched = false := by rw [quiet_latched, hest, hlatch]; rfl
    rw [quietCycle_motor, ← hlatched]
    rfl

end Sys2Proof.Machine

/-! An undisturbed motion (43_motor_sequencer.md R169 to R176, R189, R192, R194): one tick as a function of the motor, the
cycles between two ticks, the four ticks of a step, and the whole request by induction on its count. -/

namespace Sys2Proof.Machine

-- as in the tests: proofs checked one after another stay inside the sandbox's limit on threads
set_option Elab.async false

/-! ## One tick -/

/-- What the tick of an undisturbed motion leaves. -/
def tickOutcome (p : Params) (m : Motor) : Motor := motorDone (tickAction p m { m with tickCnt := 0 })

/-- At its tick an undisturbed motion takes its tick action. -/
theorem motorFree_of_tick (p : Params) {m : Motor} (hr : running m = true) (ht : m.tickCnt = m.tickDiv - 1) :
    motorFree (undisturbed p m) = tickOutcome p m := by
  rw [motorFree_of_running rfl hr,
    tickProcess_of_tick (c := undisturbed p m) _ (not_aborts_undisturbed p m false) ((motorTickNow_iff hr).mpr ht)]
  rfl

/-- Between ticks an undisturbed motion counts. -/
theorem motorFree_of_count (p : Params) {m : Motor} (hr : running m = true) (ht : m.tickCnt ≠ m.tickDiv - 1) :
    motorFree (undisturbed p m) = { m with tickCnt := m.tickCnt + 1, doneValid := false } := by
  have hno : motorTickNow m = false := Bool.eq_false_iff.mpr (ht ∘ (motorTickNow_iff hr).mp)
  rw [motorFree_of_running rfl hr,
    tickProcess_of_count (c := undisturbed p m) _ (not_aborts_undisturbed p m false) hno]
  rfl

/-- SETUP programs the pins (R169). -/
theorem tickOutcome_setup (p : Params) {m : Motor} (hs : m.mState = .setup) : tickOutcome p m =
    { m with tickCnt := 0, dirR := m.reqDir, msR := p.msTable.get m.reqSize, stepR := false, mState := .stepRising,
             doneValid := false } := by
  simp only [tickOutcome, tickAction, hs]; rfl

/-- STEP_RISING with no step left ends the request (R171). -/
theorem tickOutcome_stepRising_zero (p : Params) {m : Motor} (hs : m.mState = .stepRising) (hc : m.reqCount = 0) :
    tickOutcome p m = { m.clear with doneValid := true, doneCode := .ok } := by
  simp only [tickOutcome, tickAction, hs, if_pos hc]; rfl

/-- STEP_RISING with a step left raises the pin and moves POSITION (R170). -/
theorem tickOutcome_stepRising (p : Params) {m : Motor} (hs : m.mState = .stepRising) (hc : m.reqCount ≠ 0) :
    tickOutcome p m =
      { m with tickCnt := 0, stepR := true, position := m.position + stepDelta p m.reqSize m.reqDir,
               mState := .stepHighHold, doneValid := false } := by
  simp only [tickOutcome, tickAction, hs, if_neg hc]; rfl

/-- STEP_HIGH_HOLD moves on (R173). -/
theorem tickOutcome_stepHighHold (p : Params) {m : Motor} (hs : m.mState = .stepHighHold) : tickOutcome p m =
    { m with tickCnt := 0, mState := .stepFalling, doneValid := false } := by
  simp only [tickOutcome, tickAction, hs]; rfl

/-- STEP_FALLING lowers the pin and counts the step (R174). -/
theorem tickOutcome_stepFalling (p : Params) {m : Motor} (hs : m.mState = .stepFalling) : tickOutcome p m =
    { m with tickCnt := 0, stepR := false, reqCount := m.reqCount - 1, mState := .stepLowHold,
             doneValid := false } := by
  simp only [tickOutcome, tickAction, hs]; rfl

/-- STEP_LOW_HOLD repeats (R176). -/
theorem tickOutcome_stepLowHold (p : Params) {m : Motor} (hs : m.mState = .stepLowHold) : tickOutcome p m =
    { m with tickCnt := 0, mState := .stepRising, doneValid := false } := by
  simp only [tickOutcome, tickAction, hs]; rfl

/-- Settles O49: at its tick the motion takes the action of its state. -/
theorem tickActionsWithoutAnEdge : Obligations.TickActionsWithoutAnEdge := by
  intro p m ht
  refine ⟨fun hs => ?_, fun hs => ?_, fun hs => ?_, fun hs => ?_⟩
  all_goals rw [motorFree_of_tick p (running_iff.mpr (by simp [hs])) ht]
  · exact tickOutcome_setup p hs
  · exact tickOutcome_stepHighHold p hs
  · exact tickOutcome_stepFalling p hs
  · exact tickOutcome_stepLowHold p hs

/-- A tick reads neither the count of cycles nor the last cycle's completion pulse. -/
theorem tickOutcome_counted (p : Params) (m : Motor) (cnt : Word) (done : Bool) :
    tickOutcome p { m with tickCnt := cnt, doneValid := done } = tickOutcome p m := by
  cases hs : m.mState with
  | stepRising => simp only [tickOutcome, tickAction, hs]; split <;> rfl
  | _ => simp only [tickOutcome, tickAction, hs]; rfl

/-! ## Runs of a motion -/

/-- In `k` cycles an undisturbed motor goes from `m` to `m'`, running in every cycle before. -/
def RunsTo (p : Params) (k : Nat) (m m' : Motor) : Prop :=
  motorRun p k m = m' ∧ ∀ i, i < k → running (motorRun p i m) = true

/-- A run in two parts. -/
theorem motorRun_add (p : Params) (k l : Nat) (m : Motor) :
    motorRun p (k + l) m = motorRun p l (motorRun p k m) := by
  induction k generalizing m with
  | zero => rw [Nat.zero_add]; rfl
  | succ k ih => rw [Nat.succ_add]; exact ih _

/-- One cycle of a running motor. -/
theorem RunsTo.cycle (p : Params) {m : Motor} (hr : running m = true) :
    RunsTo p 1 m (motorFree (undisturbed p m)) := by
  refine ⟨rfl, fun i hi => ?_⟩
  obtain rfl : i = 0 := by omega
  exact hr

/-- Runs in sequence. -/
theorem RunsTo.trans {p : Params} {k l : Nat} {m m' m'' : Motor} (h : RunsTo p k m m') (h' : RunsTo p l m' m'') :
    RunsTo p (k + l) m m'' := by
  obtain ⟨hend, hrun⟩ := h
  obtain ⟨hend', hrun'⟩ := h'
  refine ⟨by rw [motorRun_add, hend, hend'], fun i hi => ?_⟩
  by_cases hik : i < k
  · exact hrun i hik
  · obtain ⟨j, rfl⟩ := Nat.exists_eq_add_of_le (Nat.not_lt.mp hik)
    rw [motorRun_add, hend]
    exact hrun' j (by omega)

/-- The cycles up to the next tick, with `j` to count before it. -/
theorem runsTo_tick_of_count (p : Params) (j : Nat) {m : Motor} (hr : running m = true)
    (hj : m.tickCnt.toNat + j + 1 = m.tickDiv.toNat) : RunsTo p (j + 1) m (tickOutcome p m) := by
  induction j generalizing m with
  | zero =>
    have ht : m.tickCnt = m.tickDiv - 1 := by bv_omega
    exact motorFree_of_tick p hr ht ▸ RunsTo.cycle p hr
  | succ j ih =>
    have ht : m.tickCnt ≠ m.tickDiv - 1 := by bv_omega
    have hnext : (m.tickCnt + 1).toNat = m.tickCnt.toNat + 1 := by bv_omega
    have hfirst := RunsTo.cycle p hr
    rw [motorFree_of_count p hr ht] at hfirst
    have hrest := ih (m := { m with tickCnt := m.tickCnt + 1, doneValid := false }) hr
      (by simp only [hnext]; omega)
    rw [tickOutcome_counted] at hrest
    rw [Nat.add_comm (j + 1) 1]
    exact hfirst.trans hrest

/-- From a tick to the next are TICK_DIV cycles. -/
theorem runsTo_tick (p : Params) {m : Motor} (hr : running m = true) (h0 : m.tickCnt = 0) (hd : 1 ≤ u32 m.tickDiv) :
    RunsTo p (u32 m.tickDiv) m (tickOutcome p m) := by
  obtain ⟨j, hj⟩ := Nat.exists_eq_add_of_le' hd
  rw [hj]
  exact runsTo_tick_of_count p j hr (by rw [h0]; simpa [u32] using hj.symm)

/-! ## A step and a request -/

/-- The motor a whole step later, at STEP_RISING again. -/
def afterStep (p : Params) (m : Motor) : Motor :=
  { m with mState := .stepRising, tickCnt := 0, stepR := false, doneValid := false, reqCount := m.reqCount - 1,
           position := m.position + stepDelta p m.reqSize m.reqDir }

/-- A step takes four ticks. -/
theorem runsTo_step (p : Params) {m : Motor} (hs : m.mState = .stepRising) (h0 : m.tickCnt = 0)
    (hd : 1 ≤ u32 m.tickDiv) (hc : m.reqCount ≠ 0) : RunsTo p (u32 m.tickDiv * 4) m (afterStep p m) := by
  have hrise := runsTo_tick p (running_iff.mpr (by simp [hs])) h0 hd
  rw [tickOutcome_stepRising p hs hc] at hrise
  have hhold := hrise.trans (runsTo_tick p rfl rfl hd)
  rw [tickOutcome_stepHighHold p rfl] at hhold
  have hfall := hhold.trans (runsTo_tick p rfl rfl hd)
  rw [tickOutcome_stepFalling p rfl] at hfall
  have hlow := hfall.trans (runsTo_tick p rfl rfl hd)
  rw [tickOutcome_stepLowHold p rfl] at hlow
  have hcycles : u32 m.tickDiv * 4 = u32 m.tickDiv + u32 m.tickDiv + u32 m.tickDiv + u32 m.tickDiv := by omega
  rw [hcycles]
  exact hlow

/-- The motor after a request of `n` steps is done: cleared, with DONE_OK, POSITION moved. -/
def afterRequest (p : Params) (n : Nat) (m : Motor) : Motor :=
  { m.clear with doneValid := true, doneCode := .ok,
                 position := m.position + BitVec.ofNat 32 n * stepDelta p m.reqSize m.reqDir }

/-- From the first STEP_RISING a request of `n` steps takes `4n + 1` ticks. -/
theorem runsTo_request (p : Params) (n : Nat) {m : Motor} (hs : m.mState = .stepRising) (h0 : m.tickCnt = 0)
    (hd : 1 ≤ u32 m.tickDiv) (hn : u32 m.reqCount = n) :
    RunsTo p (u32 m.tickDiv * (4 * n + 1)) m (afterRequest p n m) := by
  induction n generalizing m with
  | zero =>
    have hc : m.reqCount = 0 := BitVec.eq_of_toNat_eq hn
    have hend := runsTo_tick p (running_iff.mpr (by simp [hs])) h0 hd
    rw [tickOutcome_stepRising_zero p hs hc] at hend
    simpa [afterRequest] using hend
  | succ n ih =>
    have hc : m.reqCount ≠ 0 := fun e => by simp [u32, e] at hn
    have hleft : u32 (m.reqCount - 1) = n := by unfold u32 at hn ⊢; bv_omega
    have hrest := ih (m := afterStep p m) rfl rfl hd hleft
    have hmoved : afterRequest p n (afterStep p m) = afterRequest p (n + 1) m := by
      have hpos (d : Word) : m.position + d + BitVec.ofNat 32 n * d = m.position + BitVec.ofNat 32 (n + 1) * d := by
        rw [BitVec.ofNat_add, BitVec.add_mul, BitVec.one_mul, BitVec.add_assoc, BitVec.add_comm d]
      simp only [afterRequest, afterStep, hpos]; rfl
    rw [hmoved] at hrest
    have hcycles : u32 m.tickDiv * (4 * (n + 1) + 1) = u32 m.tickDiv * 4 + u32 m.tickDiv * (4 * n + 1) := by ring
    rw [hcycles]
    exact (runsTo_step p hs h0 hd hc).trans hrest

/-- Moving by `n` signed step distances is exact up to the one wrap (R192). -/
theorem add_mul_stepDelta (p : Params) (size : StepSize) (dir : Bool) (x : Word) (n : Nat) :
    x + BitVec.ofNat 32 n * stepDelta p size dir =
      wrap32 (s32 x + (if dir then -1 else 1) * (n * p.stepDist.get size : Nat)) := by
  have hdist : BitVec.ofInt 32 (n * p.stepDist.get size : Nat) =
      BitVec.ofNat 32 n * BitVec.ofNat 32 (stepDist p size) := by
    rw [BitVec.ofInt_natCast, BitVec.ofNat_mul]; rfl
  unfold wrap32 s32
  rw [BitVec.ofInt_add, BitVec.ofInt_toInt]
  cases dir
  · rw [if_neg Bool.false_ne_true, Int.one_mul, hdist]; rfl
  · rw [if_pos rfl, Int.neg_one_mul, BitVec.ofInt_neg, hdist, ← BitVec.mul_neg]; rfl

/-- Settles O50: SETUP's tick, then the request's `4n + 1`. -/
theorem motionRunsItsStepsAndEnds : Obligations.MotionRunsItsStepsAndEnds := by
  intro p m hs h0 hd
  have hsetup := runsTo_tick p (running_iff.mpr (by simp [hs])) h0 hd
  rw [tickOutcome_setup p hs] at hsetup
  have hall := hsetup.trans (runsTo_request p (u32 m.reqCount) rfl rfl hd rfl)
  have hcycles : u32 m.tickDiv * (4 * u32 m.reqCount + 2) =
      u32 m.tickDiv + u32 m.tickDiv * (4 * u32 m.reqCount + 1) := by ring
  rw [hcycles, ← add_mul_stepDelta]
  exact hall

end Sys2Proof.Machine

/-! The switch monitor (44_switch_monitor.md): the e-stop latch under every command and along a run (R217, R218, R228),
the three switch commands (R220 to R222), and the distance of two confirmations of one debounce timer (R225). -/

namespace Sys2Proof.Machine

-- as in the tests: proofs checked one after another stay inside the sandbox's limit on threads
set_option Elab.async false

/-! ## The switch sampler's registers after a cycle with `rst` low -/

/-- The parts of sub-step 4 that set and clear the latch are those of EMERGENCY_STOP and EMERGENCY_CLEAR. -/
theorem handlerOf_set_clear (d : Option Command) :
    ((handlerOf d).set = true ↔ d = some (.known .emergencyStop)) ∧
    ((handlerOf d).clear = true ↔ d = some (.known .emergencyClear)) := by
  rcases d with _ | (i | op)
  case some.known => cases i <;> simp [handlerOf, instrHandler, Handler.quiet]
  all_goals simp [handlerOf, Handler.quiet]

/-- Whatever the command, the two synchroniser stages move on and the latch is the cycle's (R215, R217). -/
theorem runningNext_samples (s : State) :
    (runningNext s).sw.sync1 = pinLevels s.cfg s.input ∧ (runningNext s).sw.sync2 = s.sw.sync1 ∧
    (runningNext s).sw.estopLatched = latchNext s.sw.sync2.est (handlerOf (dispatched s)).set
      (handlerOf (dispatched s)).clear s.sw.estopLatched := by
  obtain ⟨ms, hsw⟩ := handlerOf_switches (dispatched s)
    (switchesNext s (handlerOf (dispatched s)).set (handlerOf (dispatched s)).clear)
  rw [runningNext_sw, hsw]
  exact ⟨rfl, rfl, rfl⟩

/-- A cycle with `rst` low uses up one input. -/
theorem runningNext_inputs (s : State) : (runningNext s).inputs = s.inputs.tail := by
  unfold runningNext
  cases dispatched s <;> rfl

/-- The current input is the first listed one (log 1). -/
theorem State.input_of_cons {s : State} {i : Input} {rest : List Input} (hin : s.inputs = i :: rest) : s.input = i := by
  unfold State.input
  rw [hin]

/-- The latch after a cycle with `rst` low, by the level and the command (R217). -/
theorem runningNext_latched_iff (s : State) : (runningNext s).sw.estopLatched = true ↔
    s.sw.sync2.est = true ∨ dispatched s = some (.known .emergencyStop) ∨
      (s.sw.estopLatched = true ∧ dispatched s ≠ some (.known .emergencyClear)) := by
  obtain ⟨hset, hclear⟩ := handlerOf_set_clear (dispatched s)
  obtain ⟨_, _, hlatch⟩ := runningNext_samples s
  rw [hlatch, latchNext_eq_true, hset, ← Bool.not_eq_true, hclear]

/-- A dispatched command leaves the reply with its handler's result. -/
theorem runningNext_replies {s : State} {c : Command} (hi : Inv s) (hd : dispatched s = some c) :
    Replies s (runningNext s) (commandOpcode c) ((handlerOf (some c)).res (motorCtx s (handlerOf (some c)))) := by
  obtain ⟨_, _, _, hreply⟩ := State.consistent_iff.mp hi.2
  unfold runningNext
  rw [hd]
  exact dispatchCycle_replies _ _ hreply

/-! ## The latch and the motor along a run -/

/-- While the latch is set the motor is held in ESTOP with the driver off (R45, R190). -/
theorem held_of_latched {s : State} (hi : Inv s) (hl : s.sw.estopLatched = true) :
    s.motor.mState = .estop ∧ driverOff s := by
  obtain ⟨⟨_, hlatch⟩, _⟩ := State.consistent_iff.mp hi.2
  have he := hlatch.mpr hl
  have hrest : running s.motor = false := not_running_iff.mpr (.inr (.inl he))
  exact ⟨he, hrest, hrest⟩

/-- Settles O25: the latch by the level and the command, the reply of a clear whose latch stays, and the invariant of the
next state. -/
theorem latchFollowsLevelAndCommands : Obligations.LatchFollowsLevelAndCommands := by
  intro s t hi hr hs
  obtain ⟨⟨_, hlatch⟩, _⟩ := State.consistent_iff.mp (step_inv hi hs).2
  obtain rfl := eq_runningNext_of_step hi hr hs
  refine ⟨runningNext_latched_iff s, fun hd hest => ?_, hlatch⟩
  have hlatched : (motorCtx s (instrHandler .emergencyClear)).latched = true :=
    (latchNext_eq_true _ _ _ _).mpr (.inl hest)
  have hres : (instrHandler .emergencyClear).res (motorCtx s (instrHandler .emergencyClear)) = 3 := if_pos hlatched
  exact hres ▸ runningNext_replies hi hd

/-- Settles O24, by induction on the number of cycles: each keeps the latch, and the latch holds the motor. -/
theorem estopHoldsUntilCleared : Obligations.EstopHoldsUntilCleared := by
  intro k
  induction k with
  | zero =>
    intro s t hi hl hrun _
    obtain rfl := Option.some.inj hrun
    exact ⟨hl, held_of_latched hi hl⟩
  | succ k ih =>
    intro s t hi hl hrun hquiet
    obtain ⟨hr, hblocked⟩ := hquiet 0 s k.succ_pos rfl
    obtain ⟨u, hs⟩ := step_next hi
    obtain ⟨hlatch, _⟩ := latchFollowsLevelAndCommands s u hi hr hs
    have hkept : u.sw.estopLatched = true := by
      by_cases hd : dispatched s = some (.known .emergencyClear)
      · exact hlatch.mpr (.inl (hblocked hd))
      · exact hlatch.mpr (.inr (.inr ⟨hl, hd⟩))
    rw [runFor_succ_of_step hs] at hrun
    exact ih u t (step_inv hi hs) hkept hrun fun j v hj hv =>
      hquiet (j + 1) v (Nat.succ_lt_succ hj) ((runFor_succ_of_step hs j).trans hv)

/-- An active synchronised level latches and stops the motor in the cycle it is seen. -/
theorem held_of_level {s t : State} (hi : Inv s) (hr : s.input.rst = false) (hest : s.sw.sync2.est = true)
    (hs : step s = .next t) : t.sw.estopLatched = true ∧ t.motor.mState = .estop ∧ (out t).drvEn = false := by
  obtain ⟨hlatch, _⟩ := latchFollowsLevelAndCommands s t hi hr hs
  have hl := hlatch.mpr (.inl hest)
  obtain ⟨he, _, hoff⟩ := held_of_latched (step_inv hi hs) hl
  exact ⟨hl, he, hoff⟩

/-- A cycle with `rst` low whose input is listed: the registers that carry the e-stop level on. -/
theorem step_of_input {s : State} {i : Input} {rest : List Input} (hi : Inv s) (hin : s.inputs = i :: rest)
    (hr : i.rst = false) : ∃ t, step s = .next t ∧ Inv t ∧ t.inputs = rest ∧
      t.sw.sync1 = pinLevels s.cfg i ∧ t.sw.sync2 = s.sw.sync1 := by
  have hinput := State.input_of_cons hin
  have hs := step_eq_runningNext hi (hinput ▸ hr)
  have hinputs := runningNext_inputs s
  rw [hin] at hinputs
  obtain ⟨hsync1, hsync2, _⟩ := runningNext_samples s
  exact ⟨_, hs, step_inv hi hs, hinputs, hinput ▸ hsync1, hsync2⟩

/-- Settles O26: the level reaches the second synchroniser stage in two cycles, and the third one latches it. -/
theorem estopPulseLatchesInThreeCycles : Obligations.EstopPulseLatchesInThreeCycles := by
  refine ⟨fun s t hi hr hest hs => held_of_level hi hr hest hs, ?_⟩
  intro s i0 i1 i2 rest hi hin hr0 hr1 hr2 hpin
  obtain ⟨s1, hs0, hi1, hin1, hsync1, _⟩ := step_of_input hi hin hr0
  obtain ⟨s2, hs1, hi2, hin2, _, hsync2⟩ := step_of_input hi1 hin1 hr1
  obtain ⟨s3, hs2, _⟩ := step_of_input hi2 hin2 hr2
  have hest : s2.sw.sync2.est = true := by rw [hsync2, hsync1]; exact hpin
  refine ⟨s3, ?_, held_of_level hi2 ((State.input_of_cons hin2).symm ▸ hr2) hest hs2⟩
  rw [runFor_succ_of_step hs0, runFor_succ_of_step hs1, runFor_succ_of_step hs2, runFor]

/-! ## The switch commands -/

/-- A command whose parts are in the switch sampler alone answers a state with its reply; its motor takes the sub-step
without a command under the latch it leaves, and the other sub-blocks are as in the cycle without it. -/
theorem switchCommand_next {s : State} {i : Instr} {op : Half} {set clear : Bool} {f : Switches → Switches}
    {r : MotorCtx → Word} (hc : s.consistent = true) (he : exec i s = .next (dispatchCycle s op
      { Handler.quiet with set := set, clear := clear, switches := f, res := r })) :
    let latch := latchNext s.sw.sync2.est set clear s.sw.estopLatched
    ∃ t, exec i s = .next t ∧ Replies s t op (r { motorCtx s Handler.quiet with latched := latch }) ∧
      t.sw = f { (quietCycle s 12).sw with estopLatched := latch } ∧
      t.motor = motorFree { motorCtx s Handler.quiet with latched := latch } ∧ LedAsQuiet s t ∧ RestAsQuiet s t := by
  obtain ⟨_, _, _, hreply⟩ := State.consistent_iff.mp hc
  exact ⟨_, he, dispatchCycle_replies op _ hreply, rfl, rfl, rfl, dispatchCycle_rest s op _⟩

/-- The cycle without a command, by the latch it leaves: the level, or the latch kept (R217). -/
theorem quietCycle_motor_sw (s : State) (removed : Nat) {latch : Bool}
    (hlatch : (s.sw.sync2.est || s.sw.estopLatched) = latch) :
    motorFree { motorCtx s Handler.quiet with latched := latch } = (quietCycle s removed).motor ∧
    { (quietCycle s removed).sw with estopLatched := latch } = (quietCycle s removed).sw := by
  rw [← hlatch, ← quiet_latched]
  exact ⟨rfl, rfl⟩

/-- The motor in ESTOP under a set latch: nothing but the end of the completion pulse (R168 branch A). -/
theorem motorFree_held {c : MotorCtx} (hl : c.latched = true) (he : c.m.mState = .estop) :
    motorFree c = { c.m with doneValid := false } := by
  have hentry : motorEntry c = (c.m, none) := by
    unfold motorEntry; rw [motorBranch_of_latched hl]; exact if_pos he
  rw [motorFree_of_no_tick (.inl hl), hentry]
  rfl

/-- The motor out of ESTOP under a set latch takes the e-stop (R175). -/
theorem motorFree_takes {c : MotorCtx} (hl : c.latched = true) (he : c.m.mState ≠ .estop) :
    motorFree c = motorDone (takeEstop c.m) := by
  have hentry : motorEntry c = takeEstop c.m := by
    unfold motorEntry; rw [motorBranch_of_latched hl]; exact if_neg he
  rw [motorFree_of_no_tick (.inl hl), hentry]

/-- The motor in ESTOP in the cycle the latch clears goes to IDLE with no event (R168 branch B, R271). -/
theorem motorFree_leaves {c : MotorCtx} (hl : c.latched = false) (he : c.m.mState = .estop) :
    motorFree c = { c.m with mState := .idle, doneValid := false } := by
  have hbranch : motorBranch c = .leaving := by rw [motorBranch_eq, hl, he]; rfl
  have hrest : running c.m = false := not_running_iff.mpr (.inr (.inl he))
  have hentry : motorEntry c = returnFromEstop c.m := by unfold motorEntry; rw [hbranch]
  rw [motorFree_of_no_tick (.inr hrest), hentry]
  rfl

/-- The motor record that taking the e-stop leaves, event included (R175). -/
theorem motorDone_takeEstop (m : Motor) : motorDone (takeEstop m) =
    { m with mState := .estop, reqSize := .full, reqCount := 0, reqDir := false, reqIgn := false, stepR := false,
             tickCnt := 0, doneValid := running m, doneCode := if running m then .estop else m.doneCode } := by
  unfold motorDone takeEstop
  cases running m <;> rfl

/-- Settles O43: the command writes DEBOUNCE_MS over what the cycle without it leaves. -/
theorem switchDebounceSetsThePeriod : Obligations.SwitchDebounceSetsThePeriod := by
  intro s ms hc
  obtain ⟨t, he, hrep, hsw, hmotor, hled, hrest⟩ := switchCommand_next hc (exec_switchDebounce ms s)
  exact ⟨t, he, hrep, hsw, hmotor, hled, hrest⟩

/-- Settles O44: the latch sets, and the motor takes the e-stop or is held in it already. -/
theorem emergencyStopLatches : Obligations.EmergencyStopLatches := by
  intro s hc
  obtain ⟨t, he, hrep, hsw, hmotor, hled, hrest⟩ := switchCommand_next hc (exec_emergencyStop s)
  obtain ⟨⟨_, hlatch⟩, _⟩ := State.consistent_iff.mp hc
  have hset : latchNext s.sw.sync2.est true Handler.quiet.clear s.sw.estopLatched = true :=
    (latchNext_eq_true _ _ _ _).mpr (.inr (.inl rfl))
  rw [hset] at hsw hmotor
  refine ⟨t, he, hrep, hsw, fun hfree => ?_, fun hl => ?_, hled, hrest⟩
  · have hne : s.motor.mState ≠ .estop := fun e => by simp [hlatch.mp e] at hfree
    rw [hmotor, motorFree_takes rfl hne]
    exact motorDone_takeEstop s.motor
  · rw [hmotor, motorFree_held rfl (hlatch.mpr hl)]
    rfl

/-- Settles O45: the latch that a clear leaves is the level itself. -/
theorem emergencyClearReturnsFromEstop : Obligations.EmergencyClearReturnsFromEstop := by
  intro s hc
  obtain ⟨t, he, hrep, hsw, hmotor, hled, hrest⟩ := switchCommand_next hc (exec_emergencyClear s)
  obtain ⟨⟨_, hlatch⟩, _⟩ := State.consistent_iff.mp hc
  have hlevel : latchNext s.sw.sync2.est Handler.quiet.set true s.sw.estopLatched = s.sw.sync2.est := by
    simp [latchNext, Handler.quiet]
  rw [hlevel] at hrep hsw hmotor
  refine ⟨t, he, hled, hrest, fun hest => ?_, fun hest => ?_⟩
  all_goals rw [hest] at hrep hsw hmotor
  · obtain ⟨hqmotor, hqsw⟩ := quietCycle_motor_sw s 12 (latch := true) (by rw [hest, Bool.true_or])
    exact ⟨hrep, congrArg Switches.estopLatched hsw, hsw.trans hqsw, hmotor.trans hqmotor⟩
  · refine ⟨hrep, hsw, fun hl => ?_, fun hl => ?_⟩
    · exact hmotor.trans (motorFree_leaves rfl (hlatch.mpr hl))
    · obtain ⟨hqmotor, _⟩ := quietCycle_motor_sw s 12 (latch := false) (by rw [hest, hl, Bool.or_self])
      exact hmotor.trans hqmotor

/-! ## The distance of two confirmations (R225) -/

/-- The fewest cycles before the cycle in which a timer can fire: its count while armed, an arming cycle and the whole
period otherwise. -/
def Debounce.wait (period : DWord) (d : Debounce) : Nat := if d.armed then d.cnt.toNat else period.toNat + 1

/-- A run's confirmations: the first cycle's, then those of the run from the timer it leaves. -/
theorem debounceRun_cons (period : DWord) (d : Debounce) (lvl : Bool) (lvls : List Bool) :
    (debounceRun period d (lvl :: lvls)).2 =
      (debounceStep lvl period d).2 :: (debounceRun period (debounceStep lvl period d).1 lvls).2 := rfl

/-- A cycle shortens the wait by at most one, but for a firing cycle, which leaves at least the period. -/
theorem debounceStep_wait (lvl : Bool) (period : DWord) (d : Debounce) :
    Debounce.wait period d ≤ Debounce.wait period (debounceStep lvl period d).1 + 1 ∧
    ((debounceStep lvl period d).2 = true →
      Debounce.wait period d = 0 ∧ period.toNat ≤ Debounce.wait period (debounceStep lvl period d).1) := by
  rcases debounceStep_cases lvl period d with
    ⟨ha, _, e⟩ | ⟨ha, _, e⟩ | ⟨ha, hc, e⟩ | ⟨ha, hc, _, e⟩ | ⟨ha, hc, _, e⟩ <;> rw [e]
  · simp [Debounce.wait, ha]
  · simp [Debounce.wait, ha]
  · have hcount : d.cnt.toNat ≤ (d.cnt - 1).toNat + 1 := by bv_omega
    simpa [Debounce.wait, ha] using hcount
  · simp [Debounce.wait, ha, hc]
  · simp [Debounce.wait, ha, hc]

/-- A timer confirms no sooner than its wait says. -/
theorem wait_le_of_confirms {period : DWord} {d : Debounce} {lvls : List Bool} {j : Nat}
    (h : (debounceRun period d lvls).2[j]? = some true) : Debounce.wait period d ≤ j := by
  induction lvls generalizing d j with
  | nil => cases h
  | cons lvl lvls ih =>
    obtain ⟨hstep, hfire⟩ := debounceStep_wait lvl period d
    rw [debounceRun_cons] at h
    cases j with
    | zero => exact (hfire (Option.some.inj h)).1.le
    | succ j => exact hstep.trans (Nat.succ_le_succ (ih h))

/-- Settles O53, by induction on the levels: after the first confirmation the timer waits at least its period. -/
theorem confirmationsAreAPeriodApart : Obligations.ConfirmationsAreAPeriodApart := by
  intro period d lvls
  induction lvls generalizing d with
  | nil => intro i j _ hi; cases hi
  | cons lvl lvls ih =>
    intro i j hij hi hj
    obtain ⟨j, rfl⟩ := Nat.exists_eq_succ_of_ne_zero (Nat.ne_zero_of_lt hij)
    rw [debounceRun_cons] at hi hj
    have hrest : (debounceRun period (debounceStep lvl period d).1 lvls).2[j]? = some true := hj
    cases i with
    | zero =>
      obtain ⟨_, hfire⟩ := debounceStep_wait lvl period d
      obtain ⟨_, hperiod⟩ := hfire (Option.some.inj hi)
      exact Nat.succ_le_succ (hperiod.trans (wait_le_of_confirms hrest))
    | succ i =>
      have := ih _ i j (Nat.lt_of_succ_lt_succ hij) hi hrest
      omega

end Sys2Proof.Machine

/-! The LED controller (45_led_pid.md R237 to R248): the LED side of the block runs on its own whatever the motor and the
switches do, the three LED commands, the sub-step without a command, `clamp01`, and the PWM output. -/

namespace Sys2Proof.Machine

-- as in the tests: proofs checked one after another stay inside the sandbox's limit on threads
set_option Elab.async false

/-! ## The LED side on its own (R248) -/

/-- The transmitter's two state registers come from themselves and the input alone, whatever the reply's bytes are. -/
theorem txStep_valid_txIdx_eq {r r' : Reply} (i : Input) (hvalid : r.valid = r'.valid) (hidx : r.txIdx = r'.txIdx) :
    (txStep i r).valid = (txStep i r').valid ∧ (txStep i r).txIdx = (txStep i r').txIdx := by
  unfold txStep
  rw [← hvalid, ← hidx]
  split
  · split <;> exact ⟨rfl, rfl⟩
  · exact ⟨hvalid, hidx⟩

/-- The inputs of the cycle are the same. -/
theorem SameLedSide.input_eq {s s' : State} (h : SameLedSide s s') : s.input = s'.input := by
  obtain ⟨_, _, _, _, _, hin, hcyc⟩ := h
  unfold State.input
  rw [hin, hcyc]

/-- The parser reads the frame path alone, so it accepts the same command (R136). -/
theorem SameLedSide.parserStep_eq {s s' : State} (h : SameLedSide s s') : parserStep s = parserStep s' := by
  obtain ⟨hcfg, _, hrb, hvalid, _⟩ := h
  unfold parserStep
  rw [hcfg, hrb, hvalid]

/-- `led_pwm` is a function of the LED registers (R246). -/
theorem SameLedSide.ledPwm_eq {s s' : State} (h : SameLedSide s s') : (out s).ledPwm = (out s').ledPwm := by
  obtain ⟨hcfg, hled, _⟩ := h
  unfold out
  rw [hcfg, hled]

/-- The sub-steps before the reply formatter, of whatever command, keep the LED sides alike. -/
theorem SameLedSide.cycleStep {s s' : State} (h : SameLedSide s s') (removed : Nat) (hd : Handler) :
    SameLedSide (cycleStep s removed hd) (cycleStep s' removed hd) := by
  have hinput := h.input_eq
  obtain ⟨hcfg, hled, hrb, hvalid, hidx, hin, hcyc⟩ := h
  obtain ⟨hvalid', hidx'⟩ := txStep_valid_txIdx_eq s.input hvalid hidx
  refine ⟨hcfg, ?_, ?_, ?_, ?_, ?_, ?_⟩
  · rw [cycleStep_led, cycleStep_led, hcfg, hinput, hled]
  · rw [cycleStep_rb, cycleStep_rb, hcfg, hinput, hrb]
  · rw [cycleStep_reply, cycleStep_reply, ← hinput, hvalid']
  · rw [cycleStep_reply, cycleStep_reply, ← hinput, hidx']
  · rw [cycleStep_inputs, cycleStep_inputs, hin]
  · rw [cycleStep_cycle, cycleStep_cycle, hcyc]

/-- A dispatch cycle keeps the LED sides alike; the replies it writes may differ in the result and the status byte. -/
theorem SameLedSide.dispatchCycle {s s' : State} (h : SameLedSide s s') (op : Half) (hd : Handler) :
    SameLedSide (dispatchCycle s op hd) (dispatchCycle s' op hd) := by
  obtain ⟨hcfg, hled, hrb, _, _, hin, hcyc⟩ := h.cycleStep 12 hd
  refine ⟨hcfg, hled, hrb, ?_, ?_, hin, hcyc⟩
  · rw [dispatchCycle_valid, dispatchCycle_valid]
  · rw [dispatchCycle_txIdx, dispatchCycle_txIdx]

/-- A reset cycle keeps the LED sides alike. -/
theorem SameLedSide.resetCycle {s s' : State} (h : SameLedSide s s') :
    SameLedSide (resetCycle s) (resetCycle s') := by
  obtain ⟨hcfg, _, _, _, _, hin, hcyc⟩ := h
  unfold Machine.resetCycle
  rw [hcfg, hin, hcyc]
  exact ⟨rfl, rfl, rfl, rfl, rfl, rfl, rfl⟩

/-- A step keeps the LED sides alike. -/
theorem SameLedSide.step {s s' t : State} (hi : Inv s) (hi' : Inv s') (h : SameLedSide s s')
    (hs : step s = .next t) : ∃ t', Machine.step s' = .next t' ∧ SameLedSide t t' := by
  have hinput := h.input_eq
  cases hr : s.input.rst
  · refine ⟨_, step_eq_runningNext hi' (hinput ▸ hr), ?_⟩
    rw [eq_runningNext_of_step hi hr hs]
    unfold runningNext dispatched
    rw [← h.parserStep_eq]
    split
    · exact h.cycleStep _ _
    · exact h.dispatchCycle _ _
  · obtain rfl := Host.Outcome.next.inj (hs.symm.trans (step_of_rst hi.1 hr))
    exact ⟨_, step_of_rst hi'.1 (hinput ▸ hr), h.resetCycle⟩

/-- A relation that every step keeps between states of the invariant is kept by a run of any length. -/
theorem runFor_keeps_related {R : State → State → Prop}
    (hstep : ∀ s s' t, Inv s → Inv s' → R s s' → step s = .next t → ∃ t', step s' = .next t' ∧ R t t') (k : Nat)
    {s s' t : State} (hi : Inv s) (hi' : Inv s') (h : R s s') (hrun : runFor k s = some t) :
    ∃ t', runFor k s' = some t' ∧ R t t' := by
  induction k generalizing s s' with
  | zero =>
    obtain rfl := Option.some.inj hrun
    exact ⟨s', rfl, h⟩
  | succ k ih =>
    obtain ⟨u, hu⟩ := step_next hi
    obtain ⟨u', hu', halike⟩ := hstep s s' u hi hi' h hu
    rw [runFor_succ_of_step hu] at hrun
    rw [runFor_succ_of_step hu']
    exact ih (step_inv hi hu) (step_inv hi' hu') halike hrun

/-- Settles O31: a run keeps the LED sides alike, and `led_pwm` is a function of them. -/
theorem ledIsIndependentOfMotorAndSwitches : Obligations.LedIsIndependentOfMotorAndSwitches := by
  intro k s s' t hi hi' h hrun
  obtain ⟨t', hrun', hsame⟩ := runFor_keeps_related (fun _ _ _ hi hi' h => h.step hi hi') k hi hi' h hrun
  exact ⟨t', hrun', hsame, hsame.ledPwm_eq⟩

/-! ## The LED commands (R240 to R242) -/

/-- A command whose only part is in the LED sub-step answers a state with its reply; its writes come over what the cycle
without it leaves in the LED registers, and the other sub-blocks are as in that cycle (R247). -/
theorem ledCommand_next {s : State} {i : Instr} {op : Half} {f : Led → Led} {r : Word} (hc : s.consistent = true)
    (he : exec i s = .next (dispatchCycle s op { Handler.quiet with led := f, res := fun _ => r })) :
    ∃ t, exec i s = .next t ∧ Replies s t op r ∧ t.led = f (quietCycle s 12).led ∧
      MotorAsQuiet s t ∧ SwitchesAsQuiet s t ∧ RestAsQuiet s t := by
  obtain ⟨_, _, _, hreply⟩ := State.consistent_iff.mp hc
  exact ⟨_, he, dispatchCycle_replies op _ hreply, rfl, rfl, rfl, dispatchCycle_rest s op _⟩

/-- The window keeps its length in the cycle without a command (R38). -/
theorem length_win_quietCycle {s : State} (hc : s.consistent = true) (removed : Nat) :
    (quietCycle s removed).led.win.length = s.cfg.pidWindow := by
  obtain ⟨_, hled, _⟩ := State.consistent_iff.mp hc
  obtain ⟨_, hidx, _, hpwm⟩ := Led.consistent_iff.mp hled
  obtain ⟨hlen, _⟩ := Led.consistent_iff.mp
    (ledFree_consistent s.input (Nat.one_le_of_lt hidx) (Nat.one_le_of_lt hpwm) hled)
  exact hlen

/-- Settles O46: LED_PWM's writes over the LED registers of the cycle without it. -/
theorem ledPwmSetsTheDuty : Obligations.LedPwmSetsTheDuty := by
  intro s duty hc
  exact ledCommand_next hc (exec_ledPwm duty s)

/-- Settles O47: the cleared window has as many entries as before, which are `PID_WINDOW`. -/
theorem ledVoltageRestartsTheLoop : Obligations.LedVoltageRestartsTheLoop := by
  intro s volts hc
  obtain ⟨t, he, hrep, hled, hrest⟩ := ledCommand_next hc (exec_ledVoltage volts s)
  refine ⟨t, he, hrep, ?_, hrest⟩
  rw [hled, ledVoltageWrite, List.map_const', length_win_quietCycle hc]
  rfl

/-- Settles O48: the selector decides the gain written and the result. -/
theorem ledPidSetsOneGain : Obligations.LedPidSetsOneGain := by
  intro s value sel hc
  obtain ⟨t, he, hrep, hled, hmotor, hsw, hrest⟩ := ledCommand_next hc (exec_ledPid value sel s)
  refine ⟨t, he, hmotor, hsw, hrest, ?_, ?_, ?_, ?_⟩
  all_goals
    rintro rfl
    exact ⟨hrep, hled⟩

/-! ## `clamp01` (R237) -/

/-- A NaN is clamped to +0.0. -/
theorem clamp01_of_isNaN {x : Word} (h : F32.isNaN x = true) : clamp01 x = F32.posZero := if_pos h

/-- A value below +0.0 is clamped to +0.0. -/
theorem clamp01_of_lt_zero {x : Word} (h : F32.lt x F32.posZero = true) : clamp01 x = F32.posZero :=
  ite_eq_left_iff.mpr fun _ => if_pos h

/-- A value above 1.0 is no NaN and not below +0.0. -/
theorem F32.not_lt_zero_of_gt_one {x : Word} (h : F32.gt x F32.one = true) :
    ¬ F32.isNaN x = true ∧ ¬ F32.lt x F32.posZero = true := by
  obtain ⟨_, hmag, hkey⟩ := (F32.lt_iff F32.one x).mp h
  rw [F32.isNaN_iff, F32.lt_iff]
  refine ⟨Nat.not_lt.mpr hmag, fun ⟨_, _, hneg⟩ => ?_⟩
  have hone : F32.key F32.one < F32.key F32.posZero := hkey.trans hneg
  exact absurd hone (by decide)

/-- A value above 1.0 is clamped to 1.0. -/
theorem clamp01_of_gt_one {x : Word} (h : F32.gt x F32.one = true) : clamp01 x = F32.one := by
  obtain ⟨hnan, hlow⟩ := F32.not_lt_zero_of_gt_one h
  exact (if_neg hnan).trans ((if_neg hlow).trans (if_pos h))

/-- Settles O54, clause by clause in the order of the clamp's tests. -/
theorem clampMapsIntoZeroToOne : Obligations.ClampMapsIntoZeroToOne := by
  intro x
  refine ⟨clamp01_of_isNaN, clamp01_of_lt_zero, clamp01_of_gt_one, ?_, clamp01_of_le, ?_⟩
  · rintro rfl
    rfl
  · exact (dutyInRange_iff _).mp (dutyInRange_clamp01 x)

/-! ## The PWM output (R246) -/

/-- Of the first `n` numbers, those below `m` are `m`, or all. -/
theorem countP_range_lt (m n : Nat) : (List.range n).countP (fun k => decide (k < m)) = min m n := by
  induction n with
  | zero => simp
  | succ n ih =>
    rw [List.range_succ, List.countP_append, ih, List.countP_singleton]
    by_cases h : n < m
    · rw [decide_eq_true h, if_pos rfl]
      omega
    · rw [decide_eq_false h, if_neg Bool.false_ne_true]
      omega

/-- 1.0 is 2^149 units. -/
theorem F32.units_one : F32.units F32.one = 2 ^ 149 := by
  have hmag : F32.mag F32.one = 126 * 2 ^ 23 + 2 ^ 23 := rfl
  rw [F32.units_eq, hmag, F32.magUnits_scale (.inr le_rfl) (by omega), ← Nat.pow_add]

/-- A duty in range is at most 1.0, and its magnitude is its whole pattern (R36). -/
theorem F32.units_of_dutyInRange {duty : Word} (h : dutyInRange duty = true) :
    F32.units duty = F32.magUnits duty.toNat ∧ F32.units duty ≤ 2 ^ 149 := by
  have hle := (dutyInRange_iff duty).mp h
  have hmag : F32.mag duty = duty.toNat := Nat.mod_eq_of_lt (by omega)
  rw [← F32.units_one, F32.units_eq, F32.units_eq, hmag]
  exact ⟨rfl, F32.magUnits_strictMono.monotone hle⟩

/-- A duty of at most 1.0 is high for at most the whole period. -/
theorem dutyFloor_le {duty : Word} (h : F32.units duty ≤ 2 ^ 149) (period : Nat) : dutyFloor duty period ≤ period :=
  Nat.div_le_of_le_mul (Nat.mul_le_mul_right period h)

/-- Duty 1.0 is high for the whole period. -/
theorem dutyFloor_one (period : Nat) : dutyFloor F32.one period = period := by
  rw [dutyFloor, F32.units_one, Nat.mul_div_cancel_left _ (Nat.two_pow_pos 149)]

/-- With the stage on, the output is high while the counter is below the duty's floor. -/
theorem ledPwmOut_of_on (p : Params) {l : Led} (h : l.on = true) (k : Nat) :
    ledPwmOut p { l with pwmCnt := k } = decide (k < dutyFloor l.duty p.pwmPeriod) := by
  simp [ledPwmOut, h]

/-- With the stage on, the counter values at which the output is high are as many as the duty's floor. -/
theorem countP_ledPwmOut {p : Params} {l : Led} (hon : l.on = true) (hduty : dutyInRange l.duty = true) :
    (List.range p.pwmPeriod).countP (fun k => ledPwmOut p { l with pwmCnt := k }) = dutyFloor l.duty p.pwmPeriod := by
  obtain ⟨_, hle⟩ := F32.units_of_dutyInRange hduty
  simp only [ledPwmOut_of_on p hon]
  rw [countP_range_lt, Nat.min_eq_left (dutyFloor_le hle _)]

/-- Settles O59: the count is the floor, and the floor of the quotient by 2^149 lies between the two products. -/
theorem pwmIsHighForTheDuty : Obligations.PwmIsHighForTheDuty := by
  refine ⟨fun p l hoff => ?_, fun p l _ hc hon => ?_⟩
  · rw [ledPwmOut, hoff, Bool.false_and]
  obtain ⟨_, _, hduty, _⟩ := Led.consistent_iff.mp hc
  obtain ⟨hunits, _⟩ := F32.units_of_dutyInRange hduty
  intro expo frac units n
  have hn : n = F32.units l.duty * p.pwmPeriod / 2 ^ 149 := countP_ledPwmOut hon hduty
  have hu : units = F32.units l.duty := hunits.symm
  rw [hu, hn]
  refine ⟨Nat.div_mul_le_self _ _, ?_, fun k => ?_, fun hone => ?_⟩
  · rw [Nat.mul_comm (_ + 1)]
    exact Nat.lt_mul_div_succ _ (Nat.two_pow_pos 149)
  · rw [ledPwmOut_of_on p hon, decide_eq_true_iff]
    rfl
  · rw [hone]
    exact dutyFloor_one p.pwmPeriod

/-! ## The LED sub-step without a command (R238, R239, R247) -/

/-- Settles O57, by the outcomes of the sample divider; the PWM counter steps in each. -/
theorem closedLoopTickComputesThePid : Obligations.ClosedLoopTickComputesThePid := by
  intro s r
  rw [quietCycle_led, ledFree]
  rcases ledSample_cases s.cfg s.input s.led with ⟨hm, e⟩ | ⟨hm, ht, e⟩ | ⟨hm, ht, e⟩
  all_goals rw [e]
  case inl =>
    have hopen : s.led.mode ≠ .closed := by rw [hm]; exact LedMode.noConfusion
    exact ⟨fun _ => rfl, fun h => absurd h hopen, fun h => absurd h hopen⟩
  all_goals have hloop : s.led.mode ≠ .direct := by rw [hm]; exact LedMode.noConfusion
  case inr.inl => exact ⟨fun h => absurd h hloop, fun _ h => absurd ht h, fun _ _ => rfl⟩
  case inr.inr => exact ⟨fun h => absurd h hloop, fun _ _ => rfl, fun _ h => absurd h ht⟩

end Sys2Proof.Machine

/-! Reset and quiescence (70_reset_and_hazards.md R285, R289, R302): the reset cycle and the outputs element by element,
and the cycle of a block that rests with nothing to parse and nothing to send. -/

namespace Sys2Proof.Machine

-- as in the tests: proofs checked one after another stay inside the sandbox's limit on threads
set_option Elab.async false

/-! ## The outputs (R289) -/

/-- `drv_en` is high in the five motion states (R166, R190). -/
theorem running_eq_decide_mem (m : Motor) : running m =
    decide (m.mState ∈ [.setup, .stepRising, .stepHighHold, .stepFalling, .stepLowHold]) := by
  unfold running
  cases m.mState <;> rfl

/-- With the LED off the PWM output is low (R246). -/
theorem ledPwmOut_of_off (p : Params) {l : Led} (h : l.on = false) : ledPwmOut p l = false := by
  rw [ledPwmOut, h, Bool.false_and]

/-- The outputs after a reset cycle. -/
theorem out_resetCycle (s : State) : out (resetCycle s) =
    { txValid := false, txByte := 0, stepOut := false, dirOut := false, msSel := s.cfg.msTable.full, drvEn := false,
      ledPwm := false, doneValid := false, doneCode := 0, heartbeat := false } := by
  have hpwm : ledPwmOut (resetCycle s).cfg (resetCycle s).led = false := ledPwmOut_of_off _ rfl
  rw [out, hpwm]
  rfl

/-- Settles O22: the step is the reset cycle, whose elements are those of `S_reset`; an output that is not itself a
register is `drv_en`, by the motor's state, or `done_code`, by the code. -/
theorem resetCycleGivesTheResetState : Obligations.ResetCycleGivesTheResetState := by
  refine ⟨fun s hl hr => ⟨resetCycle s, step_of_rst hl hr, rfl, rfl, rfl, rfl, rfl, rfl, rfl, rfl, rfl, rfl, rfl,
    out_resetCycle s⟩, fun s => ?_⟩
  rw [out, running_eq_decide_mem]
  cases s.motor.doneCode <;> rfl

/-! ## The sub-blocks at rest -/

/-- What quiescence says (R302). -/
theorem quiescent_iff {s : State} : quiescent s = true ↔
    s.motor.mState.isRest = true ∧ s.reply.valid = false ∧ RingBuf.size s.cfg.rbCap s.rb = 0 := by
  simp only [quiescent, Bool.and_eq_true, Bool.not_eq_true', decide_eq_true_eq, and_assoc]

/-- The rest states are IDLE and ESTOP (R166). -/
theorem MState.isRest_iff {x : MState} : x.isRest = true ↔ x = .idle ∨ x = .estop := by
  cases x <;> simp [MState.isRest]

/-- A motor at rest runs no motion (R166). -/
theorem not_running_of_isRest {m : Motor} (h : m.mState.isRest = true) : running m = false :=
  not_running_iff.mpr ((MState.isRest_iff.mp h).imp_right .inl)

/-- At rest the driver is off (R190). -/
theorem driverOff_of_isRest {s : State} (h : s.motor.mState.isRest = true) : driverOff s :=
  ⟨not_running_of_isRest h, not_running_of_isRest h⟩

/-- From rest the motor without a command stays at rest: no tick is processed, and the entry takes or leaves the e-stop
or does nothing (R168). -/
theorem motorFree_isRest {c : MotorCtx} (h : c.m.mState.isRest = true) : (motorFree c).mState.isRest = true := by
  rw [motorFree_of_no_tick (.inr (not_running_of_isRest h)), motorDone_mState]
  rcases motorEntry_cases c with ⟨_, _, e⟩ | ⟨_, _, e⟩ | ⟨_, _, e⟩ | ⟨_, _, e⟩ <;> rw [e]
  · exact h
  · rw [takeEstop_mState]; rfl
  · rw [returnFromEstop_mState]; rfl
  · exact h

/-- The motor in IDLE under a clear latch: nothing but the end of the completion pulse (R168 branch C, R263). -/
theorem motorFree_idle {c : MotorCtx} (hl : c.latched = false) (hs : c.m.mState = .idle) :
    motorFree c = { c.m with doneValid := false } := by
  have hrest : running c.m = false := not_running_iff.mpr (.inl hs)
  have hnormal : motorBranch c = .normal := motorBranch_normal.mpr ⟨hl, by rw [hs]; exact MState.noConfusion⟩
  rw [motorFree_of_no_tick (.inr hrest), motorEntry_of_normal hnormal]
  rfl

/-- A motor at rest that takes no e-stop in a cycle without a command keeps every register but the completion pulse
(R302). -/
theorem quietCycle_motor_at_rest {s : State} (hc : s.consistent = true) (hrest : s.motor.mState.isRest = true)
    (h : s.sw.sync2.est = false ∨ s.sw.estopLatched = true) (removed : Nat) :
    (quietCycle s removed).motor = { s.motor with doneValid := false } := by
  obtain ⟨⟨_, hlatch⟩, _⟩ := State.consistent_iff.mp hc
  rw [quietCycle_motor]
  rcases MState.isRest_iff.mp hrest with hidle | hestop
  · have hne : s.motor.mState ≠ .estop := by rw [hidle]; exact MState.noConfusion
    have hlevel : s.sw.sync2.est = false := h.resolve_right (mt hlatch.mpr hne)
    exact motorFree_idle (quiet_latched_eq_false hc hne hlevel) hidle
  · have hlatched : (motorCtx s Handler.quiet).latched = true := by
      rw [quiet_latched, hlatch.mp hestop, Bool.or_true]
    exact motorFree_held hlatched hestop

/-- With no reply pending the transmitter does nothing (R150). -/
theorem txStep_of_free (i : Input) {r : Reply} (hv : r.valid = false) : txStep i r = r := by
  rw [txStep, hv, Bool.false_and]
  rfl

/-- The LED sub-step without a command keeps the controller's settings (R247). -/
theorem ledFree_settings (p : Params) (i : Input) (l : Led) :
    (ledFree p i l).mode = l.mode ∧ (ledFree p i l).on = l.on ∧ (ledFree p i l).target = l.target ∧
    (ledFree p i l).p = l.p ∧ (ledFree p i l).i = l.i ∧ (ledFree p i l).d = l.d := by
  unfold ledFree
  rcases ledSample_cases p i l with ⟨_, e⟩ | ⟨_, _, e⟩ | ⟨_, _, e⟩ <;> rw [e] <;> exact ⟨rfl, rfl, rfl, rfl, rfl, rfl⟩

/-! ## Quiescence (R302) -/

/-- Settles O60: the parser finds nothing, so the step is the cycle without a command, and each sub-block at rest takes
it as said above. -/
theorem quiescentBlockStaysQuiescent : Obligations.QuiescentBlockStaysQuiescent := by
  intro s t hi hq hr hv hs
  obtain ⟨hrest, hfree, hempty⟩ := quiescent_iff.mp hq
  have hparser : parserStep s = (0, none) := parserStep_of_empty hempty
  have hd : dispatched s = none := by rw [dispatched, hparser]
  obtain rfl : t = quietCycle s 0 := by rw [eq_quietCycle_of_not_dispatched hi hr hd hs, hparser]
  have hrest' : (quietCycle s 0).motor.mState.isRest = true := motorFree_isRest hrest
  have hrb : (quietCycle s 0).rb = s.rb := RingBuf.cycle_of_no_byte s.rb 0 hv
  have hreply : (quietCycle s 0).reply = s.reply := txStep_of_free s.input hfree
  have hq' : quiescent (quietCycle s 0) = true := by
    rw [quiescent_iff, hrb, hreply]
    exact ⟨hrest', hfree, hempty⟩
  exact ⟨hq', hd, hrb, hreply, driverOff_of_isRest hrest', fun h => quietCycle_motor_at_rest hi.2 hrest h 0, rfl,
    ledFree_settings s.cfg s.input s.led⟩

end Sys2Proof.Machine
